-- ==== Sys2Proof/Word.lean ====
section
/-!
DEFINITION. The word types of the Huffman CORE: 32-bit command and response words, 21-bit symbol
fields and bit strings (00_scope.md R10, R11, R13).
-/

namespace Sys2Proof

/-- Every register, command word and response word (R10): 32 bits, bit 0 least significant. -/
abbrev Word := BitVec 32

/-- An opcode, a response tag or ERROP (R28, R66, R74). -/
abbrev Byte := BitVec 8

/-- A symbol field (R67). Whether it is a Unicode scalar value is `Machine.isScalar` (R13). -/
abbrev Symbol := BitVec 21

/-- A bit string (R11), first bit first; `false` is 0 and `true` is 1. -/
abbrev Bits := List Bool

end Sys2Proof
end

