-- ==== Sys2Proof/Syntax.lean ====
section
/-!
DEFINITION. The 14 commands of the opcode map (30_encoding.md R72), one constructor per row of
spec/opcode_table.json, with the operand of its form (R67 to R71).
-/

namespace Sys2Proof

/-- A command of the Huffman CORE. -/
inductive Instr where
  /-- 0x01, form Z: clear all data and error state (R129). -/
  | clr
  /-- 0x02, form S: count one occurrence of `sym` (R101). -/
  | cnt (sym : Symbol)
  /-- 0x03, form Z: build the tree from FT (R105). -/
  | bld
  /-- 0x04, form Z: walk the tree into CT (R111). -/
  | gen
  /-- 0x05, form S: emit the code of `sym` (R116). -/
  | enc (sym : Symbol)
  /-- 0x06, form B: decode the bits (R123). -/
  | dbit (bits : Bits)
  /-- 0x07, form Z: end of the bit string (R125). -/
  | dend
  /-- 0x08, form S: open a CT entry for `sym` (R118). -/
  | lsym (sym : Symbol)
  /-- 0x09, form B: append the bits to the open entry's code (R119). -/
  | lbit (bits : Bits)
  /-- 0x0A, form Z: commit the open entry into CT (R120). -/
  | lcom
  /-- 0x0B, form Z: end loading (R121). -/
  | lend
  /-- 0x0C, form Z: read out CT (R115). -/
  | dump
  /-- 0x0D, form S: read out the count of `sym` (R102). -/
  | qfreq (sym : Symbol)
  /-- 0x0E, form T: fence, echo `tag` (R130). -/
  | sync (tag : BitVec 16)
  deriving DecidableEq, Repr

end Sys2Proof
end

