-- ==== Sys2Proof/WellFormed.lean ====
section
/-!
DEFINITION. Which terms of `Instr` a command word can carry (30_encoding.md R67 to R70). Only form B sets a
bound the type does not: 1 to 16 bits (R68). A symbol that is no scalar value is well formed: it decodes, and
its command raises ILLEGAL_SYMBOL when it runs (R89).
-/

namespace Sys2Proof

/-- Form B's bound (R68): n is 1 to 16. -/
def bitsWf (b : Bits) : Bool := decide (1 ≤ b.length ∧ b.length ≤ 16)

/-- The command can be written as a command word. -/
def Instr.wf : Instr → Bool
  | .clr => true
  | .cnt _ => true
  | .bld => true
  | .gen => true
  | .enc _ => true
  | .dbit b => bitsWf b
  | .dend => true
  | .lsym _ => true
  | .lbit b => bitsWf b
  | .lcom => true
  | .lend => true
  | .dump => true
  | .qfreq _ => true
  | .sync _ => true

end Sys2Proof
end

