-- ==== Sys2Proof/Decode.lean ====
section
/-!
DEFINITION. Decode (40_common.md R92), total on every 32-bit word, and the encoder, both written from the
operand forms and the opcode map of 30_encoding.md R66 to R72.
-/

namespace Sys2Proof

/-- The opcode byte of a word (R66). -/
def opcodeByte (w : Word) : Byte := w.extractLsb' 24 8

/-! ## Bit strings in a 16-bit field (20_memory.md R51) -/

/-- The bits `b`, the first of them at bit `15 - j` and the rest downward. -/
def packFrom : Nat → Bits → BitVec 16
  | _, [] => 0#16
  | j, b :: bs => (if b then BitVec.twoPow 16 (15 - j) else 0#16) ||| packFrom (j + 1) bs

/-- The field [15:0] that carries `b`: the j-th bit at bit `15 - j`, unused low bits 0. -/
def packBits (b : Bits) : BitVec 16 := packFrom 0 b

/-- `bitstr(w)` of R71 for a count `n`: the j-th bit is `w[15-j]`. -/
def bitstr (w : Word) (n : Nat) : Bits := (List.range n).map fun j => w.getLsbD (15 - j)

/-! ## Decode -/

/-- Why a word is ILLEGAL (R73). All of them raise the one error ILLEGAL_COMMAND. -/
inductive DecodeError where
  /-- Opcode 0x00 or 0x0F to 0xFF. -/
  | reservedOpcode
  /-- A reserved operand bit is not 0. -/
  | reservedBits
  /-- Form B with n = 0 or n > 16. -/
  | badCount
  /-- Form B with a non-zero bit below the n bits. -/
  | unusedBits
  deriving DecidableEq, Repr

/-- Form S (R67). -/
def decodeS (w : Word) (k : Symbol → Instr) : Except DecodeError Instr :=
  if w.extractLsb' 21 3 ≠ 0#3 then .error .reservedBits
  else .ok (k (w.extractLsb' 0 21))

/-- The count n of form B (R68), unsigned (R71). -/
def countB (w : Word) : Nat := (w.extractLsb' 16 5).toNat

/-- The bits [15-n:0] below the n bits of form B are 0 (R68); there are none when n is 16. -/
def unusedZero (w : Word) (n : Nat) : Bool := decide (w.extractLsb' 0 (16 - n) = 0#(16 - n))

/-- Form B (R68). -/
def decodeB (w : Word) (k : Bits → Instr) : Except DecodeError Instr :=
  if w.extractLsb' 21 3 ≠ 0#3 then .error .reservedBits
  else if countB w = 0 ∨ 16 < countB w then .error .badCount
  else if unusedZero w (countB w) = false then .error .unusedBits
  else .ok (k (bitstr w (countB w)))

/-- Form T (R69). -/
def decodeT (w : Word) (k : BitVec 16 → Instr) : Except DecodeError Instr :=
  if w.extractLsb' 16 8 ≠ 0#8 then .error .reservedBits
  else .ok (k (w.extractLsb' 0 16))

/-- Form Z (R70). -/
def decodeZ (w : Word) (i : Instr) : Except DecodeError Instr :=
  if w.extractLsb' 0 24 ≠ 0#24 then .error .reservedBits
  else .ok i

/-- `Decode(w)` (R92), by the opcode map of R72. -/
def decode (w : Word) : Except DecodeError Instr :=
  match (opcodeByte w).toNat with
  | 0x01 => decodeZ w .clr
  | 0x02 => decodeS w .cnt
  | 0x03 => decodeZ w .bld
  | 0x04 => decodeZ w .gen
  | 0x05 => decodeS w .enc
  | 0x06 => decodeB w .dbit
  | 0x07 => decodeZ w .dend
  | 0x08 => decodeS w .lsym
  | 0x09 => decodeB w .lbit
  | 0x0A => decodeZ w .lcom
  | 0x0B => decodeZ w .lend
  | 0x0C => decodeZ w .dump
  | 0x0D => decodeS w .qfreq
  | 0x0E => decodeT w .sync
  | _ => .error .reservedOpcode

/-! ## Encode -/

/-- The opcode of each command (R72). -/
def opcodeOf : Instr → Byte
  | .clr => 0x01#8
  | .cnt _ => 0x02#8
  | .bld => 0x03#8
  | .gen => 0x04#8
  | .enc _ => 0x05#8
  | .dbit _ => 0x06#8
  | .dend => 0x07#8
  | .lsym _ => 0x08#8
  | .lbit _ => 0x09#8
  | .lcom => 0x0A#8
  | .lend => 0x0B#8
  | .dump => 0x0C#8
  | .qfreq _ => 0x0D#8
  | .sync _ => 0x0E#8

/-- The operand field of form S (R67). -/
def operandS (sym : Symbol) : BitVec 24 := 0#3 ++ sym

/-- The operand field of form B (R68). -/
def operandB (b : Bits) : BitVec 24 := 0#3 ++ BitVec.ofNat 5 b.length ++ packBits b

/-- The operand field of form T (R69). -/
def operandT (tag : BitVec 16) : BitVec 24 := 0#8 ++ tag

/-- The operand field of each command (R67 to R70). -/
def operandOf : Instr → BitVec 24
  | .clr => 0#24
  | .cnt sym => operandS sym
  | .bld => 0#24
  | .gen => 0#24
  | .enc sym => operandS sym
  | .dbit b => operandB b
  | .dend => 0#24
  | .lsym sym => operandS sym
  | .lbit b => operandB b
  | .lcom => 0#24
  | .lend => 0#24
  | .dump => 0#24
  | .qfreq sym => operandS sym
  | .sync tag => operandT tag

/-- The command word of a well-formed command (R66). -/
def encode (i : Instr) : Word := opcodeOf i ++ operandOf i

/-! ## The host's view of the decoder -/

/-- The command whose low `nbits` bits are those of `w` and whose higher bits are 0 (log entry 20): one 32-bit
word, bit i of the table being bit i of the word (R50). -/
def decodeTableWord (nbits w : Nat) : Option Instr :=
  match decode (BitVec.ofNat 32 (w % 2 ^ nbits)) with
  | .ok i => some i
  | .error _ => none

end Sys2Proof
end

