-- ==== Sys2Proof/Config.lean ====
section
/-!
DEFINITION. What an implementation fixes (00_scope.md R6) and the free values. The five sizes are plain
data carried in `State.par` (log entry 1); HUF_BASE and TIE_POLICY are OPEN in the spec and are constants
without a value here (log entries 2 and 3).
-/

namespace Sys2Proof

/-- The size parameters of R6. -/
structure Params where
  /-- N_SYM: capacity of FT and of CT, in symbols; 1 to 65535. -/
  nSym : Nat
  /-- W_CNT: width in bits of every count, node frequency and TOTAL; 1 to 32. -/
  wCnt : Nat
  /-- MAX_CODE_LEN: the longest code CT can hold; 1 to 65535. -/
  maxCodeLen : Nat
  /-- CMDQ_DEPTH: capacity of CMDQ; 1 to 255. -/
  cmdqDepth : Nat
  /-- RSPQ_DEPTH: capacity of RSPQ; 1 to 255. -/
  rspqDepth : Nat
  deriving DecidableEq, Repr

/-- MAX_CODE_LEN's default for a given N_SYM (R6): N_SYM - 1, but 1 when N_SYM = 1. -/
def Params.defaultCodeLen (nSym : Nat) : Nat :=
  if 2 ≤ nSym then nSym - 1 else 1

/-- The reference configuration of R6. -/
def Params.default : Params where
  nSym := 256
  wCnt := 32
  maxCodeLen := Params.defaultCodeLen 256
  cmdqDepth := 16
  rspqDepth := 16

/-- The ranges of R6. -/
structure Params.Wf (p : Params) : Prop where
  nSym_range : 1 ≤ p.nSym ∧ p.nSym ≤ 65535
  wCnt_range : 1 ≤ p.wCnt ∧ p.wCnt ≤ 32
  maxCodeLen_range : 1 ≤ p.maxCodeLen ∧ p.maxCodeLen ≤ 65535
  cmdqDepth_range : 1 ≤ p.cmdqDepth ∧ p.cmdqDepth ≤ 255
  rspqDepth_range : 1 ≤ p.rspqDepth ∧ p.rspqDepth ≤ 255

/-- Which 64-byte block of the host's bus the register window occupies. OPEN (R46): no value, so a
statement about the window holds wherever it is placed. -/
opaque Config.hufWindow : Nat

/-- HUF_BASE (R46), a multiple of 64. -/
def Config.hufBase : Nat := 64 * Config.hufWindow

/-- TIE_POLICY (R107): the `k`-th draw among nodes of equal frequency. OPEN: no value, so a statement
about BLD holds for every sequence of choices. -/
opaque Config.tieDraw : Nat → Nat

end Sys2Proof
end

