-- ==== Sys2Proof/Machine/State.lean ====
section
/-!
DEFINITION. The state of the block (10_state.md R17 to R29) as plain data, its value after reset (R42), and
the reasons a step can stop. NFREQ, NNODE and NCODE are the lengths of the lists of valid slots; slots beyond
them, and the staging entry while closed, are absent (R43, log entry 8).
-/

namespace Sys2Proof.Machine

/-- PHASE (R17). The values 5 and 6 are never held. -/
inductive Phase where
  | idle | counting | tree | codes | loading | error
  deriving DecidableEq, Repr

/-- ERRCODE (R28) and the error codes of R133. -/
inductive ErrCode where
  | noError | emptyInput | missingSymbol | malformedTable | unmatchedBits | illegalCommand
  | illegalSymbol | phaseError | tableFull | countOverflow | codeTooLong | cmdOverflow
  deriving DecidableEq, Repr

/-- A slot of FT (R18). The count is a Nat that the block keeps below `2^W_CNT` (log entry 9). -/
structure FreqEntry where
  sym : Symbol
  cnt : Nat
  deriving DecidableEq, Repr

/-- A node of the arena (R20); the constructor is its `kind`. -/
inductive Node where
  | leaf (sym : Symbol) (freq : Nat)
  | internal (left right : Nat) (freq : Nat)
  deriving DecidableEq, Repr

/-- NODE, with NNODE = `nodes.length`, and ROOT (R20). -/
structure HTree where
  nodes : List Node
  root : Nat
  deriving DecidableEq, Repr

/-- A slot of CT (R22), and the open staging entry (R23). -/
structure CodeEntry where
  sym : Symbol
  code : Bits
  deriving DecidableEq, Repr

/-- The width of a HOST access (R48, R49). Only `word` is admitted. -/
inductive Width where
  | byte | half | word | double
  deriving DecidableEq, Repr

/-- What can happen next (R8, R150, R162): one step of one agent. -/
inductive Move where
  /-- The CORE's turn: EXECUTE or DELIVER, whichever is enabled, and nothing if neither is. -/
  | core
  /-- A HOST read of a bus address. -/
  | read (addr : Nat) (width : Width)
  /-- A HOST write of a bus address. -/
  | write (addr : Nat) (width : Width) (data : Word)
  /-- The platform asserts `rst`. -/
  | rst
  deriving DecidableEq, Repr

/-- The whole state. -/
structure State where
  /-- The parameters (R6); no step changes them. CFG0 and CFG1 show them (R37, R38). -/
  par : Params
  /-- PHASE (R17). -/
  phase : Phase
  /-- FT's valid slots in slot order (R18). -/
  ft : List FreqEntry
  /-- TOTAL (R19). -/
  total : Nat
  /-- The tree, when there is one (R20, R21). -/
  tree : Option HTree
  /-- CT's valid slots in slot order (R22). -/
  ct : List CodeEntry
  /-- STAGE: `some` when STAGE.open = 1 (R23). -/
  stage : Option CodeEntry
  /-- DPREFIX (R24). -/
  dpre : Bits
  /-- CMDQ, head first (R25). -/
  cmdq : List Word
  /-- PEND, head first (R26). -/
  pend : List Word
  /-- RSPQ, head first (R27). -/
  rspq : List Word
  /-- ERRCODE (R28). -/
  errcode : ErrCode
  /-- ERROP (R28). -/
  errop : Byte
  /-- OVF (R28). -/
  ovf : Bool
  /-- The model's own: tie draws taken so far (R107, log entry 3). -/
  draws : Nat
  /-- The model's own: the moves still to come; the CORE's turn when there is none (log entry 4). -/
  env : List Move
  /-- The model's own: what the HOST's last read returned, if it has read (R48, log entry 5). -/
  busData : Option Word
  deriving DecidableEq, Repr

/-- NFREQ (R18). -/
abbrev State.nfreq (s : State) : Nat := s.ft.length

/-- NCODE (R22). -/
abbrev State.ncode (s : State) : Nat := s.ct.length

/-- The block right after reset with parameters `p` (R42, R151), no moves pending. -/
def State.resetWith (p : Params) : State where
  par := p
  phase := .idle
  ft := []
  total := 0
  tree := none
  ct := []
  stage := none
  dpre := []
  cmdq := []
  pend := []
  rspq := []
  errcode := .noError
  errop := 0#8
  ovf := false
  draws := 0
  env := []
  busData := none

/-- The reference configuration (R6) right after reset. -/
def State.reset : State := State.resetWith Params.default

/-- Why a step faults. Only a HOST step can fault (R132). -/
inductive Fault where
  /-- Raised by a HOST access of a width other than 32 bits or at an offset that is no multiple of 4 (R49);
  what the bus does is BUS_ERROR, OPEN. Safe: nothing is proved of a run that makes such an access. -/
  | busError
  /-- Raised by a HOST access outside HUF_BASE to HUF_BASE + 0x3F, where the block has no address (R46).
  Safe: nothing is proved of a run that makes such an access. -/
  | outsideWindow
  deriving DecidableEq, Repr

/-- Why a step is refused. The block refuses nothing (R132), and no step of this model does. -/
inductive Refusal where
  /-- For an instruction without a meaning; no arm of `exec` raises it. Safe. -/
  | notModelled (mnemonic : String)
  deriving DecidableEq, Repr

end Sys2Proof.Machine
end

