-- ==== Sys2Proof/Machine/Operands.lean ====
section
/-!
DEFINITION. The operand checks of a command, the bit-string tests of R11, and the response words and chunks
of 30_encoding.md R74 to R84.
-/

namespace Sys2Proof.Machine

/-! ## Operands -/

/-- `is_scalar` (R13). -/
def isScalar (s : Symbol) : Bool :=
  decide (s.toNat ≤ 0x10FFFF ∧ ¬ (0xD800 ≤ s.toNat ∧ s.toNat ≤ 0xDFFF))

/-- The symbol operand of form S (R67). -/
def symbolOf : Instr → Option Symbol
  | .clr => none
  | .cnt sym => some sym
  | .bld => none
  | .gen => none
  | .enc sym => some sym
  | .dbit _ => none
  | .dend => none
  | .lsym sym => some sym
  | .lbit _ => none
  | .lcom => none
  | .lend => none
  | .dump => none
  | .qfreq sym => some sym
  | .sync _ => none

/-- Check 4 of R134: form S's symbol must be a scalar value; the other forms have none. -/
def symbolOk (i : Instr) : Bool :=
  match symbolOf i with
  | some sym => isScalar sym
  | none => true

/-! ## Bit strings -/

/-- `p ⊑ c` (R11). -/
def startsWith (c p : Bits) : Bool := p.isPrefixOf c

/-- `p ⊏ c` (R11). -/
def startsProperly (c p : Bits) : Bool := p.isPrefixOf c && decide (p ≠ c)

/-! ## Response words -/

/-- The numeric value of an error code (R133). -/
def errNum : ErrCode → BitVec 4
  | .noError => 0x0#4
  | .emptyInput => 0x1#4
  | .missingSymbol => 0x2#4
  | .malformedTable => 0x3#4
  | .unmatchedBits => 0x4#4
  | .illegalCommand => 0x5#4
  | .illegalSymbol => 0x6#4
  | .phaseError => 0x7#4
  | .tableFull => 0x8#4
  | .countOverflow => 0x9#4
  | .codeTooLong => 0xA#4
  | .cmdOverflow => 0xB#4

/-- BITS word (R75) of 1 to 16 bits. -/
def bitsWord (b : Bits) : Word := 0x81#8 ++ (0#3 ++ BitVec.ofNat 5 b.length ++ packBits b)

/-- SYM word (R76). -/
def symWord (sym : Symbol) : Word := 0x82#8 ++ (0#3 ++ sym)

/-- FREQ word (R77). -/
def freqWord (sym : Symbol) : Word := 0x83#8 ++ (0#3 ++ sym)

/-- The count word after a FREQ word (R77): `zext_32(count)`. -/
def countWord (n : Nat) : Word := BitVec.ofNat 32 n

/-- ENTRY word (R78). -/
def entryWord (sym : Symbol) : Word := 0x84#8 ++ (0#3 ++ sym)

/-- DONE word (R79) of the command with opcode `op`. -/
def doneWord (op : Byte) : Word := 0x85#8 ++ (op ++ 0#16)

/-- SYNC word (R80). -/
def syncWord (inError : Bool) (tag : BitVec 16) : Word :=
  0x86#8 ++ (0#7 ++ BitVec.ofBool inError ++ tag)

/-- ERR word (R81). -/
def errWord (op : Byte) (e : ErrCode) : Word := 0xEE#8 ++ (op ++ 0x000#12 ++ errNum e)

/-- `Chunks(c)` (R84), at most `fuel` words. -/
def chunksFrom : Nat → Bits → List Word
  | 0, _ => []
  | _ + 1, [] => []
  | fuel + 1, b :: bs => bitsWord ((b :: bs).take 16) :: chunksFrom fuel ((b :: bs).drop 16)

/-- `Chunks(c)` (R84): 16 bits a word, the rest in the last. -/
def chunks (c : Bits) : List Word := chunksFrom c.length c

end Sys2Proof.Machine
end

