-- ==== Sys2Proof/Machine/Flags.lean ====
section
/-!
DEFINITION. The flags of 10_state.md R41 and the read-only registers computed from the state, R33 to R38.
-/

namespace Sys2Proof.Machine

/-- The value of PHASE (R17). -/
def phaseNum : Phase → BitVec 3
  | .idle => 0#3
  | .counting => 1#3
  | .tree => 2#3
  | .codes => 3#3
  | .loading => 4#3
  | .error => 7#3

/-- BUSY: CMDQ or PEND is not empty (R33). -/
def flagBusy (s : State) : Bool := decide (s.cmdq ≠ [] ∨ s.pend ≠ [])

/-- ERR: PHASE = ERROR (R33). -/
def flagErr (s : State) : Bool := decide (s.phase = .error)

/-- OVF (R33). -/
def flagOvf (s : State) : Bool := s.ovf

/-- DPEND: DPREFIX is not empty (R33). -/
def flagDpend (s : State) : Bool := decide (s.dpre ≠ [])

/-- STAGE_OPEN: STAGE.open (R33). -/
def flagStageOpen (s : State) : Bool := s.stage.isSome

/-- CMD_FREE (R33). -/
def cmdFree (s : State) : Nat := s.par.cmdqDepth - s.cmdq.length

/-- STATUS (R33), from bit 31 down. -/
def statusWord (s : State) : Word :=
  0x00#8 ++ (BitVec.ofNat 8 s.rspq.length ++ (BitVec.ofNat 8 (cmdFree s) ++
    (BitVec.ofBool (flagStageOpen s) ++ (BitVec.ofBool (flagDpend s) ++ (BitVec.ofBool (flagOvf s) ++
      (BitVec.ofBool (flagErr s) ++ (BitVec.ofBool (flagBusy s) ++ phaseNum s.phase)))))))

/-- ERRINFO (R34). -/
def errinfoWord (s : State) : Word := 0x0000#16 ++ (s.errop ++ (0x0#4 ++ errNum s.errcode))

/-- COUNTS (R35). -/
def countsWord (s : State) : Word := BitVec.ofNat 16 s.ncode ++ BitVec.ofNat 16 s.nfreq

/-- The register TOTAL (R36). -/
def totalWord (s : State) : Word := BitVec.ofNat 32 s.total

/-- CFG0 (R37). -/
def cfg0Word (p : Params) : Word := BitVec.ofNat 16 p.maxCodeLen ++ BitVec.ofNat 16 p.nSym

/-- CFG1 (R38): VERSION is 0x01. -/
def cfg1Word (p : Params) : Word :=
  0x01#8 ++ (BitVec.ofNat 8 p.rspqDepth ++ (BitVec.ofNat 8 p.cmdqDepth ++ BitVec.ofNat 8 p.wCnt))

end Sys2Proof.Machine
end

