-- ==== Sys2Proof/Machine/Ops.lean ====
section
/-!
DEFINITION. The operations every command shares: phase permissions (40_common.md R91), lookups (R93), the
error entry Raise (60_exceptions.md R135), the way out of phase ERROR (R138, 47_control.md R129), the check
order of EXECUTE (R89), and the reset action (70_reset_and_hazards.md R151).
-/

namespace Sys2Proof.Machine

/-! ## Phase permissions -/

/-- `Allowed(cmd)` (R91). -/
def allowed : Instr → List Phase
  | .clr => [.idle, .counting, .tree, .codes, .loading]
  | .cnt _ => [.idle, .counting]
  | .bld => [.idle, .counting]
  | .gen => [.tree]
  | .enc _ => [.codes]
  | .dbit _ => [.codes]
  | .dend => [.codes]
  | .lsym _ => [.idle, .loading]
  | .lbit _ => [.loading]
  | .lcom => [.loading]
  | .lend => [.loading]
  | .dump => [.codes]
  | .qfreq _ => [.idle, .counting, .tree, .codes, .loading]
  | .sync _ => [.idle, .counting, .tree, .codes, .loading]

/-! ## Lookups over the valid slots (R93) -/

/-- `FindF(s)`: the slot of FT that holds `sym`. -/
def findF (ft : List FreqEntry) (sym : Symbol) : Option Nat :=
  ft.findIdx? fun e => decide (e.sym = sym)

/-- `FindC(s)`: the code CT gives `sym`, at the slot that holds it. -/
def findC (ct : List CodeEntry) (sym : Symbol) : Option CodeEntry :=
  ct.find? fun e => decide (e.sym = sym)

/-- `MatchC(p)`: the slot of CT whose code is `p`. -/
def matchC (ct : List CodeEntry) (p : Bits) : Option CodeEntry :=
  ct.find? fun e => decide (e.code = p)

/-- `Extends(p)`: `p` is a proper beginning of some code of CT. -/
def extends? (ct : List CodeEntry) (p : Bits) : Bool :=
  ct.any fun e => startsProperly e.code p

/-- `CountOf(s)`: the count of `sym`, 0 if it has no slot. -/
def countOf (ft : List FreqEntry) (sym : Symbol) : Nat :=
  match findF ft sym with
  | some i => (ft[i]?.map FreqEntry.cnt).getD 0
  | none => 0

/-! ## Errors -/

/-- Raise (R135), the error entry: the state before the command, but for PHASE, ERRCODE and ERROP; the
words pushed before the raise, then the ERR word, become PEND. -/
def raise (op : Byte) (e : ErrCode) (pushed : List Word) (s : State) : State :=
  { s with phase := .error, errcode := e, errop := op, pend := pushed ++ [errWord op e] }

/-- The body of CLR (R129), the way out of phase ERROR (R138): "after CLR" of R42. -/
def clearAll (s : State) : State :=
  { s with
    phase := .idle, ft := [], total := 0, tree := none, ct := [], stage := none, dpre := [],
    errcode := .noError, errop := 0#8, ovf := false }

/-- A word discarded in phase ERROR (R137): it changes nothing and pushes nothing. -/
def discard (s : State) : State := { s with pend := [] }

/-- The reset action (R151), of `rst` and of CTRL.SRST alike. The parameters stay, and so do the model's own
fields: the draws (log entry 3), the moves to come and the data the HOST has read. -/
def resetBlock (s : State) : State :=
  { State.resetWith s.par with draws := s.draws, env := s.env, busData := s.busData }

/-! ## The common part of a command (R88, R89) -/

/-- How a command's body ends: with the state after the commit and the words pushed, or with `raise E` and
the words pushed before it. -/
inductive BodyResult where
  | done (s : State) (pushed : List Word)
  | raised (e : ErrCode) (pushed : List Word)

/-- The commit of a body that ran in state `s`. -/
def commit (op : Byte) (s : State) : BodyResult → State
  | .done t pushed => { t with pend := pushed }
  | .raised e pushed => raise op e pushed s

/-- EXECUTE (R89) for a legal command word other than CLR and SYNC, the word already taken from CMDQ: in
phase ERROR it is discarded; then the phase, the symbol and the command's own checks, in the order of R134. -/
def runCommand (i : Instr) (body : State → BodyResult) (s : State) : State :=
  if s.phase = .error then discard s
  else if s.phase ∉ allowed i then raise (opcodeOf i) .phaseError [] s
  else if symbolOk i = false then raise (opcodeOf i) .illegalSymbol [] s
  else commit (opcodeOf i) s (body s)

/-- EXECUTE (R89) for a word that is ILLEGAL (R92): discarded in phase ERROR, else ILLEGAL_COMMAND. -/
def illegalCommand (w : Word) (s : State) : State :=
  if s.phase = .error then discard s
  else raise (opcodeByte w) .illegalCommand [] s

end Sys2Proof.Machine
end

