-- ==== Sys2Proof/Machine/CodeGen.lean ====
section
/-!
DEFINITION. The code generator (43_codegen.md): GEN and DUMP.
-/

namespace Sys2Proof.Machine

/-- `Walk(x, acc)` of R112, to a depth of at most `fuel`: the bit string recorded at each leaf reached. -/
def walk (nodes : List Node) : Nat → Nat → Bits → List (Nat × Bits)
  | 0, _, _ => []
  | fuel + 1, x, acc =>
    match nodes[x]? with
    | some (.leaf _ _) => [(x, acc)]
    | some (.internal l r _) => walk nodes fuel l (acc ++ [false]) ++ walk nodes fuel r (acc ++ [true])
    | none => []

/-- `CodeOf(i)` (R112, R113). A leaf the walk does not reach has the empty string; no tree BLD builds has
one (log entry 10). -/
def codeOf (t : HTree) (i : Nat) : Bits :=
  if t.nodes.length = 1 then [false]
  else ((walk t.nodes t.nodes.length t.root []).lookup i).getD []

/-- The tree GEN walks; phase TREE always has one (R44, log entry 10). -/
def treeOf (s : State) : HTree := s.tree.getD ⟨[], 0⟩

/-- `c[i]` of R111 for every slot of FT. -/
def generatedCodes (s : State) : List Bits := (List.range s.nfreq).map (codeOf (treeOf s))

/-- The CT that R111 writes: slot i holds the symbol of FT's slot i and `c[i]`. -/
def generatedTable (s : State) : List CodeEntry :=
  List.zipWith (fun e c => ⟨e.sym, c⟩) s.ft (generatedCodes s)

/-- The body of GEN (R111). -/
def genBody (s : State) : BodyResult :=
  if (generatedCodes s).any (fun c => decide (s.par.maxCodeLen < c.length)) then
    .raised .codeTooLong []
  else .done { s with ct := generatedTable s, tree := none, dpre := [], phase := .codes } []

/-- GEN (R111). -/
def execGen (s : State) : Host.Outcome State Fault Refusal :=
  .next (runCommand .gen genBody s)

/-- What DUMP pushes for one slot (R115): ENTRY, then the chunks of the code. -/
def dumpEntry (e : CodeEntry) : List Word := entryWord e.sym :: chunks e.code

/-- What DUMP pushes (R115). -/
def dumpWords (ct : List CodeEntry) : List Word := ct.flatMap dumpEntry ++ [doneWord (opcodeOf .dump)]

/-- The body of DUMP (R115). -/
def dumpBody (s : State) : BodyResult := .done s (dumpWords s.ct)

/-- DUMP (R115). -/
def execDump (s : State) : Host.Outcome State Fault Refusal :=
  .next (runCommand .dump dumpBody s)

end Sys2Proof.Machine
end

