-- ==== Sys2Proof/Machine/Control.lean ====
section
/-!
DEFINITION. The control commands (47_control.md): CLR and SYNC. Both act in every phase, ERROR included
(40_common.md R89, 60_exceptions.md R137), so no check comes before their bodies.
-/

namespace Sys2Proof.Machine

/-- CLR (R129). -/
def execClr (s : State) : Host.Outcome State Fault Refusal :=
  .next { clearAll s with pend := [] }

/-- SYNC (R130). -/
def execSync (tag : BitVec 16) (s : State) : Host.Outcome State Fault Refusal :=
  .next { s with pend := [syncWord (decide (s.phase = .error)) tag] }

end Sys2Proof.Machine
end

