-- ==== Sys2Proof/Machine/Decoder.lean ====
section
/-!
DEFINITION. The decoder (46_decode.md): DBIT and DEND.
-/

namespace Sys2Proof.Machine

/-- DecodeBit (R124): the new pending bits and the words pushed, or `none` for `raise UNMATCHED_BITS`. -/
def decodeBit (ct : List CodeEntry) (d : Bits) (bit : Bool) : Option (Bits × List Word) :=
  match matchC ct (d ++ [bit]) with
  | some e => some ([], [symWord e.sym])
  | none => if extends? ct (d ++ [bit]) = true then some (d ++ [bit], []) else none

/-- The loop of R123 over the bits: the pending bits at its end, or `none` where a bit raised
UNMATCHED_BITS, and the words pushed up to there. -/
def decodeBits (ct : List CodeEntry) : Bits → Bits → Option Bits × List Word
  | d, [] => (some d, [])
  | d, b :: bs =>
    match decodeBit ct d b with
    | none => (none, [])
    | some (d', out) =>
      let r := decodeBits ct d' bs
      (r.1, out ++ r.2)

/-- The body of DBIT (R123). -/
def dbitBody (bits : Bits) (s : State) : BodyResult :=
  match decodeBits s.ct s.dpre bits with
  | (some d, out) => .done { s with dpre := d } out
  | (none, out) => .raised .unmatchedBits out

/-- DBIT (R123). -/
def execDbit (bits : Bits) (s : State) : Host.Outcome State Fault Refusal :=
  .next (runCommand (.dbit bits) (dbitBody bits) s)

/-- The body of DEND (R125). -/
def dendBody (s : State) : BodyResult :=
  if s.dpre ≠ [] then .raised .unmatchedBits []
  else .done s [doneWord (opcodeOf .dend)]

/-- DEND (R125). -/
def execDend (s : State) : Host.Outcome State Fault Refusal :=
  .next (runCommand .dend dendBody s)

end Sys2Proof.Machine
end

