-- ==== Sys2Proof/Machine/Encoder.lean ====
section
/-!
DEFINITION. The encoder (44_encode.md): ENC.
-/

namespace Sys2Proof.Machine

/-- The body of ENC (R116). -/
def encBody (sym : Symbol) (s : State) : BodyResult :=
  match findC s.ct sym with
  | none => .raised .missingSymbol []
  | some e => .done s (chunks e.code)

/-- ENC (R116). -/
def execEnc (sym : Symbol) (s : State) : Host.Outcome State Fault Refusal :=
  .next (runCommand (.enc sym) (encBody sym) s)

end Sys2Proof.Machine
end

