-- ==== Sys2Proof/Machine/Frequency.lean ====
section
/-!
DEFINITION. The frequency counter (41_frequency.md): CNT and QFREQ.
-/

namespace Sys2Proof.Machine

/-- The largest value of a W_CNT-bit count (R101). -/
def maxCount (p : Params) : Nat := 2 ^ p.wCnt - 1

/-- One more occurrence in a slot of FT. -/
def bump (e : FreqEntry) : FreqEntry := { e with cnt := e.cnt + 1 }

/-- The body of CNT (R101). -/
def cntBody (sym : Symbol) (s : State) : BodyResult :=
  if s.total = maxCount s.par then .raised .countOverflow []
  else
    match findF s.ft sym with
    | none =>
      if s.nfreq = s.par.nSym then .raised .tableFull []
      else .done { s with ft := s.ft ++ [⟨sym, 1⟩], total := s.total + 1, phase := .counting } []
    | some i => .done { s with ft := s.ft.modify i bump, total := s.total + 1, phase := .counting } []

/-- CNT (R101). -/
def execCnt (sym : Symbol) (s : State) : Host.Outcome State Fault Refusal :=
  .next (runCommand (.cnt sym) (cntBody sym) s)

/-- The body of QFREQ (R102). -/
def qfreqBody (sym : Symbol) (s : State) : BodyResult :=
  .done s [freqWord sym, countWord (countOf s.ft sym)]

/-- QFREQ (R102). -/
def execQfreq (sym : Symbol) (s : State) : Host.Outcome State Fault Refusal :=
  .next (runCommand (.qfreq sym) (qfreqBody sym) s)

end Sys2Proof.Machine
end

