-- ==== Sys2Proof/Machine/TableLoad.lean ====
section
/-!
DEFINITION. The code-table loader (45_table_load.md): LSYM, LBIT, LCOM, LEND.
-/

namespace Sys2Proof.Machine

/-- The body of LSYM (R118). -/
def lsymBody (sym : Symbol) (s : State) : BodyResult :=
  if s.phase = .loading ∧ s.stage.isSome = true then .raised .malformedTable []
  else .done { s with stage := some ⟨sym, []⟩, phase := .loading } []

/-- LSYM (R118). -/
def execLsym (sym : Symbol) (s : State) : Host.Outcome State Fault Refusal :=
  .next (runCommand (.lsym sym) (lsymBody sym) s)

/-- The body of LBIT (R119). -/
def lbitBody (bits : Bits) (s : State) : BodyResult :=
  match s.stage with
  | none => .raised .malformedTable []
  | some e =>
    if s.par.maxCodeLen < e.code.length + bits.length then .raised .codeTooLong []
    else .done { s with stage := some { e with code := e.code ++ bits } } []

/-- LBIT (R119). -/
def execLbit (bits : Bits) (s : State) : Host.Outcome State Fault Refusal :=
  .next (runCommand (.lbit bits) (lbitBody bits) s)

/-- Some code of CT is a beginning of `c`, or `c` of it (R120); equal codes are both. -/
def clashes (ct : List CodeEntry) (c : Bits) : Bool :=
  ct.any fun e => startsWith c e.code || startsWith e.code c

/-- The body of LCOM (R120). -/
def lcomBody (s : State) : BodyResult :=
  match s.stage with
  | none => .raised .malformedTable []
  | some e =>
    if e.code = [] then .raised .malformedTable []
    else if (findC s.ct e.sym).isSome = true then .raised .malformedTable []
    else if clashes s.ct e.code = true then .raised .malformedTable []
    else if s.ncode = s.par.nSym then .raised .tableFull []
    else .done { s with ct := s.ct ++ [e], stage := none } []

/-- LCOM (R120). -/
def execLcom (s : State) : Host.Outcome State Fault Refusal :=
  .next (runCommand .lcom lcomBody s)

/-- The body of LEND (R121). -/
def lendBody (s : State) : BodyResult :=
  if s.stage.isSome = true then .raised .malformedTable []
  else if s.ncode = 0 then .raised .malformedTable []
  else .done { s with dpre := [], phase := .codes } []

/-- LEND (R121). -/
def execLend (s : State) : Host.Outcome State Fault Refusal :=
  .next (runCommand .lend lendBody s)

end Sys2Proof.Machine
end

