-- ==== Sys2Proof/Machine/TreeBuilder.lean ====
section
/-!
DEFINITION. The tree builder (42_tree.md): BLD. The two `choose` of R106 are draws (R107): the builder takes
them from a function `draw`, and BLD gives it `Config.tieDraw`, which has no value (log entry 3).
-/

namespace Sys2Proof.Machine

/-- A node's frequency (R20). -/
def Node.freq : Node → Nat
  | .leaf _ f => f
  | .internal _ _ f => f

/-- `NODE[x].freq`. -/
def freqAt (nodes : List Node) (x : Nat) : Nat := (nodes[x]?.map Node.freq).getD 0

/-- The members of `live` of minimal frequency, in index order when `live` is (R106). -/
def minimals (nodes : List Node) (live : List Nat) : List Nat :=
  live.filter fun x => live.all fun y => decide (freqAt nodes x ≤ freqAt nodes y)

/-- `choose` (R12): the draw `r` picks one member; a single member needs no draw. -/
def pick (r : Nat) : List Nat → Nat
  | [] => 0
  | [x] => x
  | x :: y :: rest => (x :: y :: rest).getD (r % (x :: y :: rest).length) x

/-- One extraction (R106): a minimal node of `live`. -/
def extract (r : Nat) (nodes : List Node) (live : List Nat) : Nat := pick r (minimals nodes live)

/-- The merge loop of R106, at most `fuel` merges; `d` numbers the draws. `live` is the priority collection
A, the new node's index is the arena's length. -/
def mergeLoop (draw : Nat → Nat) : Nat → Nat → List Node → List Nat → List Node × List Nat
  | 0, _, nodes, live => (nodes, live)
  | fuel + 1, d, nodes, live =>
    match live with
    | [] => (nodes, live)
    | [_] => (nodes, live)
    | _ :: _ :: _ =>
      let a := extract (draw d) nodes live
      let b := extract (draw (d + 1)) nodes (live.erase a)
      mergeLoop draw fuel (d + 2)
        (nodes ++ [.internal a b (freqAt nodes a + freqAt nodes b)])
        ((live.erase a).erase b ++ [nodes.length])

/-- The leaf of a slot of FT (R106). -/
def leafOf (e : FreqEntry) : Node := .leaf e.sym e.cnt

/-- BuildTree (R106), its draws numbered from `d`. -/
def buildTree (draw : Nat → Nat) (d : Nat) (ft : List FreqEntry) : HTree :=
  let r := mergeLoop draw ft.length d (ft.map leafOf) (List.range ft.length)
  { nodes := r.1, root := r.2.headD 0 }

/-- How many draws BuildTree takes: two a merge. -/
def drawsOf (ft : List FreqEntry) : Nat := 2 * (ft.length - 1)

/-- The body of BLD (R105), for a source of draws. -/
def bldBody (draw : Nat → Nat) (s : State) : BodyResult :=
  if s.nfreq = 0 then .raised .emptyInput []
  else
    .done { s with
      tree := some (buildTree draw s.draws s.ft), draws := s.draws + drawsOf s.ft, phase := .tree } []

/-- BLD (R105). -/
def execBld (s : State) : Host.Outcome State Fault Refusal :=
  .next (runCommand .bld (bldBody Config.tieDraw) s)

end Sys2Proof.Machine
end

