-- ==== Sys2Proof/Machine/Dispatch.lean ====
section
/-!
DEFINITION. The dispatch: one arm per command, one direct call of its meaning. `exec i s` is the EXECUTE step
(40_common.md R89) of the command `i` in the state `s` whose CMDQ it has already left.
-/

namespace Sys2Proof.Machine

def exec (i : Instr) (s : State) : Host.Outcome State Fault Refusal :=
  match i with
  | .clr => Sys2Proof.Machine.execClr s
  | .cnt sym => Sys2Proof.Machine.execCnt sym s
  | .bld => Sys2Proof.Machine.execBld s
  | .gen => Sys2Proof.Machine.execGen s
  | .enc sym => Sys2Proof.Machine.execEnc sym s
  | .dbit bits => Sys2Proof.Machine.execDbit bits s
  | .dend => Sys2Proof.Machine.execDend s
  | .lsym sym => Sys2Proof.Machine.execLsym sym s
  | .lbit bits => Sys2Proof.Machine.execLbit bits s
  | .lcom => Sys2Proof.Machine.execLcom s
  | .lend => Sys2Proof.Machine.execLend s
  | .dump => Sys2Proof.Machine.execDump s
  | .qfreq sym => Sys2Proof.Machine.execQfreq sym s
  | .sync tag => Sys2Proof.Machine.execSync tag s

end Sys2Proof.Machine
end

