-- ==== Sys2Proof/Machine/Window.lean ====
section
/-!
DEFINITION. The register window (10_state.md R30 to R40) and the HOST's accesses to it (20_memory.md R45 to R53).
-/

namespace Sys2Proof.Machine

/-- A write of CMD (R31): queue the word, or drop it with OVF and CMD_OVERFLOW (R140). -/
def writeCmd (v : Word) (s : State) : State :=
  if s.cmdq.length < s.par.cmdqDepth then { s with cmdq := s.cmdq ++ [v] }
  else if s.phase = .error then { s with ovf := true }
  else { s with ovf := true, phase := .error, errcode := .cmdOverflow, errop := opcodeByte v }

/-- A write of CTRL (R39): bit 0 is SRST. -/
def writeCtrl (v : Word) (s : State) : State :=
  if v.getLsbD 0 = true then resetBlock s else s

/-- A write of the register at a window offset; those of read-only and reserved registers are ignored
(R32 to R40). -/
def writeReg (off : Nat) (v : Word) (s : State) : State :=
  if off = 0x00 then writeCmd v s
  else if off = 0x20 then writeCtrl v s
  else s

/-- What a read of RSP returns (R32). -/
def rspValue (s : State) : Word := s.rspq.headD 0x00000000#32

/-- What a read of the register at a window offset returns; CMD, CTRL and reserved registers read 0. -/
def readValue (off : Nat) (s : State) : Word :=
  if off = 0x04 then rspValue s
  else if off = 0x08 then statusWord s
  else if off = 0x0C then errinfoWord s
  else if off = 0x10 then countsWord s
  else if off = 0x14 then totalWord s
  else if off = 0x18 then cfg0Word s.par
  else if off = 0x1C then cfg1Word s.par
  else 0x00000000#32

/-- The state after a read of the register at a window offset: only RSP loses its head (R32, R53), and the
HOST has the data. -/
def readReg (off : Nat) (s : State) : State :=
  { s with
    rspq := if off = 0x04 then s.rspq.tail else s.rspq
    busData := some (readValue off s) }

/-- The window offset of a bus address, if it lies in the window (R46). -/
def windowOffset (addr : Nat) : Option Nat :=
  if Config.hufBase ≤ addr ∧ addr < Config.hufBase + 64 then some (addr - Config.hufBase) else none

/-- The window offset of an access the window admits (R48), or the fault of one it does not (R49, log entry 6). -/
def admitAccess (addr : Nat) (width : Width) : Except Fault Nat :=
  match windowOffset addr with
  | none => .error .outsideWindow
  | some off => if width = .word ∧ off % 4 = 0 then .ok off else .error .busError

/-- A HOST read, `MemRead` (R48). -/
def hostRead (addr : Nat) (width : Width) (s : State) : Host.Outcome State Fault Refusal :=
  match admitAccess addr width with
  | .ok off => .next (readReg off s)
  | .error f => .fault f

/-- A HOST write, `MemWrite` (R48). -/
def hostWrite (addr : Nat) (width : Width) (data : Word) (s : State) :
    Host.Outcome State Fault Refusal :=
  match admitAccess addr width with
  | .ok off => .next (writeReg off data s)
  | .error f => .fault f

end Sys2Proof.Machine
end

