-- ==== Sys2Proof/Machine/Execute.lean ====
section
/-!
DEFINITION. The CORE's two steps EXECUTE and DELIVER (40_common.md R89, R90) and the taking of one move of
HOST, CORE or platform (00_scope.md R8).
-/

namespace Sys2Proof.Machine

/-- EXECUTE (R89), when PEND is empty and RSPQ is not full: the head of CMDQ commits. With CMDQ empty it is not enabled and the
block keeps all state (R149). -/
def execute (s : State) : Host.Outcome State Fault Refusal :=
  match s.cmdq with
  | [] => .next s
  | w :: rest =>
    match decode w with
    | .ok i => exec i { s with cmdq := rest }
    | .error _ => .next (illegalCommand w { s with cmdq := rest })

/-- DELIVER (R90) of the head `v` of PEND, when RSPQ has room. -/
def deliver (v : Word) (rest : List Word) (s : State) : State :=
  { s with rspq := s.rspq ++ [v], pend := rest }

/-- The CORE's turn (R8). With RSPQ full neither DELIVER nor EXECUTE is enabled and the block keeps all state (R27,
R157; that this holds with PEND empty too: log entry 19). Else DELIVER when PEND has a word, and EXECUTE when it
has none. -/
def coreStep (s : State) : Host.Outcome State Fault Refusal :=
  if s.rspq.length < s.par.rspqDepth then
    match s.pend with
    | [] => execute s
    | v :: rest => .next (deliver v rest s)
  else .next s

/-- One move (R8, R150), already taken from `env`. -/
def takeMove (m : Move) (s : State) : Host.Outcome State Fault Refusal :=
  match m with
  | .core => coreStep s
  | .read addr width => hostRead addr width s
  | .write addr width data => hostWrite addr width data s
  | .rst => .next (resetBlock s)

/-- The next move, and the state without it: the CORE's turn when no move is left (log entry 4). -/
def nextMove (s : State) : Move × State :=
  match s.env with
  | [] => (.core, s)
  | m :: rest => (m, { s with env := rest })

/-- `s` with the word `w` at the head of CMDQ, nothing pending, room in RSPQ and the CORE's turn next, so that the
next step is EXECUTE of `w` (log entry 12). -/
def placeWord (w : Word) (s : State) : State :=
  { s with
    cmdq := w :: s.cmdq.tail
    pend := []
    rspq := if s.rspq.length < s.par.rspqDepth then s.rspq else []
    env := match s.env with
      | [] => []
      | .core :: rest => .core :: rest
      | m :: rest => .core :: m :: rest }

end Sys2Proof.Machine
end

