-- ==== Sys2Proof/Machine/Step.lean ====
section
/-!
DEFINITION. One step of the model: the next move of HOST, CORE or platform (00_scope.md R8).
-/

namespace Sys2Proof.Machine

/-- One atomic step (R8). -/
def step (s : State) : Host.Outcome State Fault Refusal := takeMove (nextMove s).1 (nextMove s).2

/-- `s` with the command word whose low `nbits` bits are those of `w` where the next step takes its command:
at the head of CMDQ (R16, log entry 12). -/
def State.withFetchWord (s : State) (nbits w : Nat) : State :=
  placeWord (BitVec.ofNat 32 (w % 2 ^ nbits)) s

end Sys2Proof.Machine
end

