-- ==== Sys2Proof/Safety.lean ====
section
/-!
DEFINITION. The vocabulary of the claims: the state invariants of 10_state.md R18 to R28 and R44, the legal
words of 40_common.md R92, BuildTree as a relation (42_tree.md R106), paths and codes (43_codegen.md R112),
the decoding of a bit string (46_decode.md R123, R124), and runs of commands.
-/

namespace Sys2Proof.Safety

open Sys2Proof.Machine

/-! ## Words -/

/-- The opcodes of form S (R67). -/
def formS : List Byte := [0x02#8, 0x05#8, 0x08#8, 0x0D#8]

/-- The opcodes of form B (R68). -/
def formB : List Byte := [0x06#8, 0x09#8]

/-- The opcodes of form T (R69). -/
def formT : List Byte := [0x0E#8]

/-- The opcodes of form Z (R70). -/
def formZ : List Byte := [0x01#8, 0x03#8, 0x04#8, 0x07#8, 0x0A#8, 0x0B#8, 0x0C#8]

/-- The words that are not ILLEGAL (R92). -/
def LegalWord (w : Word) : Prop :=
  (w.extractLsb' 24 8 ∈ formS ∧ w.extractLsb' 21 3 = 0#3) ∨
  (w.extractLsb' 24 8 ∈ formB ∧ w.extractLsb' 21 3 = 0#3 ∧
    1 ≤ (w.extractLsb' 16 5).toNat ∧ (w.extractLsb' 16 5).toNat ≤ 16 ∧
    ∀ k, k + (w.extractLsb' 16 5).toNat < 16 → w.getLsbD k = false) ∨
  (w.extractLsb' 24 8 ∈ formT ∧ w.extractLsb' 16 8 = 0#8) ∨
  (w.extractLsb' 24 8 ∈ formZ ∧ w.extractLsb' 0 24 = 0#24)

/-- The bit string of a BITS word or of a form B operand (R51, R71, R75). -/
def bitsOf (w : Word) : Bits := bitstr w (w.extractLsb' 16 5).toNat

/-! ## Steps -/

/-- The next step is the CORE's, and `rest` are the moves after it. -/
def CoreTurn (s : State) (rest : List Move) : Prop :=
  (s.env = [] ∧ rest = []) ∨ s.env = .core :: rest

/-- The next step is EXECUTE of the word `w`; `u` is the state without that word and without the move. EXECUTE
needs PEND empty (R89) and room in RSPQ (R27, R157). -/
def Executes (s : State) (w : Word) (u : State) : Prop :=
  ∃ q rest, CoreTurn s rest ∧ s.rspq.length < s.par.rspqDepth ∧ s.pend = [] ∧ s.cmdq = w :: q ∧
    u = { s with cmdq := q, env := rest }

/-- The window admits the access (R48). -/
def AccessOk (addr : Nat) (width : Width) : Prop :=
  ∃ off, off < 64 ∧ off % 4 = 0 ∧ addr = Config.hufBase + off ∧ width = .word

/-- The next step is the HOST's read of the register at offset `off`; `u` is the state without the move. -/
def Reads (s : State) (off : Nat) (u : State) : Prop :=
  ∃ rest, s.env = .read (Config.hufBase + off) .word :: rest ∧ u = { s with env := rest }

/-- The next step is the HOST's write of `v` to the register at offset `off`; `u` is the state without the
move. -/
def Writes (s : State) (off : Nat) (v : Word) (u : State) : Prop :=
  ∃ rest, s.env = .write (Config.hufBase + off) .word v :: rest ∧ u = { s with env := rest }

/-- The next step is a reset (R150), hard or soft; `u` is the state without the move. -/
def Resets (s : State) (u : State) : Prop :=
  (∃ rest, s.env = .rst :: rest ∧ u = { s with env := rest }) ∨
  (∃ v, v.getLsbD 0 = true ∧ Writes s 0x20 v u)

/-- Commands taken one after another, each from the state before it; their responses in order. -/
def runAll : List Instr → State → Option (State × List Word)
  | [], s => some (s, [])
  | i :: is, s =>
    match exec i s with
    | .next t => (runAll is t).map fun r => (r.1, t.pend ++ r.2)
    | .fault _ => none
    | .refused _ => none

/-! ## Tables -/

/-- No member is a beginning of another member (R94); so no two are equal. -/
def PrefixFree (codes : List Bits) : Prop := codes.Pairwise fun c d => ¬ c <+: d ∧ ¬ d <+: c

/-- R18 and R19. -/
structure FreqWf (s : State) : Prop where
  keys_unique : (s.ft.map FreqEntry.sym).Nodup
  counts_positive : ∀ e ∈ s.ft, 1 ≤ e.cnt
  capacity : s.ft.length ≤ s.par.nSym
  total_sum : s.total = (s.ft.map FreqEntry.cnt).sum
  total_bound : s.total < 2 ^ s.par.wCnt

/-- R22. -/
structure TableWf (p : Params) (ct : List CodeEntry) : Prop where
  keys_unique : (ct.map CodeEntry.sym).Nodup
  codes_nonempty : ∀ e ∈ ct, e.code ≠ []
  codes_bounded : ∀ e ∈ ct, e.code.length ≤ p.maxCodeLen
  codes_prefixFree : PrefixFree (ct.map CodeEntry.code)
  capacity : ct.length ≤ p.nSym

/-- R24. -/
def DprefixWf (s : State) : Prop :=
  s.dpre = [] ∨ ∃ e ∈ s.ct, s.dpre <+: e.code ∧ s.dpre ≠ e.code

/-- R23: the staged code's bound; and an entry is open only while loading, or kept by an error (R136). -/
def StageWf (s : State) : Prop :=
  ∀ e, s.stage = some e →
    e.code.length ≤ s.par.maxCodeLen ∧ (s.phase = .loading ∨ s.phase = .error)

/-- The children of a node. -/
def childrenOf : Node → List Nat
  | .leaf _ _ => []
  | .internal l r _ => [l, r]

/-- The children of the internal nodes of the arena, in the arena's order. -/
def children (nodes : List Node) : List Nat := nodes.flatMap childrenOf

/-- R20 and R108: the tree of a frequency table. -/
structure TreeWf (ft : List FreqEntry) (t : HTree) : Prop where
  node_count : t.nodes.length + 1 = 2 * ft.length
  leaves : ∀ (k : Nat) (e : FreqEntry), ft[k]? = some e → t.nodes[k]? = some (.leaf e.sym e.cnt)
  internals : ∀ (k : Nat) (n : Node), t.nodes[k]? = some n → ft.length ≤ k →
    ∃ l r, n = .internal l r (freqAt t.nodes l + freqAt t.nodes r) ∧ l < k ∧ r < k ∧
      freqAt t.nodes l ≤ freqAt t.nodes r
  strict : (t.root :: children t.nodes).Perm (List.range t.nodes.length)
  root_freq : freqAt t.nodes t.root = (ft.map FreqEntry.cnt).sum

/-- Items 1 to 5 of R44, and what keeps them: the tree and the staging entry of each phase. -/
def PhaseWf (s : State) : Prop :=
  match s.phase with
  | .idle => s.ft = [] ∧ s.ct = [] ∧ s.total = 0 ∧ s.stage = none ∧ s.tree = none
  | .counting => s.ft ≠ [] ∧ s.ct = [] ∧ s.tree = none
  | .tree => s.ft ≠ [] ∧ s.ct = [] ∧ ∃ t, s.tree = some t ∧ TreeWf s.ft t
  | .codes =>
    s.ct ≠ [] ∧ s.tree = none ∧ s.stage = none ∧
      (s.ct.map CodeEntry.sym = s.ft.map FreqEntry.sym ∨ s.ft = [])
  | .loading => s.ft = [] ∧ s.total = 0 ∧ s.tree = none ∧ (s.stage = none → s.ct ≠ [])
  | .error => True

/-- Item 6 of R44. -/
def ErrorWf (s : State) : Prop :=
  (s.phase ≠ .error → s.errcode = .noError ∧ s.errop = 0#8 ∧ s.ovf = false) ∧
  (s.phase = .error → s.errcode ≠ .noError)

/-- Item 7 of R44. -/
def QueuesWf (s : State) : Prop :=
  s.cmdq.length ≤ s.par.cmdqDepth ∧ s.rspq.length ≤ s.par.rspqDepth

/-- A well-formed state (R44, with the invariants of R18 to R28 it gathers). -/
structure Inv (s : State) : Prop where
  params : s.par.Wf
  freq : FreqWf s
  table : TableWf s.par s.ct
  dprefix : DprefixWf s
  stage : StageWf s
  phase : PhaseWf s
  errors : ErrorWf s
  queues : QueuesWf s

/-! ## The tree builder as a relation (R106) -/

/-- `x` is a member of `live` of minimal frequency. -/
def MinimalIn (nodes : List Node) (live : List Nat) (x : Nat) : Prop :=
  x ∈ live ∧ ∀ y ∈ live, freqAt nodes x ≤ freqAt nodes y

/-- The loop of R106 can go from the arena `nodes` and the collection `live` to the tree `t`. -/
inductive Merges : List Node → List Nat → HTree → Prop where
  | root (nodes : List Node) (x : Nat) : Merges nodes [x] ⟨nodes, x⟩
  | merge (nodes : List Node) (live : List Nat) (a b : Nat) (t : HTree)
      (first : MinimalIn nodes live a) (second : MinimalIn nodes (live.erase a) b)
      (rest : Merges (nodes ++ [.internal a b (freqAt nodes a + freqAt nodes b)])
        ((live.erase a).erase b ++ [nodes.length]) t) : Merges nodes live t

/-- BuildTree (R106) may return `t` for the frequency table `ft`. -/
def Built (ft : List FreqEntry) (t : HTree) : Prop :=
  Merges (ft.map fun e => .leaf e.sym e.cnt) (List.range ft.length) t

/-! ## Paths and codes (R112) -/

/-- The edges `c` lead from node `x` down to the leaf `i`: 0 to a left child, 1 to a right child. -/
inductive PathTo (nodes : List Node) (i : Nat) : Nat → Bits → Prop where
  | here (sym : Symbol) (f : Nat) (h : nodes[i]? = some (.leaf sym f)) : PathTo nodes i i []
  | left (x l r f : Nat) (c : Bits) (h : nodes[x]? = some (.internal l r f))
      (rest : PathTo nodes i l c) : PathTo nodes i x (false :: c)
  | right (x l r f : Nat) (c : Bits) (h : nodes[x]? = some (.internal l r f))
      (rest : PathTo nodes i r c) : PathTo nodes i x (true :: c)

/-- `c` is the code of leaf `i` (R112, R113). -/
def IsCode (t : HTree) (i : Nat) (c : Bits) : Prop :=
  if t.nodes.length = 1 then c = [false] else PathTo t.nodes i t.root c

/-- The sum over the slots of count times code length (R110). -/
def cost (ft : List FreqEntry) (codes : List Bits) : Nat :=
  (List.zipWith (fun e c => e.cnt * c.length) ft codes).sum

/-! ## Decoding (R123, R124) -/

/-- From the pending bits `d`, the bits given decode to the symbols, and leave the pending bits of the last
argument. -/
inductive Decodes (ct : List CodeEntry) : Bits → Bits → List Symbol → Bits → Prop where
  | done (d : Bits) : Decodes ct d [] [] d
  | emit (d : Bits) (b : Bool) (bs : Bits) (e : CodeEntry) (syms : List Symbol) (d' : Bits)
      (mem : e ∈ ct) (code : e.code = d ++ [b]) (rest : Decodes ct [] bs syms d') :
      Decodes ct d (b :: bs) (e.sym :: syms) d'
  | keep (d : Bits) (b : Bool) (bs : Bits) (syms : List Symbol) (d' : Bits)
      (noCode : ∀ e ∈ ct, e.code ≠ d ++ [b])
      (inside : ∃ e ∈ ct, (d ++ [b]) <+: e.code ∧ d ++ [b] ≠ e.code)
      (rest : Decodes ct (d ++ [b]) bs syms d') : Decodes ct d (b :: bs) syms d'

/-- No code of `ct` starts with `p` (R124's last line). -/
def DeadEnd (ct : List CodeEntry) (p : Bits) : Prop := ∀ e ∈ ct, ¬ p <+: e.code

/-! ## Phases and errors -/

/-- The phases of a command marked `-` in the table of R91. -/
def refusedPhases : Instr → List Phase
  | .clr => []
  | .cnt _ => [.tree, .codes, .loading]
  | .bld => [.tree, .codes, .loading]
  | .gen => [.idle, .counting, .codes, .loading]
  | .enc _ => [.idle, .counting, .tree, .loading]
  | .dbit _ => [.idle, .counting, .tree, .loading]
  | .dend => [.idle, .counting, .tree, .loading]
  | .lsym _ => [.counting, .tree, .codes]
  | .lbit _ => [.idle, .counting, .tree, .codes]
  | .lcom => [.idle, .counting, .tree, .codes]
  | .lend => [.idle, .counting, .tree, .codes]
  | .dump => [.idle, .counting, .tree, .loading]
  | .qfreq _ => []
  | .sync _ => []

/-- The errors a legal command word can raise, by the "raised by" column of R133. -/
def errorsOf : Instr → List ErrCode
  | .clr => []
  | .cnt _ => [.phaseError, .illegalSymbol, .countOverflow, .tableFull]
  | .bld => [.phaseError, .emptyInput]
  | .gen => [.phaseError, .codeTooLong]
  | .enc _ => [.phaseError, .illegalSymbol, .missingSymbol]
  | .dbit _ => [.phaseError, .unmatchedBits]
  | .dend => [.phaseError, .unmatchedBits]
  | .lsym _ => [.phaseError, .illegalSymbol, .malformedTable]
  | .lbit _ => [.phaseError, .malformedTable, .codeTooLong]
  | .lcom => [.phaseError, .malformedTable, .tableFull]
  | .lend => [.phaseError, .malformedTable]
  | .dump => [.phaseError]
  | .qfreq _ => [.illegalSymbol]
  | .sync _ => []

/-- Check 2 of R134: a word of the command's opcode that is ILLEGAL raises ILLEGAL_COMMAND, and is discarded in
phase ERROR (R89, R137). -/
def IllegalOperands (i : Instr) : Prop :=
  ∀ (s u : State) (w : Word), Executes s w u → w.extractLsb' 24 8 = opcodeOf i → ¬ LegalWord w →
    (s.phase ≠ .error → step s = .next (raise (opcodeOf i) .illegalCommand [] u)) ∧
    (s.phase = .error → step s = .next u)

/-- The checks every command but CLR and SYNC goes through before its own (R89, R91, R134), in their order, with
what each does: an illegal word of the command's opcode raises ILLEGAL_COMMAND; in phase ERROR the command is
discarded; in a phase that does not admit it PHASE_ERROR is raised; in any other phase a symbol that is no scalar
value raises ILLEGAL_SYMBOL. -/
def CommonChecks (i : Instr) : Prop :=
  IllegalOperands i ∧
  ∀ s : State,
    (s.phase = .error → exec i s = .next { s with pend := [] }) ∧
    (s.phase ∈ refusedPhases i → exec i s = .next (raise (opcodeOf i) .phaseError [] s)) ∧
    (∀ sym, symbolOf i = some sym → s.phase ≠ .error → s.phase ∉ refusedPhases i →
      isScalar sym = false → exec i s = .next (raise (opcodeOf i) .illegalSymbol [] s))

/-- The transition that a successful command of R91 makes; "every other successful command leaves PHASE
unchanged". -/
def SuccessStep (i : Instr) (p q : Phase) : Prop :=
  match i with
  | .clr => q = .idle
  | .cnt _ => (p = .idle ∨ p = .counting) ∧ q = .counting
  | .bld => p = .counting ∧ q = .tree
  | .gen => p = .tree ∧ q = .codes
  | .enc _ => q = p
  | .dbit _ => q = p
  | .dend => q = p
  | .lsym _ => (p = .idle ∨ p = .loading) ∧ q = .loading
  | .lbit _ => q = p
  | .lcom => q = p
  | .lend => p = .loading ∧ q = .codes
  | .dump => q = p
  | .qfreq _ => q = p
  | .sync _ => q = p

/-- The transitions of R91: a command succeeds; or, if it is neither CLR nor SYNC, it raises an error and ends in
phase ERROR, or is discarded there. -/
def PhaseStep (i : Instr) (p q : Phase) : Prop :=
  SuccessStep i p q ∨ (i ≠ .clr ∧ (∀ tag, i ≠ .sync tag) ∧ q = .error)

/-- The distinct symbols of a text in order of first occurrence (R103). -/
def distinct : List Symbol → List Symbol
  | [] => []
  | a :: as => a :: (distinct as).filter fun b => decide (b ≠ a)

/-- FT after counting a text (R103). -/
def counted (text : List Symbol) : List FreqEntry :=
  (distinct text).map fun a => ⟨a, text.count a⟩

/-- `CNTS` (R86). -/
def cntsOf (text : List Symbol) : List Instr := text.map .cnt

/-- `ENCS` (R86). -/
def encsOf (text : List Symbol) : List Instr := text.map .enc

/-- A bit string cut into the operands of several DBIT or LBIT commands (R86): each piece 1 to 16 bits. -/
def Pieces (x : Bits) (ps : List Bits) : Prop :=
  ps.flatten = x ∧ ∀ p ∈ ps, 1 ≤ p.length ∧ p.length ≤ 16

/-- `LOAD` (R86) of one entry, its code cut into `ps`. -/
def loadOf (sym : Symbol) (ps : List Bits) : List Instr :=
  .lsym sym :: (ps.map .lbit ++ [.lcom])

end Sys2Proof.Safety
end

