-- ==== Sys2Proof/Certificates/Slice0/Obligations.lean ====
section
/-!
DEFINITION. The statements for the provers, each with the rule of spec/ it formalises. `Executes`, `Reads`,
`Writes` and `Resets` say which agent's step comes next; how the moves of the agents stand in the state, and how
the HOST gets its data, is the model's own (log entries 4 and 5).
-/

open Sys2Proof Sys2Proof.Machine Sys2Proof.Safety

/-! ## Encoding -/

/-- R64 to R72, R92: no bit of an encoding is dropped, for every command and every operand it admits. -/
def Obligations.EncodeThenDecodeGivesTheCommand : Prop :=
  ∀ i : Instr, i.wf = true → decode (encode i) = .ok i

/-- R65, R71: a word has one meaning, so what it decodes to is well formed and encodes back to it. -/
def Obligations.DecodedCommandEncodesBack : Prop :=
  ∀ (w : Word) (i : Instr), decode w = .ok i → i.wf = true ∧ encode i = w

/-- R92: Decode is total; it gives the command of the opcode for a legal word and ILLEGAL for every other. -/
def Obligations.DecodeAcceptsExactlyTheLegalWords : Prop :=
  ∀ w : Word,
    (LegalWord w → ∃ i, decode w = .ok i ∧ opcodeOf i = w.extractLsb' 24 8) ∧
    (¬ LegalWord w → ∃ e, decode w = .error e)

/-- The words of the spec's own examples (R101 to R130), one per command, and three illegal ones. -/
def Obligations.ExampleWordsDecode : Prop :=
  decode 0x01000000#32 = .ok .clr ∧
  decode 0x02000061#32 = .ok (.cnt 0x61#21) ∧
  decode 0x03000000#32 = .ok .bld ∧
  decode 0x04000000#32 = .ok .gen ∧
  decode 0x05000062#32 = .ok (.enc 0x62#21) ∧
  decode 0x06055800#32 = .ok (.dbit [false, true, false, true, true]) ∧
  decode 0x07000000#32 = .ok .dend ∧
  decode 0x08000078#32 = .ok (.lsym 0x78#21) ∧
  decode 0x09028000#32 = .ok (.lbit [true, false]) ∧
  decode 0x0A000000#32 = .ok .lcom ∧
  decode 0x0B000000#32 = .ok .lend ∧
  decode 0x0C000000#32 = .ok .dump ∧
  decode 0x0D000061#32 = .ok (.qfreq 0x61#21) ∧
  decode 0x0E000001#32 = .ok (.sync 0x0001#16) ∧
  decode 0x00000000#32 = .error .reservedOpcode ∧
  decode 0x06110000#32 = .error .badCount ∧
  decode 0x06018001#32 = .error .unusedBits

/-! ## The register window -/

/-- R31 (and R140): a write of CMD queues the word, or drops it and enters phase ERROR; a read returns 0. -/
def Obligations.CmdWriteQueuesOrDropsTheWord : Prop :=
  ∀ (s u : State) (v : Word),
    (Writes s 0x00 v u →
      (s.cmdq.length < s.par.cmdqDepth → step s = .next { u with cmdq := s.cmdq ++ [v] }) ∧
      (¬ s.cmdq.length < s.par.cmdqDepth → s.phase ≠ .error →
        step s = .next { u with
          ovf := true, phase := .error, errcode := .cmdOverflow, errop := v.extractLsb' 24 8 }) ∧
      (¬ s.cmdq.length < s.par.cmdqDepth → s.phase = .error → step s = .next { u with ovf := true })) ∧
    (Reads s 0x00 u → step s = .next { u with busData := some 0x00000000#32 })

/-- R32: a read of RSP takes the head of RSPQ, or returns 0 with no effect; a write is ignored. -/
def Obligations.RspReadTakesTheOldestResponse : Prop :=
  ∀ s u : State,
    (Reads s 0x04 u →
      (∀ w q, s.rspq = w :: q → step s = .next { u with rspq := q, busData := some w }) ∧
      (s.rspq = [] → step s = .next { u with busData := some 0x00000000#32 })) ∧
    (∀ v, Writes s 0x04 v u → step s = .next u)

/-- R33: every field of STATUS, computed from the state at the time of the read. -/
def Obligations.StatusShowsTheState : Prop :=
  ∀ s u : State,
    (Reads s 0x08 u → ∃ w : Word, step s = .next { u with busData := some w } ∧
      (s.phase = .idle → w.extractLsb' 0 3 = 0#3) ∧
      (s.phase = .counting → w.extractLsb' 0 3 = 1#3) ∧
      (s.phase = .tree → w.extractLsb' 0 3 = 2#3) ∧
      (s.phase = .codes → w.extractLsb' 0 3 = 3#3) ∧
      (s.phase = .loading → w.extractLsb' 0 3 = 4#3) ∧
      (s.phase = .error → w.extractLsb' 0 3 = 7#3) ∧
      (w.getLsbD 3 = true ↔ s.cmdq ≠ [] ∨ s.pend ≠ []) ∧
      (w.getLsbD 4 = true ↔ s.phase = .error) ∧
      w.getLsbD 5 = s.ovf ∧
      (w.getLsbD 6 = true ↔ s.dpre ≠ []) ∧
      (w.getLsbD 7 = true ↔ s.stage ≠ none) ∧
      w.extractLsb' 8 8 = BitVec.ofNat 8 (s.par.cmdqDepth - s.cmdq.length) ∧
      w.extractLsb' 16 8 = BitVec.ofNat 8 s.rspq.length ∧
      w.extractLsb' 24 8 = 0x00#8) ∧
    (∀ v, Writes s 0x08 v u → step s = .next u)

/-- R34, R35, R36: ERRINFO, COUNTS and TOTAL; writes are ignored. -/
def Obligations.ErrinfoCountsAndTotalShowTheState : Prop :=
  ∀ s u : State,
    (Reads s 0x0C u → ∃ w : Word, step s = .next { u with busData := some w } ∧
      w.extractLsb' 0 4 = errNum s.errcode ∧ w.extractLsb' 4 4 = 0x0#4 ∧
      w.extractLsb' 8 8 = s.errop ∧ w.extractLsb' 16 16 = 0x0000#16) ∧
    (Reads s 0x10 u → ∃ w : Word, step s = .next { u with busData := some w } ∧
      w.extractLsb' 0 16 = BitVec.ofNat 16 s.ft.length ∧
      w.extractLsb' 16 16 = BitVec.ofNat 16 s.ct.length) ∧
    (Reads s 0x14 u → step s = .next { u with busData := some (BitVec.ofNat 32 s.total) }) ∧
    (∀ v off, off = 0x0C ∨ off = 0x10 ∨ off = 0x14 → Writes s off v u → step s = .next u)

/-- R37, R38: CFG0 and CFG1 show the parameters and are constant; writes are ignored. -/
def Obligations.ConfigurationRegistersShowTheParameters : Prop :=
  ∀ s u : State,
    (Reads s 0x18 u → ∃ w : Word, step s = .next { u with busData := some w } ∧
      w.extractLsb' 0 16 = BitVec.ofNat 16 s.par.nSym ∧
      w.extractLsb' 16 16 = BitVec.ofNat 16 s.par.maxCodeLen) ∧
    (Reads s 0x1C u → ∃ w : Word, step s = .next { u with busData := some w } ∧
      w.extractLsb' 0 8 = BitVec.ofNat 8 s.par.wCnt ∧
      w.extractLsb' 8 8 = BitVec.ofNat 8 s.par.cmdqDepth ∧
      w.extractLsb' 16 8 = BitVec.ofNat 8 s.par.rspqDepth ∧
      w.extractLsb' 24 8 = 0x01#8) ∧
    (∀ v off, off = 0x18 ∨ off = 0x1C → Writes s off v u → step s = .next u) ∧
    (∀ t, step s = .next t →
      cfg0Word t.par = cfg0Word s.par ∧ cfg1Word t.par = cfg1Word s.par)

/-- R40: reserved offsets read 0 and ignore writes; reserved fields read 0. -/
def Obligations.ReservedOffsetsAndFieldsReadZero : Prop :=
  ∀ (s u : State) (off : Nat),
    (0x24 ≤ off → off ≤ 0x3C → off % 4 = 0 →
      (Reads s off u → step s = .next { u with busData := some 0x00000000#32 }) ∧
      (∀ v, Writes s off v u → step s = .next u)) ∧
    (Reads s 0x08 u → ∀ t w, step s = .next t → t.busData = some w → w.extractLsb' 24 8 = 0x00#8) ∧
    (Reads s 0x0C u → ∀ t w, step s = .next t → t.busData = some w →
      w.extractLsb' 4 4 = 0x0#4 ∧ w.extractLsb' 16 16 = 0x0000#16)

/-- R53: but for a read of RSP, a write of CMD and a write of CTRL with bit 0 = 1, no admitted access changes
the block; and a read of any register but RSP, made twice in a row, returns the same value. -/
def Obligations.OnlyThreeAccessesHaveASideEffect : Prop :=
  ∀ (s u : State) (off : Nat), off < 64 → off % 4 = 0 →
    (off ≠ 0x04 → Reads s off u → ∃ w, step s = .next { u with busData := some w } ∧
      ∀ u', Reads { u with busData := some w } off u' →
        step { u with busData := some w } = .next { u' with busData := some w }) ∧
    (∀ v, off ≠ 0x00 → (off = 0x20 → v.getLsbD 0 = false) → Writes s off v u → step s = .next u)

/-- R49, R46, R132: a step faults exactly when it is a HOST access the window does not admit, and no step is
refused. That an access outside the window faults is the model's choice (log entry 6). -/
def Obligations.StepFaultsExactlyOnABadHostAccess : Prop :=
  ∀ s : State,
    ((∃ f, step s = .fault f) ↔ ∃ addr width rest,
      (s.env = .read addr width :: rest ∨ ∃ v, s.env = .write addr width v :: rest) ∧
        ¬ AccessOk addr width) ∧
    ∀ r, step s ≠ .refused r

/-- R39, R150, R151: `rst` and a write of CTRL with bit 0 = 1 take every piece of state to its reset value; a
write of CTRL with bit 0 = 0 has no effect, and a read of CTRL returns 0. -/
def Obligations.ResetTakesEveryFieldToItsResetValue : Prop :=
  ∀ s u : State,
    (Resets s u → ∃ t, step s = .next t ∧
      t.phase = .idle ∧ t.ft = [] ∧ t.total = 0 ∧ t.ct = [] ∧ t.tree = none ∧ t.stage = none ∧
      t.dpre = [] ∧ t.errcode = .noError ∧ t.errop = 0x00#8 ∧ t.ovf = false ∧
      t.cmdq = [] ∧ t.pend = [] ∧ t.rspq = [] ∧ t.par = s.par) ∧
    (∀ v, Writes s 0x20 v u → v.getLsbD 0 = false → step s = .next u) ∧
    (Reads s 0x20 u → step s = .next { u with busData := some 0x00000000#32 })

/-- R42: what the registers read after reset, for every choice of parameters, and in the reference
configuration of R6. -/
def Obligations.RegistersReadTheirResetValues : Prop :=
  (∀ p : Params,
    statusWord (State.resetWith p) = 0x0000#16 ++ (BitVec.ofNat 8 p.cmdqDepth ++ 0x00#8) ∧
    errinfoWord (State.resetWith p) = 0x00000000#32 ∧
    countsWord (State.resetWith p) = 0x00000000#32 ∧
    totalWord (State.resetWith p) = 0x00000000#32) ∧
  statusWord State.reset = 0x00001000#32 ∧
  cfg0Word State.reset.par = 0x00FF0100#32 ∧
  cfg1Word State.reset.par = 0x01101020#32

/-! ## The CORE's steps -/

/-- R89: EXECUTE takes the head of CMDQ when PEND is empty and RSPQ has room (R27, R157), and a word that decodes
runs as its command. -/
def Obligations.StepRunsTheDecodedCommand : Prop :=
  ∀ (s u : State) (w : Word) (i : Instr), Executes s w u → decode w = .ok i → step s = exec i u

/-- R73: a reserved opcode, a non-zero reserved bit, a bad count or a non-zero unused bit raises
ILLEGAL_COMMAND, and is discarded in phase ERROR. -/
def Obligations.IllegalWordsRaiseIllegalCommand : Prop :=
  ∀ (s u : State) (w : Word), Executes s w u → ¬ LegalWord w →
    (s.phase ≠ .error → step s = .next { u with
      phase := .error, errcode := .illegalCommand, errop := w.extractLsb' 24 8,
      pend := [0xEE#8 ++ (w.extractLsb' 24 8 ++ 0x0005#16)] }) ∧
    (s.phase = .error → step s = .next u)

/-- R137: in phase ERROR a CLR word clears, a SYNC word is answered with bit 16 = 1, and every other word is
taken and discarded. -/
def Obligations.ErrorPhaseActsOnlyOnClrAndSync : Prop :=
  ∀ (s u : State) (w : Word), Executes s w u → s.phase = .error →
    (w = 0x01000000#32 → step s = .next { u with
      phase := .idle, ft := [], total := 0, tree := none, ct := [], stage := none, dpre := [],
      errcode := .noError, errop := 0x00#8, ovf := false }) ∧
    (w.extractLsb' 24 8 = 0x0E#8 → w.extractLsb' 16 8 = 0x00#8 →
      step s = .next { u with pend := [0x8601#16 ++ w.extractLsb' 0 16] }) ∧
    (w ≠ 0x01000000#32 → ¬ (w.extractLsb' 24 8 = 0x0E#8 ∧ w.extractLsb' 16 8 = 0x00#8) →
      step s = .next u)

/-- R90: DELIVER moves the head of PEND into RSPQ and changes nothing else. R27, R157: with RSPQ full the CORE
holds, whatever stands in PEND and CMDQ (with PEND empty: log entry 19), so no command commits and no word moves
until the HOST reads RSP. With CMDQ and PEND empty it does nothing (R149). That such a turn is a step which changes nothing is the model's
choice (log entry 4). -/
def Obligations.DeliverMovesOneWordOrTheCoreHolds : Prop :=
  ∀ (s : State) (rest : List Move), CoreTurn s rest →
    (∀ v q, s.pend = v :: q → s.rspq.length < s.par.rspqDepth →
      step s = .next { s with rspq := s.rspq ++ [v], pend := q, env := rest }) ∧
    (¬ s.rspq.length < s.par.rspqDepth → step s = .next { s with env := rest }) ∧
    (s.pend = [] → s.cmdq = [] → step s = .next { s with env := rest })

/-- R26, R27, R55: no response word is lost, duplicated or reordered but by reset: a step takes at most the
oldest word, which the HOST reads, and adds at most one command's output, at the end. -/
def Obligations.ResponsesAreNeitherLostNorReordered : Prop :=
  ∀ s t : State, step s = .next t → (∀ u, ¬ Resets s u) →
    ∃ taken added : List Word,
      taken ++ (t.rspq ++ t.pend) = (s.rspq ++ s.pend) ++ added ∧
      (taken ≠ [] → ∃ u w, Reads s 0x04 u ∧ taken = [w] ∧ t.busData = some w) ∧
      (added ≠ [] → ∃ w u, Executes s w u ∧ t.pend = added)

/-- R155, R156: only a CMD write adds to CMDQ, and only an RSP read (or a reset) takes from RSPQ. -/
def Obligations.OnlyTheHostFillsCmdqAndDrainsRspq : Prop :=
  ∀ s t : State, step s = .next t →
    ((∀ v u, ¬ Writes s 0x00 v u) → t.cmdq.length ≤ s.cmdq.length) ∧
    ((∀ u, ¬ Reads s 0x04 u) → (∀ u, ¬ Resets s u) → s.rspq.length ≤ t.rspq.length)

/-! ## Errors -/

/-- R133: the numbers of the error codes. R75 to R81: the fields of the response words. -/
def Obligations.ResponseWordsCarryTheirFields : Prop :=
  (errNum .noError = 0x0#4 ∧ errNum .emptyInput = 0x1#4 ∧ errNum .missingSymbol = 0x2#4 ∧
    errNum .malformedTable = 0x3#4 ∧ errNum .unmatchedBits = 0x4#4 ∧ errNum .illegalCommand = 0x5#4 ∧
    errNum .illegalSymbol = 0x6#4 ∧ errNum .phaseError = 0x7#4 ∧ errNum .tableFull = 0x8#4 ∧
    errNum .countOverflow = 0x9#4 ∧ errNum .codeTooLong = 0xA#4 ∧ errNum .cmdOverflow = 0xB#4) ∧
  (∀ sym : Symbol,
    (symWord sym).extractLsb' 24 8 = 0x82#8 ∧ (symWord sym).extractLsb' 21 3 = 0#3 ∧
    (symWord sym).extractLsb' 0 21 = sym ∧
    (freqWord sym).extractLsb' 24 8 = 0x83#8 ∧ (freqWord sym).extractLsb' 21 3 = 0#3 ∧
    (freqWord sym).extractLsb' 0 21 = sym ∧
    (entryWord sym).extractLsb' 24 8 = 0x84#8 ∧ (entryWord sym).extractLsb' 21 3 = 0#3 ∧
    (entryWord sym).extractLsb' 0 21 = sym) ∧
  (∀ op : Byte, (doneWord op).extractLsb' 24 8 = 0x85#8 ∧ (doneWord op).extractLsb' 16 8 = op ∧
    (doneWord op).extractLsb' 0 16 = 0x0000#16) ∧
  (∀ (e : Bool) (tag : BitVec 16),
    (syncWord e tag).extractLsb' 24 8 = 0x86#8 ∧ (syncWord e tag).extractLsb' 17 7 = 0#7 ∧
    (syncWord e tag).getLsbD 16 = e ∧ (syncWord e tag).extractLsb' 0 16 = tag) ∧
  (∀ (op : Byte) (e : ErrCode),
    (errWord op e).extractLsb' 24 8 = 0xEE#8 ∧ (errWord op e).extractLsb' 16 8 = op ∧
    (errWord op e).extractLsb' 4 12 = 0x000#12 ∧ (errWord op e).extractLsb' 0 4 = errNum e)

/-- R75, R84: Chunks. Every word is a BITS word; there are `ceil(L/16)` of them; all but the last carry 16
bits; and the concatenation of their bit strings is the code. -/
def Obligations.ChunksCarryTheCode : Prop :=
  ∀ c : Bits, c ≠ [] →
    (chunks c).length = (c.length + 15) / 16 ∧
    (chunks c).flatMap bitsOf = c ∧
    (∀ w ∈ chunks c, w.extractLsb' 24 8 = 0x81#8 ∧ w.extractLsb' 21 3 = 0#3 ∧
      1 ≤ (w.extractLsb' 16 5).toNat ∧ (w.extractLsb' 16 5).toNat ≤ 16 ∧
      ∀ k, k + (w.extractLsb' 16 5).toNat < 16 → w.getLsbD k = false) ∧
    (∀ w ∈ (chunks c).dropLast, (w.extractLsb' 16 5).toNat = 16)

/-- R135: the error entry is precise: but for PHASE, ERRCODE and ERROP the state is that before the command;
the ERR word comes last, after the words already pushed, of which only DBIT can have any. The error is one that
R133 lets the command raise. -/
def Obligations.ErrorEntryIsPrecise : Prop :=
  ∀ (i : Instr) (s t : State), exec i s = .next t → s.phase ≠ .error → t.phase = .error →
    ∃ (e : ErrCode) (out : List Word), e ∈ errorsOf i ∧
      t = { s with
        phase := .error, errcode := e, errop := opcodeOf i,
        pend := out ++ [0xEE#8 ++ (opcodeOf i ++ (0x000#12 ++ errNum e))] } ∧
      (out ≠ [] → ∃ b, i = .dbit b)

/-- R91: a command in a phase marked `-` raises PHASE_ERROR, and in no other. -/
def Obligations.CommandsRaisePhaseErrorExactlyOutOfPhase : Prop :=
  ∀ (i : Instr) (s t : State), exec i s = .next t → s.phase ≠ .error →
    ((t.phase = .error ∧ t.errcode = .phaseError) ↔ s.phase ∈ refusedPhases i)

/-- R91: a step changes PHASE only by the transitions of the table. The premise shuts out IDLE with a symbol in
FT, which no run reaches (`StepKeepsStatesWellFormed`). -/
def Obligations.PhaseChangesOnlyAsTheTableSays : Prop :=
  (∀ (i : Instr) (s t : State), PhaseWf s → exec i s = .next t → PhaseStep i s.phase t.phase) ∧
  (∀ s t : State, PhaseWf s → step s = .next t → t.phase ≠ s.phase →
    (∃ w u i, Executes s w u ∧ decode w = .ok i ∧ PhaseStep i s.phase t.phase) ∨
    (∃ w u, Executes s w u ∧ ¬ LegalWord w ∧ t.phase = .error) ∨
    (∃ v u, Writes s 0x00 v u ∧ t.phase = .error) ∨
    (∃ u, Resets s u ∧ t.phase = .idle))

/-- R138: the block leaves phase ERROR only by CLR or a reset, into IDLE with every table empty. -/
def Obligations.ErrorPhaseIsLeftOnlyByClrOrReset : Prop :=
  ∀ s t : State, step s = .next t → s.phase = .error → t.phase ≠ .error →
    ((∃ u, Executes s 0x01000000#32 u) ∨ ∃ u, Resets s u) ∧
    t.phase = .idle ∧ t.ft = [] ∧ t.total = 0 ∧ t.ct = [] ∧ t.tree = none ∧ t.stage = none ∧
    t.dpre = [] ∧ t.errcode = .noError ∧ t.errop = 0x00#8 ∧ t.ovf = false

/-- R139 (and R28, R136): in phase ERROR the first error and all data stay; only an overflowing CMD write still
leaves a mark, OVF. -/
def Obligations.ErrorPhaseKeepsTheFirstError : Prop :=
  ∀ s t : State, step s = .next t → s.phase = .error → t.phase = .error →
    t.errcode = s.errcode ∧ t.errop = s.errop ∧ t.ft = s.ft ∧ t.total = s.total ∧ t.ct = s.ct ∧
    t.tree = s.tree ∧ t.stage = s.stage ∧ t.dpre = s.dpre ∧
    (t.ovf = s.ovf ∨ ∃ v u, Writes s 0x00 v u ∧ ¬ s.cmdq.length < s.par.cmdqDepth ∧ t.ovf = true)

/-! ## The commands -/

/-- R129: CLR, in every phase. -/
def Obligations.ClrClearsDataAndErrorState : Prop :=
  encode .clr = 0x01000000#32 ∧ IllegalOperands .clr ∧
  ∀ s : State, exec .clr s = .next { s with
    phase := .idle, ft := [], total := 0, tree := none, ct := [], stage := none, dpre := [],
    errcode := .noError, errop := 0x00#8, ovf := false, pend := [] }

/-- R101: CNT. Which symbols it refuses is spelled out, as in R101's corner cases and in R13, whose range the spec
takes from general knowledge (log entry 11). -/
def Obligations.CntCountsOneOccurrence : Prop :=
  ∀ sym : Symbol, encode (.cnt sym) = 0x02#8 ++ (0#3 ++ sym) ∧ CommonChecks (.cnt sym) ∧
  (isScalar sym = true ↔ sym.toNat ≤ 0x10FFFF ∧ ¬ (0xD800 ≤ sym.toNat ∧ sym.toNat ≤ 0xDFFF)) ∧
  ∀ s : State, s.phase = .idle ∨ s.phase = .counting → isScalar sym = true →
    (s.total = 2 ^ s.par.wCnt - 1 → exec (.cnt sym) s = .next (raise 0x02#8 .countOverflow [] s)) ∧
    (s.total ≠ 2 ^ s.par.wCnt - 1 → sym ∉ s.ft.map FreqEntry.sym → s.ft.length = s.par.nSym →
      exec (.cnt sym) s = .next (raise 0x02#8 .tableFull [] s)) ∧
    (s.total ≠ 2 ^ s.par.wCnt - 1 → sym ∉ s.ft.map FreqEntry.sym → s.ft.length ≠ s.par.nSym →
      exec (.cnt sym) s = .next { s with
        ft := s.ft ++ [⟨sym, 1⟩], total := s.total + 1, phase := .counting, pend := [] }) ∧
    (∀ before n after, s.total ≠ 2 ^ s.par.wCnt - 1 → s.ft = before ++ ⟨sym, n⟩ :: after →
      sym ∉ before.map FreqEntry.sym →
      exec (.cnt sym) s = .next { s with
        ft := before ++ ⟨sym, n + 1⟩ :: after, total := s.total + 1, phase := .counting, pend := [] })

/-- R102: QFREQ. -/
def Obligations.QfreqReportsTheCount : Prop :=
  ∀ sym : Symbol, encode (.qfreq sym) = 0x0D#8 ++ (0#3 ++ sym) ∧ CommonChecks (.qfreq sym) ∧
  ∀ s : State, s.phase ≠ .error → isScalar sym = true →
    (sym ∉ s.ft.map FreqEntry.sym →
      exec (.qfreq sym) s = .next { s with pend := [0x83#8 ++ (0#3 ++ sym), 0x00000000#32] }) ∧
    (∀ before n after, s.ft = before ++ ⟨sym, n⟩ :: after → sym ∉ before.map FreqEntry.sym →
      exec (.qfreq sym) s = .next { s with pend := [0x83#8 ++ (0#3 ++ sym), BitVec.ofNat 32 n] })

/-- R105: BLD stores a tree that R106 admits; how many draws the model counts for it is the model's own (log
entry 3), so the statement leaves `draws` open. -/
def Obligations.BldBuildsAnAdmissibleTree : Prop :=
  encode .bld = 0x03000000#32 ∧ CommonChecks .bld ∧
  ∀ s : State, s.phase = .idle ∨ s.phase = .counting →
    (s.ft = [] → exec .bld s = .next (raise 0x03#8 .emptyInput [] s)) ∧
    (s.ft ≠ [] → ∃ (t : HTree) (d : Nat), Built s.ft t ∧
      exec .bld s = .next { s with tree := some t, draws := d, phase := .tree, pend := [] })

/-- R111: GEN; what `codeOf` gives is stated by `CodesAreThePathsFromTheRoot`. -/
def Obligations.GenWritesTheCodeTable : Prop :=
  encode .gen = 0x04000000#32 ∧ CommonChecks .gen ∧
  ∀ (s : State) (t : HTree), s.phase = .tree → s.tree = some t →
    ((∃ i < s.ft.length, s.par.maxCodeLen < (codeOf t i).length) →
      exec .gen s = .next (raise 0x04#8 .codeTooLong [] s)) ∧
    ((∀ i < s.ft.length, (codeOf t i).length ≤ s.par.maxCodeLen) →
      exec .gen s = .next { s with
        ct := List.zipWith (fun e i => ⟨e.sym, codeOf t i⟩) s.ft (List.range s.ft.length),
        tree := none, dpre := [], phase := .codes, pend := [] })

/-- R115: DUMP. -/
def Obligations.DumpReadsOutTheCodeTable : Prop :=
  encode .dump = 0x0C000000#32 ∧ CommonChecks .dump ∧
  ∀ s : State, s.phase = .codes →
    exec .dump s = .next { s with
      pend := (s.ct.flatMap fun e => (0x84#8 ++ (0#3 ++ e.sym)) :: chunks e.code) ++
        [0x850C0000#32] }

/-- R116: ENC. -/
def Obligations.EncEmitsTheCode : Prop :=
  ∀ sym : Symbol, encode (.enc sym) = 0x05#8 ++ (0#3 ++ sym) ∧ CommonChecks (.enc sym) ∧
  ∀ s : State, s.phase = .codes → isScalar sym = true →
    (sym ∉ s.ct.map CodeEntry.sym →
      exec (.enc sym) s = .next (raise 0x05#8 .missingSymbol [] s)) ∧
    (∀ before c after, s.ct = before ++ ⟨sym, c⟩ :: after → sym ∉ before.map CodeEntry.sym →
      exec (.enc sym) s = .next { s with pend := chunks c })

/-- R118: LSYM. -/
def Obligations.LsymOpensAnEntry : Prop :=
  ∀ sym : Symbol, encode (.lsym sym) = 0x08#8 ++ (0#3 ++ sym) ∧ CommonChecks (.lsym sym) ∧
  ∀ s : State, isScalar sym = true →
    (s.phase = .loading → s.stage ≠ none →
      exec (.lsym sym) s = .next (raise 0x08#8 .malformedTable [] s)) ∧
    (s.phase = .idle ∨ (s.phase = .loading ∧ s.stage = none) →
      exec (.lsym sym) s = .next { s with
        stage := some ⟨sym, []⟩, phase := .loading, pend := [] })

/-- R119: LBIT. -/
def Obligations.LbitAppendsToTheOpenEntry : Prop :=
  ∀ bits : Bits,
    encode (.lbit bits) = 0x09#8 ++ (0#3 ++ BitVec.ofNat 5 bits.length ++ packBits bits) ∧
    CommonChecks (.lbit bits) ∧
  ∀ s : State, s.phase = .loading →
    (s.stage = none → exec (.lbit bits) s = .next (raise 0x09#8 .malformedTable [] s)) ∧
    (∀ sym c, s.stage = some ⟨sym, c⟩ → s.par.maxCodeLen < c.length + bits.length →
      exec (.lbit bits) s = .next (raise 0x09#8 .codeTooLong [] s)) ∧
    (∀ sym c, s.stage = some ⟨sym, c⟩ → c.length + bits.length ≤ s.par.maxCodeLen →
      exec (.lbit bits) s = .next { s with stage := some ⟨sym, c ++ bits⟩, pend := [] })

/-- R120: LCOM. -/
def Obligations.LcomCommitsTheOpenEntry : Prop :=
  encode .lcom = 0x0A000000#32 ∧ CommonChecks .lcom ∧
  ∀ s : State, s.phase = .loading →
    (s.stage = none → exec .lcom s = .next (raise 0x0A#8 .malformedTable [] s)) ∧
    (∀ e, s.stage = some e →
      (e.code = [] → exec .lcom s = .next (raise 0x0A#8 .malformedTable [] s)) ∧
      (e.code ≠ [] → e.sym ∈ s.ct.map CodeEntry.sym →
        exec .lcom s = .next (raise 0x0A#8 .malformedTable [] s)) ∧
      (e.code ≠ [] → e.sym ∉ s.ct.map CodeEntry.sym →
        (∃ d ∈ s.ct, d.code <+: e.code ∨ e.code <+: d.code) →
        exec .lcom s = .next (raise 0x0A#8 .malformedTable [] s)) ∧
      (e.code ≠ [] → e.sym ∉ s.ct.map CodeEntry.sym →
        (∀ d ∈ s.ct, ¬ d.code <+: e.code ∧ ¬ e.code <+: d.code) → s.ct.length = s.par.nSym →
        exec .lcom s = .next (raise 0x0A#8 .tableFull [] s)) ∧
      (e.code ≠ [] → e.sym ∉ s.ct.map CodeEntry.sym →
        (∀ d ∈ s.ct, ¬ d.code <+: e.code ∧ ¬ e.code <+: d.code) → s.ct.length ≠ s.par.nSym →
        exec .lcom s = .next { s with ct := s.ct ++ [e], stage := none, pend := [] }))

/-- R121: LEND. -/
def Obligations.LendCompletesTheTable : Prop :=
  encode .lend = 0x0B000000#32 ∧ CommonChecks .lend ∧
  ∀ s : State, s.phase = .loading →
    (s.stage ≠ none ∨ s.ct = [] → exec .lend s = .next (raise 0x0B#8 .malformedTable [] s)) ∧
    (s.stage = none → s.ct ≠ [] →
      exec .lend s = .next { s with dpre := [], phase := .codes, pend := [] })

/-- R123, R124: DBIT. The code table is one that R22 admits. -/
def Obligations.DbitDecodesItsBits : Prop :=
  ∀ bits : Bits,
    encode (.dbit bits) = 0x06#8 ++ (0#3 ++ BitVec.ofNat 5 bits.length ++ packBits bits) ∧
    CommonChecks (.dbit bits) ∧
  ∀ s : State, s.phase = .codes → TableWf s.par s.ct →
    (∀ syms d, Decodes s.ct s.dpre bits syms d →
      exec (.dbit bits) s = .next { s with
        dpre := d, pend := syms.map fun sym => 0x82#8 ++ (0#3 ++ sym) }) ∧
    (∀ first b rest syms d, bits = first ++ b :: rest → Decodes s.ct s.dpre first syms d →
      DeadEnd s.ct (d ++ [b]) →
      exec (.dbit bits) s = .next (raise 0x06#8 .unmatchedBits
        (syms.map fun sym => 0x82#8 ++ (0#3 ++ sym)) s))

/-- R125: DEND. -/
def Obligations.DendEndsTheBitString : Prop :=
  encode .dend = 0x07000000#32 ∧ CommonChecks .dend ∧
  ∀ s : State, s.phase = .codes →
    (s.dpre ≠ [] → exec .dend s = .next (raise 0x07#8 .unmatchedBits [] s)) ∧
    (s.dpre = [] → exec .dend s = .next { s with pend := [0x85070000#32] })

/-- R130: SYNC, in every phase. -/
def Obligations.SyncReportsTheErrorPhase : Prop :=
  ∀ tag : BitVec 16, encode (.sync tag) = 0x0E00#16 ++ tag ∧ IllegalOperands (.sync tag) ∧
  ∀ s : State,
    (s.phase ≠ .error → exec (.sync tag) s = .next { s with pend := [0x8600#16 ++ tag] }) ∧
    (s.phase = .error → exec (.sync tag) s = .next { s with pend := [0x8601#16 ++ tag] })

/-! ## Frames -/

/-- R25, R27, R29, R31: no command touches the parameters, the queues or OVF (but for CLR's clearing of OVF);
the model's own fields stay too, but for BLD's count of draws (log entry 3). -/
def Obligations.CommandsLeaveQueuesAndParametersAlone : Prop :=
  ∀ (i : Instr) (s t : State), exec i s = .next t →
    t.par = s.par ∧ t.cmdq = s.cmdq ∧ t.rspq = s.rspq ∧ t.env = s.env ∧ t.busData = s.busData ∧
    (i ≠ .clr → t.ovf = s.ovf) ∧ (i ≠ .bld → t.draws = s.draws)

/-- R18, R19, R21 to R24, R28: which commands write which state. -/
def Obligations.TablesAreWrittenOnlyByTheirCommands : Prop :=
  ∀ (i : Instr) (s t : State), exec i s = .next t → i ≠ .clr →
    ((∀ sym, i ≠ .cnt sym) → t.ft = s.ft ∧ t.total = s.total) ∧
    (i ≠ .bld → i ≠ .gen → t.tree = s.tree) ∧
    (i ≠ .gen → i ≠ .lcom → t.ct = s.ct) ∧
    ((∀ sym, i ≠ .lsym sym) → (∀ b, i ≠ .lbit b) → i ≠ .lcom → t.stage = s.stage) ∧
    ((∀ b, i ≠ .dbit b) → i ≠ .gen → i ≠ .lend → t.dpre = s.dpre) ∧
    (t.phase ≠ .error ∨ s.phase = .error → t.errcode = s.errcode ∧ t.errop = s.errop)

/-! ## Invariants -/

/-- R42, R44: the reset state is well formed, for every choice of parameters in the ranges of R6. -/
def Obligations.ResetStateIsWellFormed : Prop :=
  (∀ p : Params, p.Wf → Inv (State.resetWith p)) ∧ Inv State.reset

/-- R44, with R18 to R24 and R114: every step of every agent keeps a state well formed; in particular CT stays
prefix-free, whether generated or loaded. -/
def Obligations.StepKeepsStatesWellFormed : Prop :=
  ∀ s t : State, Inv s → step s = .next t → Inv t

/-- Item 7 of R44, R25, R27. -/
def Obligations.QueuesStayWithinTheirCapacity : Prop :=
  ∀ s t : State, QueuesWf s → step s = .next t → QueuesWf t

/-- R18, R19: FT's keys stay unique, its counts positive, its size within N_SYM, TOTAL their sum, and no count
wraps. -/
def Obligations.FrequencyTableStaysWellFormed : Prop :=
  ∀ s t : State, FreqWf s → step s = .next t → FreqWf t

/-- Item 6 of R44. -/
def Obligations.ErrorRegistersStayConsistent : Prop :=
  ∀ s t : State, ErrorWf s → step s = .next t → ErrorWf t

/-- R29, R151: no step changes the parameters, so CFG0 and CFG1 are constants (R37, R38). -/
def Obligations.ParametersNeverChange : Prop :=
  ∀ s t : State, step s = .next t → t.par = s.par

/-! ## Laws of the units -/

/-- R103: the counting law. -/
def Obligations.CountingATextGivesItsFrequencyTable : Prop :=
  ∀ (s : State) (text : List Symbol), s.phase = .idle → s.ft = [] → s.total = 0 → s.pend = [] →
    (∀ a ∈ text, isScalar a = true) → text.length < 2 ^ s.par.wCnt →
    (distinct text).length ≤ s.par.nSym →
    runAll (cntsOf text) s = some ({ s with
      ft := counted text, total := text.length,
      phase := if text = [] then .idle else .counting }, [])

/-- R107: the trees the builder makes, over all sequences of draws, are exactly those R106 admits. -/
def Obligations.BuilderMakesExactlyTheAdmissibleTrees : Prop :=
  ∀ (ft : List FreqEntry) (t : HTree) (d : Nat), ft ≠ [] →
    (Built ft t ↔ ∃ draw : Nat → Nat, buildTree draw d ft = t)

/-- R108: every tree R106 admits, for every tie choice. -/
def Obligations.EveryAdmissibleTreeIsAStrictHuffmanTree : Prop :=
  ∀ (ft : List FreqEntry) (t : HTree), ft ≠ [] → Built ft t → TreeWf ft t

/-- R112, R113: in a tree that R20 admits, `codeOf` gives each leaf its path from the root, and it is the only
one; the lone leaf has "0". -/
def Obligations.CodesAreThePathsFromTheRoot : Prop :=
  ∀ (ft : List FreqEntry) (t : HTree), TreeWf ft t → ∀ i < ft.length, ∀ c : Bits,
    IsCode t i c ↔ c = codeOf t i

/-- R114, properties 2, 3 and 4: the generated codes are not empty and prefix-free, and for two or more
symbols every bit string starts with a code or is a beginning of one. -/
def Obligations.GeneratedCodesArePrefixFreeAndComplete : Prop :=
  ∀ (ft : List FreqEntry) (t : HTree), TreeWf ft t →
    (∀ i < ft.length, codeOf t i ≠ []) ∧
    PrefixFree ((List.range ft.length).map (codeOf t)) ∧
    (2 ≤ ft.length → ∀ x : Bits, ∃ i < ft.length, codeOf t i <+: x ∨ x <+: codeOf t i)

/-- R110, R114 property 5: code-length monotonicity, for every tie choice. -/
def Obligations.MoreFrequentSymbolsHaveNoLongerCodes : Prop :=
  ∀ (ft : List FreqEntry) (t : HTree), Built ft t → ∀ (i j : Nat) (e f : FreqEntry),
    ft[i]? = some e → ft[j]? = some f → f.cnt < e.cnt →
    (codeOf t i).length ≤ (codeOf t j).length

/-- R110: for every tie choice the sum of count times code length is the least of all prefix-free codes. -/
def Obligations.GeneratedCodesHaveTheLeastCost : Prop :=
  ∀ (ft : List FreqEntry) (t : HTree), 2 ≤ ft.length → Built ft t →
    ∀ codes : List Bits, codes.length = ft.length → PrefixFree codes →
      cost ft ((List.range ft.length).map (codeOf t)) ≤ cost ft codes

/-- R117: the encoding law. -/
def Obligations.EncodingConcatenatesTheCodes : Prop :=
  ∀ (s : State) (es : List CodeEntry), s.phase = .codes → TableWf s.par s.ct → s.pend = [] →
    (∀ e ∈ es, e ∈ s.ct ∧ isScalar e.sym = true) →
    ∃ (t : State) (out : List Word),
      runAll (encsOf (es.map CodeEntry.sym)) s = some (t, out) ∧ t = { s with pend := t.pend } ∧
      out.flatMap bitsOf = (es.map CodeEntry.code).flatten ∧
      ∀ w ∈ out, w.extractLsb' 24 8 = 0x81#8

/-- R122: the loading law; the codes are cut into LBIT pieces in any way. -/
def Obligations.LoadingATableGivesThatTable : Prop :=
  ∀ (s : State) (es : List (CodeEntry × List Bits)), Inv s → s.phase = .idle → es ≠ [] →
    (∀ x ∈ es, isScalar x.1.sym = true ∧ Pieces x.1.code x.2) →
    TableWf s.par (es.map Prod.fst) →
    runAll ((es.flatMap fun x => loadOf x.1.sym x.2) ++ [.lend]) s =
      some ({ s with ct := es.map Prod.fst, phase := .codes, pend := [] }, [])

/-- R126: greedy longest-prefix equivalence. A concatenation of codes decodes to their symbols, however it is
cut into DBIT commands; every other bit string raises UNMATCHED_BITS. -/
def Obligations.DecodingInvertsConcatenation : Prop :=
  ∀ (s : State) (x : Bits) (ps : List Bits), s.phase = .codes → TableWf s.par s.ct → s.dpre = [] →
    Pieces x ps →
    (∀ es : List CodeEntry, (∀ e ∈ es, e ∈ s.ct) → x = (es.map CodeEntry.code).flatten →
      runAll (ps.map .dbit ++ [.dend]) s =
        some ({ s with pend := [0x85070000#32] },
          (es.map fun e => 0x82#8 ++ (0#3 ++ e.sym)) ++ [0x85070000#32])) ∧
    ((∀ es : List CodeEntry, (∀ e ∈ es, e ∈ s.ct) → x ≠ (es.map CodeEntry.code).flatten) →
      ∃ t out, runAll (ps.map .dbit ++ [.dend]) s = some (t, out) ∧
        t.phase = .error ∧ t.errcode = .unmatchedBits)

/-- R127: the round-trip law, for every text, every tie choice and every cut of the bit string. -/
def Obligations.CompressThenDecodeGivesTheText : Prop :=
  ∀ (s : State) (text : List Symbol), Inv s → s.phase = .idle → text ≠ [] →
    (∀ a ∈ text, isScalar a = true) → text.length < 2 ^ s.par.wCnt →
    (distinct text).length ≤ s.par.nSym →
    ∃ built, runAll (cntsOf text ++ [.bld]) s = some (built, []) ∧
      ((∀ i < built.ft.length, (codeOf (treeOf built) i).length ≤ s.par.maxCodeLen) →
        ∃ t out, runAll (.gen :: encsOf text) built = some (t, out) ∧
          ∀ ps, Pieces (out.flatMap bitsOf) ps →
            ∃ u, runAll (ps.map .dbit ++ [.dend]) t =
              some (u, (text.map fun a => 0x82#8 ++ (0#3 ++ a)) ++ [0x85070000#32]) ∧
              u.phase = .codes)
end

