-- ==== Sys2Proof/Laws/State.lean ====
section
/-!
SUPPORT. One lemma per field per update of the state, each true by definition, so that no proof unfolds a
record update.
-/

namespace Sys2Proof.Machine

/-! ## Raise (R135) -/

@[simp] theorem raise_par (op : Byte) (e : ErrCode) (pushed : List Word) (s : State) : (raise op e pushed s).par = s.par := rfl
@[simp] theorem raise_phase (op : Byte) (e : ErrCode) (pushed : List Word) (s : State) : (raise op e pushed s).phase = .error := rfl
@[simp] theorem raise_ft (op : Byte) (e : ErrCode) (pushed : List Word) (s : State) : (raise op e pushed s).ft = s.ft := rfl
@[simp] theorem raise_total (op : Byte) (e : ErrCode) (pushed : List Word) (s : State) : (raise op e pushed s).total = s.total := rfl
@[simp] theorem raise_tree (op : Byte) (e : ErrCode) (pushed : List Word) (s : State) : (raise op e pushed s).tree = s.tree := rfl
@[simp] theorem raise_ct (op : Byte) (e : ErrCode) (pushed : List Word) (s : State) : (raise op e pushed s).ct = s.ct := rfl
@[simp] theorem raise_stage (op : Byte) (e : ErrCode) (pushed : List Word) (s : State) : (raise op e pushed s).stage = s.stage := rfl
@[simp] theorem raise_dpre (op : Byte) (e : ErrCode) (pushed : List Word) (s : State) : (raise op e pushed s).dpre = s.dpre := rfl
@[simp] theorem raise_cmdq (op : Byte) (e : ErrCode) (pushed : List Word) (s : State) : (raise op e pushed s).cmdq = s.cmdq := rfl
@[simp] theorem raise_pend (op : Byte) (e : ErrCode) (pushed : List Word) (s : State) : (raise op e pushed s).pend = pushed ++ [errWord op e] := rfl
@[simp] theorem raise_rspq (op : Byte) (e : ErrCode) (pushed : List Word) (s : State) : (raise op e pushed s).rspq = s.rspq := rfl
@[simp] theorem raise_errcode (op : Byte) (e : ErrCode) (pushed : List Word) (s : State) : (raise op e pushed s).errcode = e := rfl
@[simp] theorem raise_errop (op : Byte) (e : ErrCode) (pushed : List Word) (s : State) : (raise op e pushed s).errop = op := rfl
@[simp] theorem raise_ovf (op : Byte) (e : ErrCode) (pushed : List Word) (s : State) : (raise op e pushed s).ovf = s.ovf := rfl
@[simp] theorem raise_draws (op : Byte) (e : ErrCode) (pushed : List Word) (s : State) : (raise op e pushed s).draws = s.draws := rfl
@[simp] theorem raise_env (op : Byte) (e : ErrCode) (pushed : List Word) (s : State) : (raise op e pushed s).env = s.env := rfl
@[simp] theorem raise_busData (op : Byte) (e : ErrCode) (pushed : List Word) (s : State) : (raise op e pushed s).busData = s.busData := rfl

/-! ## The body of CLR (R129) -/

@[simp] theorem clearAll_par (s : State) : (clearAll s).par = s.par := rfl
@[simp] theorem clearAll_phase (s : State) : (clearAll s).phase = .idle := rfl
@[simp] theorem clearAll_ft (s : State) : (clearAll s).ft = [] := rfl
@[simp] theorem clearAll_total (s : State) : (clearAll s).total = 0 := rfl
@[simp] theorem clearAll_tree (s : State) : (clearAll s).tree = none := rfl
@[simp] theorem clearAll_ct (s : State) : (clearAll s).ct = [] := rfl
@[simp] theorem clearAll_stage (s : State) : (clearAll s).stage = none := rfl
@[simp] theorem clearAll_dpre (s : State) : (clearAll s).dpre = [] := rfl
@[simp] theorem clearAll_cmdq (s : State) : (clearAll s).cmdq = s.cmdq := rfl
@[simp] theorem clearAll_pend (s : State) : (clearAll s).pend = s.pend := rfl
@[simp] theorem clearAll_rspq (s : State) : (clearAll s).rspq = s.rspq := rfl
@[simp] theorem clearAll_errcode (s : State) : (clearAll s).errcode = .noError := rfl
@[simp] theorem clearAll_errop (s : State) : (clearAll s).errop = 0#8 := rfl
@[simp] theorem clearAll_ovf (s : State) : (clearAll s).ovf = false := rfl
@[simp] theorem clearAll_draws (s : State) : (clearAll s).draws = s.draws := rfl
@[simp] theorem clearAll_env (s : State) : (clearAll s).env = s.env := rfl
@[simp] theorem clearAll_busData (s : State) : (clearAll s).busData = s.busData := rfl

/-! ## A discarded word (R137) -/

@[simp] theorem discard_par (s : State) : (discard s).par = s.par := rfl
@[simp] theorem discard_phase (s : State) : (discard s).phase = s.phase := rfl
@[simp] theorem discard_ft (s : State) : (discard s).ft = s.ft := rfl
@[simp] theorem discard_total (s : State) : (discard s).total = s.total := rfl
@[simp] theorem discard_tree (s : State) : (discard s).tree = s.tree := rfl
@[simp] theorem discard_ct (s : State) : (discard s).ct = s.ct := rfl
@[simp] theorem discard_stage (s : State) : (discard s).stage = s.stage := rfl
@[simp] theorem discard_dpre (s : State) : (discard s).dpre = s.dpre := rfl
@[simp] theorem discard_cmdq (s : State) : (discard s).cmdq = s.cmdq := rfl
@[simp] theorem discard_pend (s : State) : (discard s).pend = [] := rfl
@[simp] theorem discard_rspq (s : State) : (discard s).rspq = s.rspq := rfl
@[simp] theorem discard_errcode (s : State) : (discard s).errcode = s.errcode := rfl
@[simp] theorem discard_errop (s : State) : (discard s).errop = s.errop := rfl
@[simp] theorem discard_ovf (s : State) : (discard s).ovf = s.ovf := rfl
@[simp] theorem discard_draws (s : State) : (discard s).draws = s.draws := rfl
@[simp] theorem discard_env (s : State) : (discard s).env = s.env := rfl
@[simp] theorem discard_busData (s : State) : (discard s).busData = s.busData := rfl

/-! ## Reset (R42, R151) -/

@[simp] theorem resetWith_par (p : Params) : (State.resetWith p).par = p := rfl
@[simp] theorem resetWith_phase (p : Params) : (State.resetWith p).phase = .idle := rfl
@[simp] theorem resetWith_ft (p : Params) : (State.resetWith p).ft = [] := rfl
@[simp] theorem resetWith_total (p : Params) : (State.resetWith p).total = 0 := rfl
@[simp] theorem resetWith_tree (p : Params) : (State.resetWith p).tree = none := rfl
@[simp] theorem resetWith_ct (p : Params) : (State.resetWith p).ct = [] := rfl
@[simp] theorem resetWith_stage (p : Params) : (State.resetWith p).stage = none := rfl
@[simp] theorem resetWith_dpre (p : Params) : (State.resetWith p).dpre = [] := rfl
@[simp] theorem resetWith_cmdq (p : Params) : (State.resetWith p).cmdq = [] := rfl
@[simp] theorem resetWith_pend (p : Params) : (State.resetWith p).pend = [] := rfl
@[simp] theorem resetWith_rspq (p : Params) : (State.resetWith p).rspq = [] := rfl
@[simp] theorem resetWith_errcode (p : Params) : (State.resetWith p).errcode = .noError := rfl
@[simp] theorem resetWith_errop (p : Params) : (State.resetWith p).errop = 0#8 := rfl
@[simp] theorem resetWith_ovf (p : Params) : (State.resetWith p).ovf = false := rfl
@[simp] theorem resetWith_draws (p : Params) : (State.resetWith p).draws = 0 := rfl
@[simp] theorem resetWith_env (p : Params) : (State.resetWith p).env = [] := rfl
@[simp] theorem resetWith_busData (p : Params) : (State.resetWith p).busData = none := rfl

/-! ## The reset action (R151) -/

@[simp] theorem resetBlock_par (s : State) : (resetBlock s).par = s.par := rfl
@[simp] theorem resetBlock_phase (s : State) : (resetBlock s).phase = .idle := rfl
@[simp] theorem resetBlock_ft (s : State) : (resetBlock s).ft = [] := rfl
@[simp] theorem resetBlock_total (s : State) : (resetBlock s).total = 0 := rfl
@[simp] theorem resetBlock_tree (s : State) : (resetBlock s).tree = none := rfl
@[simp] theorem resetBlock_ct (s : State) : (resetBlock s).ct = [] := rfl
@[simp] theorem resetBlock_stage (s : State) : (resetBlock s).stage = none := rfl
@[simp] theorem resetBlock_dpre (s : State) : (resetBlock s).dpre = [] := rfl
@[simp] theorem resetBlock_cmdq (s : State) : (resetBlock s).cmdq = [] := rfl
@[simp] theorem resetBlock_pend (s : State) : (resetBlock s).pend = [] := rfl
@[simp] theorem resetBlock_rspq (s : State) : (resetBlock s).rspq = [] := rfl
@[simp] theorem resetBlock_errcode (s : State) : (resetBlock s).errcode = .noError := rfl
@[simp] theorem resetBlock_errop (s : State) : (resetBlock s).errop = 0#8 := rfl
@[simp] theorem resetBlock_ovf (s : State) : (resetBlock s).ovf = false := rfl
@[simp] theorem resetBlock_draws (s : State) : (resetBlock s).draws = s.draws := rfl
@[simp] theorem resetBlock_env (s : State) : (resetBlock s).env = s.env := rfl
@[simp] theorem resetBlock_busData (s : State) : (resetBlock s).busData = s.busData := rfl

/-! ## Placing a command word -/

@[simp] theorem placeWord_par (w : Word) (s : State) : (placeWord w s).par = s.par := rfl
@[simp] theorem placeWord_phase (w : Word) (s : State) : (placeWord w s).phase = s.phase := rfl
@[simp] theorem placeWord_ft (w : Word) (s : State) : (placeWord w s).ft = s.ft := rfl
@[simp] theorem placeWord_total (w : Word) (s : State) : (placeWord w s).total = s.total := rfl
@[simp] theorem placeWord_tree (w : Word) (s : State) : (placeWord w s).tree = s.tree := rfl
@[simp] theorem placeWord_ct (w : Word) (s : State) : (placeWord w s).ct = s.ct := rfl
@[simp] theorem placeWord_stage (w : Word) (s : State) : (placeWord w s).stage = s.stage := rfl
@[simp] theorem placeWord_dpre (w : Word) (s : State) : (placeWord w s).dpre = s.dpre := rfl
@[simp] theorem placeWord_cmdq (w : Word) (s : State) : (placeWord w s).cmdq = w :: s.cmdq.tail := rfl
@[simp] theorem placeWord_pend (w : Word) (s : State) : (placeWord w s).pend = [] := rfl
@[simp] theorem placeWord_rspq (w : Word) (s : State) : (placeWord w s).rspq =
    if s.rspq.length < s.par.rspqDepth then s.rspq else [] := rfl
@[simp] theorem placeWord_errcode (w : Word) (s : State) : (placeWord w s).errcode = s.errcode := rfl
@[simp] theorem placeWord_errop (w : Word) (s : State) : (placeWord w s).errop = s.errop := rfl
@[simp] theorem placeWord_ovf (w : Word) (s : State) : (placeWord w s).ovf = s.ovf := rfl
@[simp] theorem placeWord_draws (w : Word) (s : State) : (placeWord w s).draws = s.draws := rfl
@[simp] theorem placeWord_busData (w : Word) (s : State) : (placeWord w s).busData = s.busData := rfl

end Sys2Proof.Machine
end

