-- ==== Sys2Proof/Laws/Ops.lean ====
section
/-!
SUPPORT. One lemma per shared operation, saying everything it can do: the common part of a command, the
lookups, and the taking of a move.
-/

namespace Sys2Proof.Laws

open Sys2Proof.Machine Sys2Proof.Safety

/-! ## The common part of a command (R89) -/

theorem runCommand_discards {i : Instr} {body : State → BodyResult} {s : State}
    (h : s.phase = .error) : runCommand i body s = discard s := by
  simp [runCommand, h]

theorem runCommand_outOfPhase {i : Instr} {body : State → BodyResult} {s : State}
    (h : s.phase ≠ .error) (hp : s.phase ∉ allowed i) :
    runCommand i body s = raise (opcodeOf i) .phaseError [] s := by
  simp [runCommand, h, hp]

theorem runCommand_badSymbol {i : Instr} {body : State → BodyResult} {s : State}
    (h : s.phase ≠ .error) (hp : s.phase ∈ allowed i) (hs : symbolOk i = false) :
    runCommand i body s = raise (opcodeOf i) .illegalSymbol [] s := by
  simp [runCommand, h, hp, hs]

theorem error_not_allowed (i : Instr) : Phase.error ∉ allowed i := by cases i <;> simp [allowed]

theorem runCommand_body {i : Instr} {body : State → BodyResult} {s : State}
    (hp : s.phase ∈ allowed i) (hs : symbolOk i = true) :
    runCommand i body s = commit (opcodeOf i) s (body s) := by
  have h : s.phase ≠ .error := fun h => error_not_allowed i (h ▸ hp)
  simp [runCommand, h, hp, hs]

/-- Everything the common part can do. -/
theorem runCommand_cases (i : Instr) (body : State → BodyResult) (s : State) :
    (s.phase = .error ∧ runCommand i body s = discard s) ∨
    (s.phase ≠ .error ∧ s.phase ∉ allowed i ∧
      runCommand i body s = raise (opcodeOf i) .phaseError [] s) ∨
    (s.phase ∈ allowed i ∧ symbolOk i = false ∧
      runCommand i body s = raise (opcodeOf i) .illegalSymbol [] s) ∨
    (s.phase ∈ allowed i ∧ symbolOk i = true ∧
      runCommand i body s = commit (opcodeOf i) s (body s)) := by
  by_cases h : s.phase = .error
  · exact .inl ⟨h, runCommand_discards h⟩
  by_cases hp : s.phase ∈ allowed i
  · cases hs : symbolOk i
    · exact .inr (.inr (.inl ⟨hp, rfl, runCommand_badSymbol h hp hs⟩))
    · exact .inr (.inr (.inr ⟨hp, rfl, runCommand_body hp hs⟩))
  · exact .inr (.inl ⟨h, hp, runCommand_outOfPhase h hp⟩)

/-- The body of every command but CLR and SYNC. -/
def bodyOf : Instr → State → BodyResult
  | .clr => fun s => .done (clearAll s) []
  | .cnt sym => cntBody sym
  | .bld => bldBody Config.tieDraw
  | .gen => genBody
  | .enc sym => encBody sym
  | .dbit bits => dbitBody bits
  | .dend => dendBody
  | .lsym sym => lsymBody sym
  | .lbit bits => lbitBody bits
  | .lcom => lcomBody
  | .lend => lendBody
  | .dump => dumpBody
  | .qfreq sym => qfreqBody sym
  | .sync tag => fun s => .done s [syncWord (decide (s.phase = .error)) tag]

theorem exec_eq_runCommand (i : Instr) (hc : i ≠ .clr) (hs : ∀ tag, i ≠ .sync tag) (s : State) :
    exec i s = .next (runCommand i (bodyOf i) s) := by
  cases i <;> first | rfl | exact absurd rfl hc | exact absurd rfl (hs _)

theorem exec_clr (s : State) : exec .clr s = .next { clearAll s with pend := [] } := rfl

theorem exec_sync (tag : BitVec 16) (s : State) :
    exec (.sync tag) s = .next { s with pend := [syncWord (decide (s.phase = .error)) tag] } := rfl

/-- R132: no command faults and none is refused. -/
theorem exec_answers_next (i : Instr) (s : State) : ∃ t, exec i s = .next t := by
  cases i <;> exact ⟨_, rfl⟩

/-- Everything EXECUTE of a legal word can do. -/
theorem exec_cases {i : Instr} {s t : State} (h : exec i s = .next t) :
    (i = .clr ∧ t = { clearAll s with pend := [] }) ∨
    (∃ tag, i = .sync tag ∧ t = { s with pend := [syncWord (decide (s.phase = .error)) tag] }) ∨
    (i ≠ .clr ∧ (∀ tag, i ≠ .sync tag) ∧
      ((s.phase = .error ∧ t = discard s) ∨
      (s.phase ≠ .error ∧ s.phase ∉ allowed i ∧ t = raise (opcodeOf i) .phaseError [] s) ∨
      (s.phase ∈ allowed i ∧ symbolOk i = false ∧ t = raise (opcodeOf i) .illegalSymbol [] s) ∨
      (s.phase ∈ allowed i ∧ symbolOk i = true ∧ t = commit (opcodeOf i) s (bodyOf i s)))) := by
  by_cases hc : i = .clr
  · subst hc; rw [exec_clr] at h; cases h; exact .inl ⟨rfl, rfl⟩
  by_cases hs : ∃ tag, i = .sync tag
  · obtain ⟨tag, rfl⟩ := hs; rw [exec_sync] at h; cases h; exact .inr (.inl ⟨tag, rfl, rfl⟩)
  · have hs' : ∀ tag, i ≠ .sync tag := fun tag e => hs ⟨tag, e⟩
    rw [exec_eq_runCommand i hc hs'] at h
    cases h
    exact .inr (.inr ⟨hc, hs', runCommand_cases i (bodyOf i) s⟩)

/-! ## Lookups (R93) -/

theorem findIdx?_split {α : Type} (p : α → Bool) (before : List α) (e : α) (after : List α)
    (he : p e = true) (hb : ∀ x ∈ before, p x = false) :
    (before ++ e :: after).findIdx? p = some before.length := by
  induction before with
  | nil => simp [List.findIdx?_cons, he]
  | cons a as ih =>
    have ha : p a = false := hb a (by simp)
    simp [List.findIdx?_cons, ha, ih fun x hx => hb x (by simp [hx])]

theorem findF_split {before after : List FreqEntry} {sym : Symbol} {n : Nat}
    (h : sym ∉ before.map FreqEntry.sym) :
    findF (before ++ ⟨sym, n⟩ :: after) sym = some before.length :=
  findIdx?_split _ _ _ _ (by simp) fun x hx => by
    have : x.sym ≠ sym := fun e => h (e ▸ List.mem_map_of_mem hx)
    simpa using this

theorem findF_none {ft : List FreqEntry} {sym : Symbol} :
    findF ft sym = none ↔ sym ∉ ft.map FreqEntry.sym := by
  simp [findF, List.findIdx?_eq_none_iff]

/-- A symbol with a slot splits FT at its first slot. -/
theorem mem_ft_split {ft : List FreqEntry} {sym : Symbol} (h : sym ∈ ft.map FreqEntry.sym) :
    ∃ before n after, ft = before ++ ⟨sym, n⟩ :: after ∧ sym ∉ before.map FreqEntry.sym := by
  induction ft with
  | nil => simp at h
  | cons e es ih =>
    by_cases he : e.sym = sym
    · exact ⟨[], e.cnt, es, by cases e; simp_all, by simp⟩
    · obtain ⟨b, n, a, rfl, hb⟩ := ih (by
        rcases List.mem_cons.mp h with h | h
        · exact absurd h.symm he
        · exact h)
      refine ⟨e :: b, n, a, rfl, ?_⟩
      simp only [List.map_cons, List.mem_cons, not_or]
      exact ⟨fun h => he h.symm, hb⟩

theorem countOf_absent {ft : List FreqEntry} {sym : Symbol} (h : sym ∉ ft.map FreqEntry.sym) :
    countOf ft sym = 0 := by
  simp [countOf, findF_none.mpr h]

theorem countOf_split {before after : List FreqEntry} {sym : Symbol} {n : Nat}
    (h : sym ∉ before.map FreqEntry.sym) : countOf (before ++ ⟨sym, n⟩ :: after) sym = n := by
  simp [countOf, findF_split h]

theorem bump_split {before after : List FreqEntry} {sym : Symbol} {n : Nat} :
    (before ++ ⟨sym, n⟩ :: after).modify before.length bump =
      before ++ ⟨sym, n + 1⟩ :: after := by
  induction before with
  | nil => simp [bump]
  | cons a as ih => simpa using ih

theorem findC_none {ct : List CodeEntry} {sym : Symbol} :
    findC ct sym = none ↔ sym ∉ ct.map CodeEntry.sym := by
  simp [findC]

theorem findC_split {before after : List CodeEntry} {sym : Symbol} {c : Bits}
    (h : sym ∉ before.map CodeEntry.sym) :
    findC (before ++ ⟨sym, c⟩ :: after) sym = some ⟨sym, c⟩ := by
  have hn : before.find? (fun e => decide (e.sym = sym)) = none := findC_none.mpr h
  simp [findC, List.find?_append, hn]

theorem findC_mem {ct : List CodeEntry} {e : CodeEntry} (hk : (ct.map CodeEntry.sym).Nodup)
    (he : e ∈ ct) : findC ct e.sym = some e := by
  obtain ⟨b, a, rfl⟩ := List.append_of_mem he
  refine findC_split (c := e.code) fun hm => ?_
  simp only [List.map_append, List.map_cons] at hk
  exact (List.nodup_append.mp hk).2.2 _ hm _ (by simp) rfl

theorem matchC_none {ct : List CodeEntry} {p : Bits} :
    matchC ct p = none ↔ ∀ e ∈ ct, e.code ≠ p := by
  simp [matchC]

theorem prefixFree_nodup {codes : List Bits} (h : PrefixFree codes) : codes.Nodup :=
  List.Pairwise.imp (fun hcd e => hcd.1 (by rw [e])) h

theorem matchC_mem {ct : List CodeEntry} {e : CodeEntry}
    (hc : (ct.map CodeEntry.code).Nodup) (he : e ∈ ct) : matchC ct e.code = some e := by
  obtain ⟨b, a, rfl⟩ := List.append_of_mem he
  have hn : b.find? (fun x => decide (x.code = e.code)) = none := by
    simp only [List.find?_eq_none, decide_eq_true_eq]
    intro x hx hxe
    simp only [List.map_append, List.map_cons] at hc
    exact (List.nodup_append.mp hc).2.2 _ (List.mem_map_of_mem hx) _ (by simp) hxe
  simp [matchC, List.find?_append, hn]

theorem startsWith_iff {c p : Bits} : startsWith c p = true ↔ p <+: c := by
  simp [startsWith]

theorem startsProperly_iff {c p : Bits} : startsProperly c p = true ↔ p <+: c ∧ p ≠ c := by
  simp [startsProperly]

theorem extends_iff {ct : List CodeEntry} {p : Bits} :
    extends? ct p = true ↔ ∃ e ∈ ct, p <+: e.code ∧ p ≠ e.code := by
  simp [extends?, startsProperly_iff]

theorem clashes_iff {ct : List CodeEntry} {c : Bits} :
    clashes ct c = true ↔ ∃ d ∈ ct, d.code <+: c ∨ c <+: d.code := by
  simp [clashes, startsWith_iff]

/-! ## Moves (R8) -/

theorem step_coreTurn {s : State} {rest : List Move} (h : CoreTurn s rest) :
    step s = coreStep { s with env := rest } := by
  rcases h with ⟨h, rfl⟩ | h
  · have : { s with env := [] } = s := by cases s; simp_all
    simp [step, nextMove, h, takeMove, this]
  · simp [step, nextMove, h, takeMove]

theorem step_executes {s u : State} {w : Word} (h : Executes s w u) :
    step s = match decode w with
      | .ok i => exec i u
      | .error _ => .next (illegalCommand w u) := by
  obtain ⟨q, rest, hc, hr, hp, hq, rfl⟩ := h
  rw [step_coreTurn hc, coreStep, if_pos hr]
  simp only [hp, execute, hq] <;> rfl

/-- With RSPQ full the CORE's turn changes nothing (R27, R157). -/
theorem step_holds {s : State} {rest : List Move} (h : CoreTurn s rest)
    (hr : ¬ s.rspq.length < s.par.rspqDepth) : step s = .next { s with env := rest } := by
  rw [step_coreTurn h, coreStep, if_neg hr]

theorem windowOffset_base {off : Nat} (h : off < 64) :
    windowOffset (Config.hufBase + off) = some off := by
  simp [windowOffset, h]

theorem admitAccess_base {off : Nat} (h : off < 64) (ha : off % 4 = 0) :
    admitAccess (Config.hufBase + off) .word = .ok off := by
  simp [admitAccess, windowOffset_base h, ha]

theorem step_reads {s u : State} {off : Nat} (h : Reads s off u) (hl : off < 64)
    (ha : off % 4 = 0) : step s = .next (readReg off u) := by
  obtain ⟨rest, he, rfl⟩ := h
  simp [step, nextMove, he, takeMove, hostRead, admitAccess_base hl ha]

theorem step_writes {s u : State} {off : Nat} {v : Word} (h : Writes s off v u) (hl : off < 64)
    (ha : off % 4 = 0) : step s = .next (writeReg off v u) := by
  obtain ⟨rest, he, rfl⟩ := h
  simp [step, nextMove, he, takeMove, hostWrite, admitAccess_base hl ha]

theorem step_resets {s u : State} (h : Resets s u) : step s = .next (resetBlock u) := by
  rcases h with ⟨rest, he, rfl⟩ | ⟨v, hv, hw⟩
  · simp [step, nextMove, he, takeMove]
  · rw [step_writes hw (by decide) (by decide)]
    simp [writeReg, writeCtrl, hv]

/-- An access that is admitted is one of the window's aligned words. -/
theorem admitAccess_ok {addr : Nat} {width : Width} {off : Nat} (h : admitAccess addr width = .ok off) :
    off < 64 ∧ off % 4 = 0 ∧ addr = Config.hufBase + off ∧ width = .word := by
  unfold admitAccess windowOffset at h
  by_cases hw : Config.hufBase ≤ addr ∧ addr < Config.hufBase + 64
  · simp only [hw, and_self, if_true] at h
    split at h
    · rename_i hc
      cases h
      exact ⟨by omega, hc.2, by omega, hc.1⟩
    · cases h
  · rw [if_neg hw] at h; cases h

/-- Everything the CORE's turn that answers a next state can do: EXECUTE of a legal or an illegal word, DELIVER,
or nothing, with RSPQ full or with no work. -/
theorem step_coreTurn_cases {s t : State} {rest : List Move} (hc : CoreTurn s rest)
    (h : step s = .next t) :
    (∃ w u i, Executes s w u ∧ decode w = .ok i ∧ exec i u = .next t) ∨
    (∃ w u e, Executes s w u ∧ decode w = .error e ∧ t = illegalCommand w u) ∨
    (∃ v q, s.rspq.length < s.par.rspqDepth ∧ s.pend = v :: q ∧
      t = deliver v q { s with env := rest }) ∨
    ((¬ s.rspq.length < s.par.rspqDepth ∨ s.pend = [] ∧ s.cmdq = []) ∧
      t = { s with env := rest }) := by
  by_cases hr : s.rspq.length < s.par.rspqDepth
  · cases hp : s.pend with
    | cons v q =>
      rw [step_coreTurn hc, coreStep, if_pos hr] at h
      simp only [hp] at h
      cases h
      exact .inr (.inr (.inl ⟨v, q, hr, rfl, rfl⟩))
    | nil =>
      cases hq : s.cmdq with
      | nil =>
        rw [step_coreTurn hc, coreStep, if_pos hr] at h
        simp only [hp, execute, hq] at h
        cases h
        exact .inr (.inr (.inr ⟨.inr ⟨rfl, rfl⟩, rfl⟩))
      | cons w q =>
        have hx : Executes s w { s with cmdq := q, env := rest } := ⟨q, rest, hc, hr, hp, hq, rfl⟩
        rw [step_executes hx] at h
        cases hd : decode w with
        | ok i => rw [hd] at h; exact .inl ⟨w, _, i, hx, hd, h⟩
        | error e => rw [hd] at h; cases h; exact .inr (.inl ⟨w, _, e, hx, hd, rfl⟩)
  · rw [step_holds hc hr] at h
    cases h
    exact .inr (.inr (.inr ⟨.inl hr, rfl⟩))

/-- Everything a step that answers a next state can do. -/
theorem step_cases {s t : State} (h : step s = .next t) :
    (∃ w u i, Executes s w u ∧ decode w = .ok i ∧ exec i u = .next t) ∨
    (∃ w u e, Executes s w u ∧ decode w = .error e ∧ t = illegalCommand w u) ∨
    (∃ v q rest, CoreTurn s rest ∧ s.rspq.length < s.par.rspqDepth ∧ s.pend = v :: q ∧
      t = deliver v q { s with env := rest }) ∨
    (∃ rest, CoreTurn s rest ∧
      (¬ s.rspq.length < s.par.rspqDepth ∨ s.pend = [] ∧ s.cmdq = []) ∧
      t = { s with env := rest }) ∨
    (∃ off u, Reads s off u ∧ off < 64 ∧ off % 4 = 0 ∧ t = readReg off u) ∨
    (∃ off v u, Writes s off v u ∧ off < 64 ∧ off % 4 = 0 ∧ t = writeReg off v u) ∨
    (∃ u, Resets s u ∧ t = resetBlock u) := by
  cases he : s.env with
  | nil =>
    rcases step_coreTurn_cases (rest := []) (.inl ⟨he, rfl⟩) h with h | h | ⟨v, q, h⟩ | h
    · exact .inl h
    · exact .inr (.inl h)
    · exact .inr (.inr (.inl ⟨v, q, [], (.inl ⟨he, rfl⟩), h⟩))
    · exact .inr (.inr (.inr (.inl ⟨[], (.inl ⟨he, rfl⟩), h⟩)))
  | cons m rest =>
    cases m with
    | core =>
      rcases step_coreTurn_cases (rest := rest) (.inr he) h with h | h | ⟨v, q, h⟩ | h
      · exact .inl h
      · exact .inr (.inl h)
      · exact .inr (.inr (.inl ⟨v, q, rest, (.inr he), h⟩))
      · exact .inr (.inr (.inr (.inl ⟨rest, (.inr he), h⟩)))
    | read addr width =>
      simp only [step, nextMove, he, takeMove, hostRead] at h
      cases ha : admitAccess addr width with
      | error f => rw [ha] at h; cases h
      | ok off =>
        rw [ha] at h; cases h
        obtain ⟨hl, hm, rfl, rfl⟩ := admitAccess_ok ha
        exact .inr (.inr (.inr (.inr (.inl ⟨off, _, ⟨rest, he, rfl⟩, hl, hm, rfl⟩))))
    | write addr width data =>
      simp only [step, nextMove, he, takeMove, hostWrite] at h
      cases ha : admitAccess addr width with
      | error f => rw [ha] at h; cases h
      | ok off =>
        rw [ha] at h; cases h
        obtain ⟨hl, hm, rfl, rfl⟩ := admitAccess_ok ha
        exact .inr (.inr (.inr (.inr (.inr (.inl ⟨off, data, _, ⟨rest, he, rfl⟩, hl, hm, rfl⟩)))))
    | rst =>
      simp only [step, nextMove, he, takeMove] at h
      cases h
      exact .inr (.inr (.inr (.inr (.inr (.inr ⟨_, .inl ⟨rest, he, rfl⟩, rfl⟩)))))

end Sys2Proof.Laws
end

