-- ==== Sys2Proof/Laws/Words.lean ====
section
/-!
SUPPORT. The bits of packed bit strings (20_memory.md R51) and of the BITS word and its inverse (R71, R75).
-/

namespace Sys2Proof.Laws

open Sys2Proof.Machine Sys2Proof.Safety

/-- Bit `k` of the field is bit `15 - k` of the string, counted from `j`. -/
theorem packFrom_getLsbD (b : Bits) (j k : Nat) (h : j + b.length ≤ 16) :
    (packFrom j b).getLsbD k =
      (decide (k ≤ 15 ∧ j ≤ 15 - k) && (b[15 - k - j]?).getD false) := by
  induction b generalizing j with
  | nil => simp [packFrom]
  | cons a as ih =>
    simp only [List.length_cons] at h
    have hi := ih (j + 1) (by omega)
    simp only [packFrom, BitVec.getLsbD_or, hi]
    by_cases hk : k ≤ 15
    · by_cases hj : j = 15 - k
      · subst hj
        have hk' : 15 - (15 - k) = k := by omega
        cases a <;> simp [hk, hk', BitVec.getLsbD_twoPow]; omega
      · have hne : ¬ (15 - j = k) := by omega
        have hz : (if a = true then BitVec.twoPow 16 (15 - j) else 0#16).getLsbD k = false := by
          cases a <;> simp [BitVec.getLsbD_twoPow, hne]
        rw [hz, Bool.false_or]
        by_cases hlt : j ≤ 15 - k
        · have h1 : j + 1 ≤ 15 - k := by omega
          have h2 : 15 - k - j = (15 - k - (j + 1)) + 1 := by omega
          simp [hk, h1, hlt, h2]
        · have h1 : ¬ j + 1 ≤ 15 - k := by omega
          simp [h1, hlt]
    · have hz : (if a = true then BitVec.twoPow 16 (15 - j) else 0#16).getLsbD k = false := by
        cases a <;> simp [BitVec.getLsbD_twoPow]; omega
      simp [hk, hz]

/-- The j-th bit of the string sits at bit `15 - j` (R51). -/
theorem packBits_getLsbD (b : Bits) (h : b.length ≤ 16) (k : Nat) (hk : k ≤ 15) :
    (packBits b).getLsbD k = (b[15 - k]?).getD false := by
  rw [packBits, packFrom_getLsbD b 0 k (by omega)]
  simp [hk]

theorem bitstr_length (w : Word) (n : Nat) : (bitstr w n).length = n := by simp [bitstr]

theorem bitstr_getElem? (w : Word) (n j : Nat) (h : j < n) :
    (bitstr w n)[j]? = some (w.getLsbD (15 - j)) := by
  simp [bitstr, h]

/-- A word whose low half is a packed string gives the string back. -/
theorem bitstr_packBits (w : Word) (b : Bits) (h : b.length ≤ 16)
    (hw : ∀ k ≤ 15, w.getLsbD k = (packBits b).getLsbD k) : bitstr w b.length = b := by
  apply List.ext_getElem?
  intro j
  by_cases hj : j < b.length
  · rw [bitstr_getElem? _ _ _ hj, hw _ (by omega), packBits_getLsbD b h _ (by omega)]
    have : 15 - (15 - j) = j := by omega
    rw [this, List.getElem?_eq_getElem hj, Option.getD_some]
  · rw [List.getElem?_eq_none (by rw [bitstr_length]; omega), List.getElem?_eq_none (by omega)]

theorem bitsWord_getLsbD_low (b : Bits) (k : Nat) (hk : k ≤ 15) :
    (bitsWord b).getLsbD k = (packBits b).getLsbD k := by
  have h1 : k < 24 := by omega
  have h2 : k < 16 := by omega
  simp only [bitsWord, BitVec.getLsbD_append, h1, h2, if_true]

theorem bitsWord_count (b : Bits) (h : b.length ≤ 16) :
    ((bitsWord b).extractLsb' 16 5).toNat = b.length := by
  have he : (bitsWord b).extractLsb' 16 5 = BitVec.ofNat 5 b.length := by
    apply BitVec.eq_of_getLsbD_eq
    intro i hi
    have h1 : 16 + i < 24 := by omega
    have h2 : ¬ 16 + i < 16 := by omega
    have h3 : 16 + i - 16 = i := by omega
    simp only [bitsWord, BitVec.getLsbD_extractLsb', BitVec.getLsbD_append, h1, h2, h3, hi]
    simp [hi]
  rw [he, BitVec.toNat_ofNat]
  omega

/-- A BITS word gives its bit string back (R75). -/
theorem bitsOf_bitsWord (b : Bits) (h : b.length ≤ 16) : bitsOf (bitsWord b) = b := by
  rw [bitsOf, bitsWord_count b h]
  exact bitstr_packBits _ _ h fun k hk => bitsWord_getLsbD_low b k hk

/-! ## Decode (R92) -/

/-- Everything Decode can do: one row of the opcode map (R72), or a reserved opcode. -/
theorem decode_rows (w : Word) :
    (opcodeByte w = 0x01#8 ∧ decode w = decodeZ w .clr) ∨
    (opcodeByte w = 0x02#8 ∧ decode w = decodeS w .cnt) ∨
    (opcodeByte w = 0x03#8 ∧ decode w = decodeZ w .bld) ∨
    (opcodeByte w = 0x04#8 ∧ decode w = decodeZ w .gen) ∨
    (opcodeByte w = 0x05#8 ∧ decode w = decodeS w .enc) ∨
    (opcodeByte w = 0x06#8 ∧ decode w = decodeB w .dbit) ∨
    (opcodeByte w = 0x07#8 ∧ decode w = decodeZ w .dend) ∨
    (opcodeByte w = 0x08#8 ∧ decode w = decodeS w .lsym) ∨
    (opcodeByte w = 0x09#8 ∧ decode w = decodeB w .lbit) ∨
    (opcodeByte w = 0x0A#8 ∧ decode w = decodeZ w .lcom) ∨
    (opcodeByte w = 0x0B#8 ∧ decode w = decodeZ w .lend) ∨
    (opcodeByte w = 0x0C#8 ∧ decode w = decodeZ w .dump) ∨
    (opcodeByte w = 0x0D#8 ∧ decode w = decodeS w .qfreq) ∨
    (opcodeByte w = 0x0E#8 ∧ decode w = decodeT w .sync) ∨
    ((opcodeByte w).toNat = 0 ∨ 15 ≤ (opcodeByte w).toNat) ∧ decode w = .error .reservedOpcode := by
  have hrange : ∀ op : Byte, op = 0x01#8 ∨ op = 0x02#8 ∨ op = 0x03#8 ∨ op = 0x04#8 ∨ op = 0x05#8 ∨
      op = 0x06#8 ∨ op = 0x07#8 ∨ op = 0x08#8 ∨ op = 0x09#8 ∨ op = 0x0A#8 ∨ op = 0x0B#8 ∨
      op = 0x0C#8 ∨ op = 0x0D#8 ∨ op = 0x0E#8 ∨ op.toNat = 0 ∨ 15 ≤ op.toNat := by decide
  unfold decode
  rcases hrange (opcodeByte w) with h | h | h | h | h | h | h | h | h | h | h | h | h | h | h
  · rw [h]; exact Or.inl ⟨rfl, rfl⟩
  · rw [h]; exact Or.inr (Or.inl ⟨rfl, rfl⟩)
  · rw [h]; exact Or.inr (Or.inr (Or.inl ⟨rfl, rfl⟩))
  · rw [h]; exact Or.inr (Or.inr (Or.inr (Or.inl ⟨rfl, rfl⟩)))
  · rw [h]; exact Or.inr (Or.inr (Or.inr (Or.inr (Or.inl ⟨rfl, rfl⟩))))
  · rw [h]; exact Or.inr (Or.inr (Or.inr (Or.inr (Or.inr (Or.inl ⟨rfl, rfl⟩)))))
  · rw [h]; exact Or.inr (Or.inr (Or.inr (Or.inr (Or.inr (Or.inr (Or.inl ⟨rfl, rfl⟩))))))
  · rw [h]; exact Or.inr (Or.inr (Or.inr (Or.inr (Or.inr (Or.inr (Or.inr (Or.inl ⟨rfl, rfl⟩)))))))
  · rw [h]; exact Or.inr (Or.inr (Or.inr (Or.inr (Or.inr (Or.inr (Or.inr (Or.inr (Or.inl ⟨rfl, rfl⟩))))))))
  · rw [h]; exact Or.inr (Or.inr (Or.inr (Or.inr (Or.inr (Or.inr (Or.inr (Or.inr (Or.inr (Or.inl ⟨rfl, rfl⟩)))))))))
  · rw [h]; exact Or.inr (Or.inr (Or.inr (Or.inr (Or.inr (Or.inr (Or.inr (Or.inr (Or.inr (Or.inr (Or.inl ⟨rfl, rfl⟩))))))))))
  · rw [h]; exact Or.inr (Or.inr (Or.inr (Or.inr (Or.inr (Or.inr (Or.inr (Or.inr (Or.inr (Or.inr (Or.inr (Or.inl ⟨rfl, rfl⟩)))))))))))
  · rw [h]; exact Or.inr (Or.inr (Or.inr (Or.inr (Or.inr (Or.inr (Or.inr (Or.inr (Or.inr (Or.inr (Or.inr (Or.inr (Or.inl ⟨rfl, rfl⟩))))))))))))
  · rw [h]; exact Or.inr (Or.inr (Or.inr (Or.inr (Or.inr (Or.inr (Or.inr (Or.inr (Or.inr (Or.inr (Or.inr (Or.inr (Or.inr (Or.inl ⟨rfl, rfl⟩)))))))))))))
  · refine Or.inr (Or.inr (Or.inr (Or.inr (Or.inr (Or.inr (Or.inr (Or.inr (Or.inr (Or.inr (Or.inr (Or.inr (Or.inr (Or.inr (⟨h, ?_⟩))))))))))))))
    split <;> first | rfl | omega


end Sys2Proof.Laws
end

