-- ==== Sys2Proof/Laws/PerInstr.lean ====
section
/-!
SUPPORT. One lemma per command: its command words lie in its row of the opcode table (spec/opcode_table.json,
30_encoding.md R66 to R72), with the row's fixed bits as the table gives them.
-/

namespace Sys2Proof.Laws

/-- The fixed bits of each row: its `mask`. -/
def TableRow.mask : Instr → Word
  | .clr => 0xFFFFFFFF#32
  | .cnt _ => 0xFFE00000#32
  | .bld => 0xFFFFFFFF#32
  | .gen => 0xFFFFFFFF#32
  | .enc _ => 0xFFE00000#32
  | .dbit _ => 0xFFE00000#32
  | .dend => 0xFFFFFFFF#32
  | .lsym _ => 0xFFE00000#32
  | .lbit _ => 0xFFE00000#32
  | .lcom => 0xFFFFFFFF#32
  | .lend => 0xFFFFFFFF#32
  | .dump => 0xFFFFFFFF#32
  | .qfreq _ => 0xFFE00000#32
  | .sync _ => 0xFFFF0000#32

/-- The value of the fixed bits of each row: its `match`. -/
def TableRow.row : Instr → Word
  | .clr => 0x01000000#32
  | .cnt _ => 0x02000000#32
  | .bld => 0x03000000#32
  | .gen => 0x04000000#32
  | .enc _ => 0x05000000#32
  | .dbit _ => 0x06000000#32
  | .dend => 0x07000000#32
  | .lsym _ => 0x08000000#32
  | .lbit _ => 0x09000000#32
  | .lcom => 0x0A000000#32
  | .lend => 0x0B000000#32
  | .dump => 0x0C000000#32
  | .qfreq _ => 0x0D000000#32
  | .sync _ => 0x0E000000#32

/-- The command's words lie in its row of the opcode table. -/
def TableRow.Statement (i : Instr) : Prop :=
  i.wf = true → encode i &&& TableRow.mask i = TableRow.row i

/-- Only the opcode and the three reserved bits survive the mask of forms S and B. -/
theorem TableRow.mask_reserved (op : Byte) (r : BitVec 3) (x : BitVec 21) :
    (op ++ (r ++ x) : BitVec 32) &&& 0xFFE00000#32 = op ++ (r ++ 0#21) := by
  have hm : ∀ k < 32, (0xFFE00000#32).getLsbD k = decide (21 ≤ k) := by decide
  apply BitVec.eq_of_getLsbD_eq
  intro k hk
  rw [BitVec.getLsbD_and, hm k hk]
  simp only [BitVec.getLsbD_append]
  by_cases h : 21 ≤ k
  · simp [h, Nat.not_lt.mpr h]
  · have h1 : k < 24 := by omega
    have h2 : k < 21 := by omega
    simp [h1, h2]

/-- Only the opcode and the eight reserved bits survive the mask of form T. -/
theorem TableRow.mask_tag (op r : Byte) (x : BitVec 16) :
    (op ++ (r ++ x) : BitVec 32) &&& 0xFFFF0000#32 = op ++ (r ++ 0#16) := by
  have hm : ∀ k < 32, (0xFFFF0000#32).getLsbD k = decide (16 ≤ k) := by decide
  apply BitVec.eq_of_getLsbD_eq
  intro k hk
  rw [BitVec.getLsbD_and, hm k hk]
  simp only [BitVec.getLsbD_append]
  by_cases h : 16 ≤ k
  · simp [h, Nat.not_lt.mpr h]
  · have h1 : k < 24 := by omega
    have h2 : k < 16 := by omega
    simp [h1, h2]

/-- The operand of form B is three reserved bits before the count and the bits. -/
theorem operandB_eq (b : Bits) :
    operandB b = 0#3 ++ (BitVec.ofNat 5 b.length ++ packBits b : BitVec 21) := by
  simp only [operandB, BitVec.append_assoc]
  rfl

theorem TableRow.clr : TableRow.Statement .clr := fun _ => by decide

theorem TableRow.cnt (sym : Symbol) : TableRow.Statement (.cnt sym) := fun _ =>
  (TableRow.mask_reserved _ _ _).trans (by simp only [opcodeOf, TableRow.row]; decide)

theorem TableRow.bld : TableRow.Statement .bld := fun _ => by decide

theorem TableRow.gen : TableRow.Statement .gen := fun _ => by decide

theorem TableRow.enc (sym : Symbol) : TableRow.Statement (.enc sym) := fun _ =>
  (TableRow.mask_reserved _ _ _).trans (by simp only [opcodeOf, TableRow.row]; decide)

theorem TableRow.dbit (bits : Bits) : TableRow.Statement (.dbit bits) := fun _ => by
  simp only [encode, operandOf, operandB_eq, TableRow.mask]
  exact (TableRow.mask_reserved _ _ _).trans (by simp only [opcodeOf, TableRow.row]; decide)

theorem TableRow.dend : TableRow.Statement .dend := fun _ => by decide

theorem TableRow.lsym (sym : Symbol) : TableRow.Statement (.lsym sym) := fun _ =>
  (TableRow.mask_reserved _ _ _).trans (by simp only [opcodeOf, TableRow.row]; decide)

theorem TableRow.lbit (bits : Bits) : TableRow.Statement (.lbit bits) := fun _ => by
  simp only [encode, operandOf, operandB_eq, TableRow.mask]
  exact (TableRow.mask_reserved _ _ _).trans (by simp only [opcodeOf, TableRow.row]; decide)

theorem TableRow.lcom : TableRow.Statement .lcom := fun _ => by decide

theorem TableRow.lend : TableRow.Statement .lend := fun _ => by decide

theorem TableRow.dump : TableRow.Statement .dump := fun _ => by decide

theorem TableRow.qfreq (sym : Symbol) : TableRow.Statement (.qfreq sym) := fun _ =>
  (TableRow.mask_reserved _ _ _).trans (by simp only [opcodeOf, TableRow.row]; decide)

theorem TableRow.sync (tag : BitVec 16) : TableRow.Statement (.sync tag) := fun _ =>
  (TableRow.mask_tag _ _ _).trans (by simp only [opcodeOf, TableRow.row]; decide)

end Sys2Proof.Laws
end

