-- ==== Sys2Proof/Laws/Streams.lean ====
section
/-!
SUPPORT. What the bit-stream operations can do: one decoded bit (46_decode.md R124), Chunks (30_encoding.md R84),
and the operand forms of Decode (R67 to R70).
-/

namespace Sys2Proof.Laws

open Sys2Proof.Machine Sys2Proof.Safety

/-! ## Operand forms -/

theorem decodeS_ok {w : Word} {k : Symbol → Instr} {i : Instr} :
    decodeS w k = .ok i ↔ w.extractLsb' 21 3 = 0#3 ∧ k (w.extractLsb' 0 21) = i := by
  unfold decodeS
  split <;> simp_all

theorem decodeT_ok {w : Word} {k : BitVec 16 → Instr} {i : Instr} :
    decodeT w k = .ok i ↔ w.extractLsb' 16 8 = 0#8 ∧ k (w.extractLsb' 0 16) = i := by
  unfold decodeT
  split <;> simp_all

theorem decodeZ_ok {w : Word} {j i : Instr} :
    decodeZ w j = .ok i ↔ w.extractLsb' 0 24 = 0#24 ∧ j = i := by
  unfold decodeZ
  split <;> simp_all

theorem decodeB_ok {w : Word} {k : Bits → Instr} {i : Instr} :
    decodeB w k = .ok i ↔
      w.extractLsb' 21 3 = 0#3 ∧ (1 ≤ countB w ∧ countB w ≤ 16) ∧
        unusedZero w (countB w) = true ∧ k (bitstr w (countB w)) = i := by
  unfold decodeB
  by_cases h1 : w.extractLsb' 21 3 = 0#3
  · by_cases h2 : countB w = 0 ∨ 16 < countB w
    · have h3 : ¬ (1 ≤ countB w ∧ countB w ≤ 16) := by omega
      simp only [h1, ne_eq, not_true_eq_false, if_false, h2, if_true, h3, false_and, and_false]
      simp
    · have h3 : 1 ≤ countB w ∧ countB w ≤ 16 := by omega
      simp only [h1, ne_eq, not_true_eq_false, if_false, h2, h3, true_and, and_self]
      cases unusedZero w (countB w) <;> simp
  · simp [h1]

/-! ## One decoded bit -/

/-- Everything DecodeBit can do. -/
theorem decodeBit_cases (ct : List CodeEntry) (d : Bits) (b : Bool) :
    (∃ e, matchC ct (d ++ [b]) = some e ∧ decodeBit ct d b = some ([], [symWord e.sym])) ∨
    (matchC ct (d ++ [b]) = none ∧ extends? ct (d ++ [b]) = true ∧
      decodeBit ct d b = some (d ++ [b], [])) ∨
    (matchC ct (d ++ [b]) = none ∧ extends? ct (d ++ [b]) = false ∧ decodeBit ct d b = none) := by
  unfold decodeBit
  cases hm : matchC ct (d ++ [b]) with
  | some e => exact .inl ⟨e, rfl, rfl⟩
  | none =>
    cases he : extends? ct (d ++ [b])
    · exact .inr (.inr ⟨rfl, rfl, rfl⟩)
    · exact .inr (.inl ⟨rfl, rfl, rfl⟩)

/-- The loop over a bit string cut in two. -/
theorem decodeBits_append (ct : List CodeEntry) (d x y : Bits) :
    decodeBits ct d (x ++ y) =
      match (decodeBits ct d x).1 with
      | none => decodeBits ct d x
      | some d' => ((decodeBits ct d' y).1, (decodeBits ct d x).2 ++ (decodeBits ct d' y).2) := by
  induction x generalizing d with
  | nil => simp [decodeBits]
  | cons b x ih =>
    simp only [List.cons_append, decodeBits]
    cases hb : decodeBit ct d b with
    | none => rfl
    | some r =>
      obtain ⟨d', out⟩ := r
      simp only [ih]
      cases hr : (decodeBits ct d' x).1 <;> simp [hr]

/-! ## Chunks -/

/-- Fuel beyond the length of the string changes nothing. -/
theorem chunksFrom_fuel (m n : Nat) (c : Bits) (hm : c.length ≤ m) (hn : c.length ≤ n) :
    chunksFrom m c = chunksFrom n c := by
  induction m generalizing n c with
  | zero =>
    have : c = [] := by simpa using hm
    subst this
    cases n <;> rfl
  | succ m ih =>
    match c, n with
    | [], 0 => rfl
    | [], _ + 1 => rfl
    | b :: bs, 0 => simp at hn
    | b :: bs, n + 1 =>
      simp only [chunksFrom]
      rw [ih n _ (by simp at hm ⊢; omega) (by simp at hn ⊢; omega)]

/-- One word for the first 16 bits, then the chunks of the rest. -/
theorem chunks_step {c : Bits} (h : c ≠ []) :
    chunks c = bitsWord (c.take 16) :: chunks (c.drop 16) := by
  match c, h with
  | b :: bs, _ =>
    simp only [chunks, List.length_cons, chunksFrom]
    rw [chunksFrom_fuel bs.length _ _ (by simp) (Nat.le_refl _)]

theorem chunks_nil : chunks [] = [] := rfl

end Sys2Proof.Laws
end

