-- ==== Sys2Proof/Laws/Tree.lean ====
section
/-!
SUPPORT. What one extraction of the tree builder (42_tree.md R106) can give, and the arena under appending.
-/

namespace Sys2Proof.Laws

open Sys2Proof.Machine Sys2Proof.Safety

theorem mem_minimals {nodes : List Node} {live : List Nat} {x : Nat} :
    x ∈ minimals nodes live ↔ MinimalIn nodes live x := by
  simp [minimals, MinimalIn]

/-- A non-empty collection has a member of minimal frequency. -/
theorem exists_minimalIn (nodes : List Node) (live : List Nat) (h : live ≠ []) :
    ∃ x, MinimalIn nodes live x := by
  induction live with
  | nil => exact absurd rfl h
  | cons a as ih =>
    by_cases has : as = []
    · exact ⟨a, by simp [has, MinimalIn]⟩
    obtain ⟨x, hx, hm⟩ := ih has
    by_cases hl : freqAt nodes a ≤ freqAt nodes x
    · refine ⟨a, by simp, fun y hy => ?_⟩
      rcases List.mem_cons.mp hy with rfl | hy
      · exact le_refl _
      · exact hl.trans (hm y hy)
    · refine ⟨x, by simp [hx], fun y hy => ?_⟩
      rcases List.mem_cons.mp hy with rfl | hy
      · omega
      · exact hm y hy

/-- Every draw picks a member. -/
theorem pick_mem (r : Nat) (l : List Nat) (h : l ≠ []) : pick r l ∈ l := by
  match l, h with
  | [x], _ => simp [pick]
  | x :: y :: rest, _ =>
    have hl : r % (x :: y :: rest).length < (x :: y :: rest).length := Nat.mod_lt _ (by simp)
    show (x :: y :: rest).getD (r % (x :: y :: rest).length) x ∈ _
    rw [List.getD_eq_getElem _ _ hl]
    exact List.getElem_mem _

/-- Every member is picked by some draw. -/
theorem exists_pick (l : List Nat) (x : Nat) (h : x ∈ l) : ∃ r, pick r l = x := by
  match l, h with
  | [y], h => exact ⟨0, by simp at h; simp [pick, h]⟩
  | a :: b :: rest, h =>
    obtain ⟨j, hj, he⟩ := List.getElem_of_mem h
    refine ⟨j, ?_⟩
    simp only [pick, Nat.mod_eq_of_lt hj]
    rw [List.getD_eq_getElem _ _ hj, he]

/-- An extraction gives a member of minimal frequency. -/
theorem extract_minimalIn (r : Nat) (nodes : List Node) (live : List Nat) (h : live ≠ []) :
    MinimalIn nodes live (extract r nodes live) := by
  obtain ⟨x, hx⟩ := exists_minimalIn nodes live h
  exact mem_minimals.mp (pick_mem _ _ (List.ne_nil_of_mem (mem_minimals.mpr hx)))

/-- Every member of minimal frequency is extracted by some draw. -/
theorem exists_extract {nodes : List Node} {live : List Nat} {x : Nat}
    (h : MinimalIn nodes live x) : ∃ r, extract r nodes live = x :=
  exists_pick _ _ (mem_minimals.mpr h)

theorem freqAt_append_left {nodes : List Node} {n : Node} {k : Nat} (h : k < nodes.length) :
    freqAt (nodes ++ [n]) k = freqAt nodes k := by
  simp [freqAt, List.getElem?_append_left h]

theorem freqAt_append_last (nodes : List Node) (n : Node) :
    freqAt (nodes ++ [n]) nodes.length = n.freq := by
  simp [freqAt]

theorem children_append (nodes : List Node) (n : Node) :
    children (nodes ++ [n]) = children nodes ++ childrenOf n := by
  simp [children]

end Sys2Proof.Laws
end

