-- ==== Sys2Proof/Tests/Slice0.lean ====
section
/-!
SUPPORT. Small tests, their expected values from spec/95_test_vectors.md (the vector is named in each comment)
or from a word written out bit by bit, and for each statement with hypotheses a witness that meets them.
-/

namespace Sys2Proof.Tests

open Sys2Proof.Machine Sys2Proof.Safety

/-! ## Well-formedness: an ill-formed term for each check -/

theorem test_wf_refuses_dbit_of_no_bits : (Instr.dbit []).wf = false := by decide
theorem test_wf_refuses_dbit_of_17_bits : (Instr.dbit (List.replicate 17 true)).wf = false := by
  decide
theorem test_wf_refuses_lbit_of_no_bits : (Instr.lbit []).wf = false := by decide
theorem test_wf_refuses_lbit_of_17_bits : (Instr.lbit (List.replicate 17 false)).wf = false := by
  decide
theorem test_wf_takes_dbit_of_16_bits : (Instr.dbit (List.replicate 16 true)).wf = true := by decide

/-! ## Decode: words written out bit by bit from 30_encoding.md R66 to R72 -/

-- opcode, 24 reserved bits
theorem test_word_clr : decode 0b00000001000000000000000000000000#32 = .ok .clr := by rfl
-- opcode, 3 reserved bits, 21 symbol bits: U+10FFFF (vector F4)
theorem test_word_cnt : decode 0b00000010000100001111111111111111#32 = .ok (.cnt 0x10FFFF#21) := by rfl
theorem test_word_bld : decode 0b00000011000000000000000000000000#32 = .ok .bld := by rfl
theorem test_word_gen : decode 0b00000100000000000000000000000000#32 = .ok .gen := by rfl
theorem test_word_enc : decode 0b00000101000000000000000001100010#32 = .ok (.enc 0x62#21) := by rfl
-- opcode, 3 reserved bits, n = 5, then 01011 from bit 15 down (vector D1)
theorem test_word_dbit :
    decode 0b00000110000001010101100000000000#32 = .ok (.dbit [false, true, false, true, true]) := by rfl
theorem test_word_dend : decode 0b00000111000000000000000000000000#32 = .ok .dend := by rfl
theorem test_word_lsym : decode 0b00001000000000000000000001111000#32 = .ok (.lsym 0x78#21) := by rfl
-- n = 2, then 10 (vector L1b)
theorem test_word_lbit : decode 0b00001001000000101000000000000000#32 = .ok (.lbit [true, false]) := by
  rfl
theorem test_word_lcom : decode 0b00001010000000000000000000000000#32 = .ok .lcom := by rfl
theorem test_word_lend : decode 0b00001011000000000000000000000000#32 = .ok .lend := by rfl
theorem test_word_dump : decode 0b00001100000000000000000000000000#32 = .ok .dump := by rfl
theorem test_word_qfreq : decode 0b00001101000000000000000001100001#32 = .ok (.qfreq 0x61#21) := by rfl
-- opcode, 8 reserved bits, 16 tag bits (vector C10)
theorem test_word_sync : decode 0b00001110000000001111111111111111#32 = .ok (.sync 0xFFFF#16) := by rfl
-- n = 16 (vector D13)
theorem test_word_dbit_16 : decode 0x06105AD6#32 =
    .ok (.dbit [false, true, false, true, true, false, true, false,
      true, true, false, true, false, true, true, false]) := by rfl
-- vectors C6, C6c, C6b, C4, F8, C3, D9, D10, D11, D12
theorem test_illegal_words :
    decode 0x00000000#32 = .error .reservedOpcode ∧ decode 0x0F000000#32 = .error .reservedOpcode ∧
    decode 0xFF000000#32 = .error .reservedOpcode ∧ decode 0x01000001#32 = .error .reservedBits ∧
    decode 0x02200061#32 = .error .reservedBits ∧ decode 0x0E010000#32 = .error .reservedBits ∧
    decode 0x06000000#32 = .error .badCount ∧ decode 0x06110000#32 = .error .badCount ∧
    decode 0x06018001#32 = .error .unusedBits ∧ decode 0x06218000#32 = .error .reservedBits :=
  ⟨rfl, rfl, rfl, rfl, rfl, rfl, rfl, rfl, rfl, rfl⟩
-- encode, against the words of vectors F1, D1, L1b and C10
theorem test_encode :
    encode (.cnt 0x61#21) = 0x02000061#32 ∧
    encode (.dbit [false, true, false, true, true]) = 0x06055800#32 ∧
    encode (.lbit [true, false]) = 0x09028000#32 ∧ encode (.sync 0xFFFF#16) = 0x0E00FFFF#32 := by
  decide
theorem test_decodeTableWord : decodeTableWord 32 0x0D000061 = some (.qfreq 0x61#21) := by rfl

/-! ## States for the tests -/

/-- The state after one command. -/
def after (i : Instr) (s : State) : State :=
  match exec i s with
  | .next t => t
  | .fault _ => s
  | .refused _ => s

/-- The state after one step. -/
def stepped (s : State) : State :=
  match step s with
  | .next t => t
  | .fault _ => s
  | .refused _ => s

def symA : Symbol := 0x61#21
def symB : Symbol := 0x62#21
def symX : Symbol := 0x78#21
def symY : Symbol := 0x79#21
def symZ : Symbol := 0x7A#21

/-- Phase COUNTING after "aab". -/
def countedAab : State :=
  { State.reset with phase := .counting, ft := [⟨symA, 2⟩, ⟨symB, 1⟩], total := 3 }

/-- The one tree of "aab": b is the lighter leaf, so the left child. -/
def treeAab : HTree := ⟨[.leaf symA 2, .leaf symB 1, .internal 1 0 3], 2⟩

/-- Phase TREE after "aab". -/
def builtAab : State := { countedAab with phase := .tree, tree := some treeAab }

/-- The code table of the start state SX. -/
def tableXyz : List CodeEntry := [⟨symX, [false]⟩, ⟨symY, [true, false]⟩, ⟨symZ, [true, true]⟩]

/-- The start state SX: phase CODES. -/
def loadedXyz : State := { State.reset with phase := .codes, ct := tableXyz }

/-- Phase LOADING with "0" for x in CT and an entry for y open. -/
def loadingXy (code : Bits) : State :=
  { State.reset with phase := .loading, ct := [⟨symX, [false]⟩], stage := some ⟨symY, code⟩ }

/-- Phase LOADING with "0" for x in CT and nothing open. -/
def loadingX : State := { State.reset with phase := .loading, ct := [⟨symX, [false]⟩] }

/-- The start state SE: phase ERROR after BLD of the empty input. -/
def failedBld : State :=
  { State.reset with phase := .error, errcode := .emptyInput, errop := 0x03#8 }

/-! ## One command each -/

-- F1
theorem test_cnt_new_symbol :
    (after (.cnt symA) State.reset).ft = [⟨symA, 1⟩] ∧
      statusWord (after (.cnt symA) State.reset) = 0x00001001#32 := by decide
-- F11: COUNT_OVERFLOW before TABLE_FULL
theorem test_cnt_overflow_first :
    (after (.cnt 0x63#21) { countedAab with par := ⟨2, 2, 1, 16, 16⟩ }).pend = [0xEE020009#32] := by
  decide
-- F2
theorem test_qfreq_counts :
    (after (.qfreq symA) countedAab).pend = [0x83000061#32, 0x00000002#32] := by decide
-- F15
theorem test_qfreq_surrogate : (after (.qfreq 0x00D800#21) State.reset).pend = [0xEE0D0006#32] := by
  decide
-- F14, T7's rule: the lighter node is the left child
theorem test_bld_without_ties : (after .bld countedAab).tree = some treeAab := by decide
-- T1: the draws of INDEX_ORDER
theorem test_bld_index_order :
    (buildTree (fun _ => 0) 0
      [⟨0x61#21, 5⟩, ⟨0x62#21, 2⟩, ⟨0x72#21, 2⟩, ⟨0x63#21, 1⟩, ⟨0x64#21, 1⟩]).nodes.drop 5 =
        [.internal 3 4 2, .internal 1 2 4, .internal 5 6 6, .internal 0 7 11] := by decide
-- G1's rule (R112): a left edge is 0; CT in slot order
theorem test_gen_writes_codes :
    (after .gen builtAab).ct = [⟨symA, [true]⟩, ⟨symB, [false]⟩] := by decide
-- G5 (R113): the lone leaf
theorem test_gen_lone_leaf :
    (after .gen { State.reset with
      phase := .tree, ft := [⟨symA, 4⟩], total := 4, tree := some ⟨[.leaf symA 4], 0⟩ }).ct =
        [⟨symA, [false]⟩] := by decide
-- E1's chunk of "10" for y
theorem test_enc_code : (after (.enc symY) loadedXyz).pend = [0x81028000#32] := by decide
-- E3
theorem test_enc_missing : (after (.enc symA) loadedXyz).pend = [0xEE050002#32] := by decide
-- D1
theorem test_dbit_decodes :
    (after (.dbit [false, true, false, true, true]) loadedXyz).pend =
      [0x82000078#32, 0x82000079#32, 0x8200007A#32] := by decide
-- D6: the SYM words before the failing bit stay
theorem test_dbit_unmatched :
    (after (.dbit [false, true, false, true, true]) { loadedXyz with ct := tableXyz.take 2 }).pend =
      [0x82000078#32, 0x82000079#32, 0xEE060004#32] := by decide
-- D3
theorem test_dend_done : (after .dend loadedXyz).pend = [0x85070000#32] := by decide
-- D2b
theorem test_dend_inside_code :
    statusWord { after .dend { loadedXyz with dpre := [true] } with pend := [] } = 0x00001057#32 := by
  decide
-- L1
theorem test_lsym_opens : statusWord (after (.lsym symX) State.reset) = 0x00001084#32 := by decide
-- L7
theorem test_lsym_entry_open : (after (.lsym symZ) (loadingXy [])).pend = [0xEE080003#32] := by decide
-- L1b
theorem test_lbit_appends :
    (after (.lbit [true, false]) (loadingXy [])).stage = some ⟨symY, [true, false]⟩ := by decide
-- L10
theorem test_lbit_too_long :
    (after (.lbit [true]) { loadingXy [true, false] with par := ⟨256, 32, 2, 16, 16⟩ }).pend =
      [0xEE09000A#32] := by decide
-- L2
theorem test_lcom_commits :
    (after .lcom (loadingXy [true, false])).ct = [⟨symX, [false]⟩, ⟨symY, [true, false]⟩] := by decide
-- L3
theorem test_lcom_prefix : (after .lcom (loadingXy [false, true])).pend = [0xEE0A0003#32] := by decide
-- L2
theorem test_lend_completes : statusWord (after .lend loadingX) = 0x00001003#32 := by decide
-- L8
theorem test_lend_entry_open : (after .lend (loadingXy [])).pend = [0xEE0B0003#32] := by decide
-- G5
theorem test_dump_reads_out :
    (after .dump { loadedXyz with ct := [⟨symA, [false]⟩] }).pend =
      [0x84000061#32, 0x81010000#32, 0x850C0000#32] := by decide
-- G6
theorem test_dump_out_of_phase : (after .dump builtAab).pend = [0xEE0C0007#32] := by decide
-- C2b
theorem test_sync_in_error : (after (.sync 0x0001#16) failedBld).pend = [0x86010001#32] := by decide
-- C2
theorem test_sync : (after (.sync 0x0001#16) State.reset).pend = [0x86000001#32] := by decide
-- C1
theorem test_clr_recovers : statusWord (after .clr failedBld) = 0x00001000#32 := by decide
-- E5: a 17-bit code is a full word and a word with n = 1
theorem test_chunks_of_17_bits :
    chunks (List.replicate 17 true) = [0x8110FFFF#32, 0x81018000#32] := by decide

/-! ## Steps -/

-- C6b
theorem test_step_illegal_word :
    (stepped (State.reset.withFetchWord 32 0xFF000000)).pend = [0xEEFF0005#32] := by decide
theorem test_step_runs_placed_word :
    (stepped (State.reset.withFetchWord 32 0x02000061)).ft = [⟨symA, 1⟩] := by decide
-- H1: one DELIVER
theorem test_step_delivers :
    (stepped { State.reset with pend := [0x83000061#32, 0x00000000#32] }).rspq = [0x83000061#32] := by
  decide
-- H4: RSPQ full, the CORE holds
theorem test_step_holds :
    stepped { State.reset with
      par := ⟨256, 32, 255, 16, 1⟩, pend := [0x850C0000#32], rspq := [0x81010000#32] } =
      { State.reset with
        par := ⟨256, 32, 255, 16, 1⟩, pend := [0x850C0000#32], rspq := [0x81010000#32] } := by decide
-- 93_implementation_defined.md I15: RSPQ full, PEND empty and a command queued: the CORE is stuck
theorem test_step_holds_command :
    stepped { State.reset with
      par := ⟨256, 32, 255, 16, 1⟩, cmdq := [0x01000000#32], rspq := [0x81010000#32] } =
      { State.reset with
        par := ⟨256, 32, 255, 16, 1⟩, cmdq := [0x01000000#32], rspq := [0x81010000#32] } := by decide
-- H2: the third write overflows
theorem test_cmd_write_overflow :
    errinfoWord (writeReg 0x00 0x03000000#32 { State.reset with
      par := ⟨256, 32, 255, 2, 16⟩, cmdq := [0x02000061#32, 0x02000062#32] }) = 0x0000030B#32 := by
  decide
-- H1: the third read of RSP is of an empty queue
theorem test_rsp_read_empty : readReg 0x04 State.reset =
    { State.reset with busData := some 0x00000000#32 } := by decide
-- H5
theorem test_srst_empties_rspq :
    statusWord (writeReg 0x20 0x00000001#32
      { State.reset with rspq := [0x83000061#32, 0x00000000#32] }) = 0x00001000#32 := by decide
-- S0
theorem test_cfg : cfg0Word State.reset.par = 0x00FF0100#32 ∧
    cfg1Word State.reset.par = 0x01101020#32 := by decide

/-! ## Witnesses: what meets the hypotheses of each statement -/

/-- `s` with a HOST read of the register at `off` next. -/
def beforeRead (off : Nat) (s : State) : State :=
  { s with env := [.read (Config.hufBase + off) .word] }

/-- `s` with a HOST write of the register at `off` next. -/
def beforeWrite (off : Nat) (v : Word) (s : State) : State :=
  { s with env := [.write (Config.hufBase + off) .word v] }

/-- `s` with the word `w` alone in CMDQ, nothing pending, RSPQ empty and the CORE's turn next. -/
def beforeExec (w : Word) (s : State) : State :=
  { s with cmdq := [w], pend := [], rspq := [], env := [] }

theorem reads_beforeRead (off : Nat) (s : State) :
    Reads (beforeRead off s) off { beforeRead off s with env := [] } := ⟨[], rfl, rfl⟩

theorem writes_beforeWrite (off : Nat) (v : Word) (s : State) :
    Writes (beforeWrite off v s) off v { beforeWrite off v s with env := [] } := ⟨[], rfl, rfl⟩

theorem executes_beforeExec (w : Word) (s : State) (h : 0 < s.par.rspqDepth) :
    Executes (beforeExec w s) w { beforeExec w s with cmdq := [], env := [] } :=
  ⟨[], [], .inl ⟨rfl, rfl⟩, h, rfl, rfl, rfl⟩

theorem legal_dbit_1 : LegalWord 0x06018000#32 := by
  refine .inr (.inl ⟨by decide, by decide, by decide, by decide, fun k hk => ?_⟩)
  have h : (BitVec.extractLsb' 16 5 0x06018000#32).toNat = 1 := by decide
  have hlt : k < 15 := by omega
  have hall : ∀ k < 15, (0x06018000#32).getLsbD k = false := by decide
  exact hall k hlt

theorem legal_dbit_16 : LegalWord 0x06105AD6#32 := by
  refine .inr (.inl ⟨by decide, by decide, by decide, by decide, fun k hk => ?_⟩)
  have h : (BitVec.extractLsb' 16 5 0x06105AD6#32).toNat = 16 := by decide
  omega

theorem not_legal_of_opcode (w : Word) (h1 : w.extractLsb' 24 8 ∉ formS)
    (h2 : w.extractLsb' 24 8 ∉ formB) (h3 : w.extractLsb' 24 8 ∉ formT)
    (h4 : w.extractLsb' 24 8 ∉ formZ) : ¬ LegalWord w := by
  rintro (⟨h, _⟩ | ⟨h, _⟩ | ⟨h, _⟩ | ⟨h, _⟩)
  · exact h1 h
  · exact h2 h
  · exact h3 h
  · exact h4 h

theorem not_legal_zero : ¬ LegalWord 0x00000000#32 :=
  not_legal_of_opcode _ (by decide) (by decide) (by decide) (by decide)

theorem not_legal_0F : ¬ LegalWord 0x0F000000#32 :=
  not_legal_of_opcode _ (by decide) (by decide) (by decide) (by decide)

theorem not_legal_dbit_17 : ¬ LegalWord 0x06110000#32 := by
  rintro (⟨h, _⟩ | ⟨_, _, _, h, _⟩ | ⟨h, _⟩ | ⟨h, _⟩) <;> revert h <;> decide

theorem witness_EncodeThenDecodeGivesTheCommand :
    Instr.clr.wf = true ∧ (Instr.cnt 0x10FFFF#21).wf = true ∧ (Instr.dbit [true]).wf = true ∧
      (Instr.lbit (List.replicate 16 true)).wf = true ∧ (Instr.sync 0xFFFF#16).wf = true := by decide

theorem witness_DecodedCommandEncodesBack :
    decode 0x0A000000#32 = .ok .lcom ∧ decode 0x06018000#32 = .ok (.dbit [true]) := ⟨rfl, rfl⟩

theorem witness_DecodeAcceptsExactlyTheLegalWords :
    LegalWord 0x02000061#32 ∧ LegalWord 0x06018000#32 ∧ LegalWord 0x06105AD6#32 ∧
      LegalWord 0x0E00FFFF#32 ∧ LegalWord 0x01000000#32 ∧ ¬ LegalWord 0x00000000#32 ∧
      ¬ LegalWord 0x0F000000#32 ∧ ¬ LegalWord 0x06110000#32 :=
  ⟨.inl (by decide), legal_dbit_1, legal_dbit_16, .inr (.inr (.inl (by decide))),
    .inr (.inr (.inr (by decide))), not_legal_zero, not_legal_0F, not_legal_dbit_17⟩

/-- CMDQ with 15 of its 16 places taken, and with all. -/
theorem witness_CmdWriteQueuesOrDropsTheWord :
    (∃ u, Writes (beforeWrite 0x00 0x03000000#32
      { State.reset with cmdq := List.replicate 15 0x02000061#32 }) 0x00 0x03000000#32 u) ∧
    (List.replicate 15 0x02000061#32).length < State.reset.par.cmdqDepth ∧
    (∃ u, Writes (beforeWrite 0x00 0x03000000#32
      { State.reset with cmdq := List.replicate 16 0x02000061#32 }) 0x00 0x03000000#32 u) ∧
    ¬ (List.replicate 16 0x02000061#32).length < State.reset.par.cmdqDepth ∧
    State.reset.phase ≠ .error ∧
    (∃ u, Writes (beforeWrite 0x00 0x03000000#32
      { failedBld with cmdq := List.replicate 16 0x02000061#32 }) 0x00 0x03000000#32 u) ∧
    failedBld.phase = .error ∧ (∃ u, Reads (beforeRead 0x00 State.reset) 0x00 u) :=
  ⟨⟨_, writes_beforeWrite _ _ _⟩, by decide, ⟨_, writes_beforeWrite _ _ _⟩, by decide, by decide,
    ⟨_, writes_beforeWrite _ _ _⟩, by decide, ⟨_, reads_beforeRead _ _⟩⟩

theorem witness_RspReadTakesTheOldestResponse :
    (∃ u, Reads (beforeRead 0x04 { State.reset with rspq := [0x83000061#32] }) 0x04 u) ∧
    (∃ u, Reads (beforeRead 0x04 State.reset) 0x04 u) ∧ State.reset.rspq = [] ∧
    (∃ u, Writes (beforeWrite 0x04 0x00000001#32 State.reset) 0x04 0x00000001#32 u) :=
  ⟨⟨_, reads_beforeRead _ _⟩, ⟨_, reads_beforeRead _ _⟩, rfl, ⟨_, writes_beforeWrite _ _ _⟩⟩

/-- A read of STATUS can meet each of the six phases. -/
theorem witness_StatusShowsTheState :
    (∀ p : Phase, ∃ u,
      Reads (beforeRead 0x08 { State.reset with phase := p }) 0x08 u ∧
      (beforeRead 0x08 { State.reset with phase := p }).phase = p) ∧
    (∃ u, Writes (beforeWrite 0x08 0xFFFFFFFF#32 State.reset) 0x08 0xFFFFFFFF#32 u) :=
  ⟨fun _ => ⟨_, reads_beforeRead _ _, rfl⟩, ⟨_, writes_beforeWrite _ _ _⟩⟩

theorem witness_ErrinfoCountsAndTotalShowTheState :
    (∃ u, Reads (beforeRead 0x0C failedBld) 0x0C u) ∧
    (∃ u, Reads (beforeRead 0x10 loadedXyz) 0x10 u) ∧
    (∃ u, Reads (beforeRead 0x14 countedAab) 0x14 u) ∧
    (∃ u, Writes (beforeWrite 0x0C 0#32 failedBld) 0x0C 0#32 u) ∧
    (∃ u, Writes (beforeWrite 0x10 0#32 loadedXyz) 0x10 0#32 u) ∧
    (∃ u, Writes (beforeWrite 0x14 0#32 countedAab) 0x14 0#32 u) :=
  ⟨⟨_, reads_beforeRead _ _⟩, ⟨_, reads_beforeRead _ _⟩, ⟨_, reads_beforeRead _ _⟩,
    ⟨_, writes_beforeWrite _ _ _⟩, ⟨_, writes_beforeWrite _ _ _⟩, ⟨_, writes_beforeWrite _ _ _⟩⟩

theorem witness_ConfigurationRegistersShowTheParameters :
    (∃ u, Reads (beforeRead 0x18 State.reset) 0x18 u) ∧
    (∃ u, Reads (beforeRead 0x1C State.reset) 0x1C u) ∧
    (∃ u, Writes (beforeWrite 0x18 0#32 State.reset) 0x18 0#32 u) ∧
    (∃ u, Writes (beforeWrite 0x1C 0#32 State.reset) 0x1C 0#32 u) :=
  ⟨⟨_, reads_beforeRead _ _⟩, ⟨_, reads_beforeRead _ _⟩,
    ⟨_, writes_beforeWrite _ _ _⟩, ⟨_, writes_beforeWrite _ _ _⟩⟩

/-- Both ends of the reserved range, and a read of STATUS and of ERRINFO that answers. -/
theorem witness_ReservedOffsetsAndFieldsReadZero :
    (∃ u, Reads (beforeRead 0x24 State.reset) 0x24 u) ∧
    (∃ u, Reads (beforeRead 0x3C State.reset) 0x3C u) ∧
    (∃ u, Writes (beforeWrite 0x24 0x00000001#32 State.reset) 0x24 0x00000001#32 u) ∧
    (∃ u, Writes (beforeWrite 0x3C 0x00000001#32 State.reset) 0x3C 0x00000001#32 u) ∧
    (∃ t w, step (beforeRead 0x08 failedBld) = .next t ∧ t.busData = some w) ∧
    (∃ t w, step (beforeRead 0x0C failedBld) = .next t ∧ t.busData = some w) :=
  ⟨⟨_, reads_beforeRead _ _⟩, ⟨_, reads_beforeRead _ _⟩, ⟨_, writes_beforeWrite _ _ _⟩,
    ⟨_, writes_beforeWrite _ _ _⟩,
    ⟨_, _, Laws.step_reads (reads_beforeRead _ _) (by decide) (by decide), rfl⟩,
    ⟨_, _, Laws.step_reads (reads_beforeRead _ _) (by decide) (by decide), rfl⟩⟩

/-- The first and the last register, twice in a row, and a write of CTRL with bit 0 = 0. -/
theorem witness_OnlyThreeAccessesHaveASideEffect :
    (∃ u, Reads (beforeRead 0x00 State.reset) 0x00 u) ∧
    (∃ u, Reads (beforeRead 0x3C State.reset) 0x3C u) ∧
    (∃ u u', Reads { State.reset with env :=
      [.read (Config.hufBase + 0x08) .word, .read (Config.hufBase + 0x08) .word] } 0x08 u ∧
      Reads { u with busData := some (statusWord u) } 0x08 u') ∧
    (∃ u, Writes (beforeWrite 0x20 0xFFFFFFFE#32 countedAab) 0x20 0xFFFFFFFE#32 u) ∧
    (0xFFFFFFFE#32).getLsbD 0 = false ∧
    (∃ u, Writes (beforeWrite 0x3C 0x00000001#32 countedAab) 0x3C 0x00000001#32 u) :=
  ⟨⟨_, reads_beforeRead _ _⟩, ⟨_, reads_beforeRead _ _⟩, ⟨_, _, ⟨_, rfl, rfl⟩, ⟨_, rfl, rfl⟩⟩,
    ⟨_, writes_beforeWrite _ _ _⟩, by decide, ⟨_, writes_beforeWrite _ _ _⟩⟩

/-- A byte access, and one just past the window, on either side of the equivalence. -/
theorem witness_StepFaultsExactlyOnABadHostAccess :
    step { State.reset with env := [.read Config.hufBase .byte] } = .fault .busError ∧
    step { State.reset with env := [.write (Config.hufBase + 0x02) .word 0#32] } = .fault .busError ∧
    step { State.reset with env := [.read (Config.hufBase + 0x40) .word] } = .fault .outsideWindow := by
  simp [step, nextMove, takeMove, hostRead, hostWrite, admitAccess, windowOffset]

theorem witness_ResetTakesEveryFieldToItsResetValue :
    (∃ u, Resets { loadedXyz with env := [.rst] } u) ∧
    (∃ u, Resets (beforeWrite 0x20 0x00000001#32 loadedXyz) u) ∧
    (∃ u, Writes (beforeWrite 0x20 0x00000000#32 loadedXyz) 0x20 0x00000000#32 u) ∧
    (0x00000000#32).getLsbD 0 = false ∧ (∃ u, Reads (beforeRead 0x20 loadedXyz) 0x20 u) :=
  ⟨⟨_, .inl ⟨_, rfl, rfl⟩⟩, ⟨_, .inr ⟨_, by decide, writes_beforeWrite _ _ _⟩⟩,
    ⟨_, writes_beforeWrite _ _ _⟩, by decide, ⟨_, reads_beforeRead _ _⟩⟩

theorem witness_StepRunsTheDecodedCommand :
    (∃ u, Executes (beforeExec 0x03000000#32 countedAab) 0x03000000#32 u) ∧
    decode 0x03000000#32 = .ok .bld := ⟨⟨_, executes_beforeExec _ _ (by decide)⟩, rfl⟩

theorem witness_IllegalWordsRaiseIllegalCommand :
    (∃ u, Executes (beforeExec 0x00000000#32 State.reset) 0x00000000#32 u) ∧
    (∃ u, Executes (beforeExec 0x06110000#32 failedBld) 0x06110000#32 u) ∧
    ¬ LegalWord 0x00000000#32 ∧ ¬ LegalWord 0x06110000#32 ∧
    State.reset.phase ≠ .error ∧ failedBld.phase = .error :=
  ⟨⟨_, executes_beforeExec _ _ (by decide)⟩, ⟨_, executes_beforeExec _ _ (by decide)⟩, not_legal_zero, not_legal_dbit_17,
    by decide, rfl⟩

theorem witness_ErrorPhaseActsOnlyOnClrAndSync :
    (∃ u, Executes (beforeExec 0x01000000#32 failedBld) 0x01000000#32 u) ∧
    (∃ u, Executes (beforeExec 0x0E00FFFF#32 failedBld) 0x0E00FFFF#32 u) ∧
    (∃ u, Executes (beforeExec 0x0E010000#32 failedBld) 0x0E010000#32 u) ∧
    (0x0E00FFFF#32).extractLsb' 24 8 = 0x0E#8 ∧ (0x0E00FFFF#32).extractLsb' 16 8 = 0x00#8 ∧
    (0x0E010000#32).extractLsb' 16 8 ≠ 0x00#8 ∧ failedBld.phase = .error :=
  ⟨⟨_, executes_beforeExec _ _ (by decide)⟩, ⟨_, executes_beforeExec _ _ (by decide)⟩, ⟨_, executes_beforeExec _ _ (by decide)⟩,
    by decide, by decide, by decide, rfl⟩

/-- RSPQ with 15 of its 16 places taken; with all, PEND not empty and empty; and nothing to do. -/
theorem witness_DeliverMovesOneWordOrTheCoreHolds :
    CoreTurn { State.reset with pend := [0x85070000#32], rspq := List.replicate 15 0#32 } [] ∧
    (List.replicate 15 (0#32)).length < State.reset.par.rspqDepth ∧
    CoreTurn { State.reset with
      pend := [0x85070000#32], rspq := List.replicate 16 0#32, env := [.core, .rst] } [.rst] ∧
    ¬ (List.replicate 16 (0#32)).length < State.reset.par.rspqDepth ∧
    CoreTurn { State.reset with cmdq := [0x01000000#32], rspq := List.replicate 16 0#32 } [] ∧
    CoreTurn State.reset [] ∧ State.reset.pend = [] ∧ State.reset.cmdq = [] :=
  ⟨.inl ⟨rfl, rfl⟩, by decide, .inr rfl, by decide, .inl ⟨rfl, rfl⟩, .inl ⟨rfl, rfl⟩, rfl, rfl⟩

theorem not_resets_core {s : State} (h : s.env = []) (u : State) : ¬ Resets s u := by
  rintro (⟨rest, he, _⟩ | ⟨v, _, rest, he, _⟩) <;> rw [h] at he <;> cases he

theorem not_writes_core {s : State} (h : s.env = []) (off : Nat) (v : Word) (u : State) :
    ¬ Writes s off v u := by
  rintro ⟨rest, he, _⟩; rw [h] at he; cases he

theorem not_reads_core {s : State} (h : s.env = []) (off : Nat) (u : State) : ¬ Reads s off u := by
  rintro ⟨rest, he, _⟩; rw [h] at he; cases he

theorem witness_ResponsesAreNeitherLostNorReordered :
    (∃ t, step (beforeExec 0x0C000000#32 loadedXyz) = .next t) ∧
    ∀ u, ¬ Resets (beforeExec 0x0C000000#32 loadedXyz) u :=
  ⟨⟨_, rfl⟩, not_resets_core rfl⟩

theorem witness_OnlyTheHostFillsCmdqAndDrainsRspq :
    (∃ t, step (beforeExec 0x0C000000#32 loadedXyz) = .next t) ∧
    (∀ v u, ¬ Writes (beforeExec 0x0C000000#32 loadedXyz) 0x00 v u) ∧
    (∀ u, ¬ Reads (beforeExec 0x0C000000#32 loadedXyz) 0x04 u) ∧
    (∀ u, ¬ Resets (beforeExec 0x0C000000#32 loadedXyz) u) :=
  ⟨⟨_, rfl⟩, not_writes_core rfl _, not_reads_core rfl _, not_resets_core rfl⟩

theorem witness_ChunksCarryTheCode : ([true] : Bits) ≠ [] ∧ (List.replicate 17 true : Bits) ≠ [] := by
  decide

/-- An error without and with words pushed before it. -/
theorem witness_ErrorEntryIsPrecise :
    (∃ t, exec .bld State.reset = .next t ∧ t.phase = .error) ∧ State.reset.phase ≠ .error ∧
    (∃ t, exec (.dbit [false, true, true]) { loadedXyz with ct := tableXyz.take 2 } = .next t ∧
      t.phase = .error ∧ t.pend.length = 2) :=
  ⟨⟨_, rfl, rfl⟩, by decide, ⟨_, rfl, rfl, rfl⟩⟩

theorem witness_CommandsRaisePhaseErrorExactlyOutOfPhase :
    (∃ t, exec .gen State.reset = .next t ∧ t.errcode = .phaseError) ∧
    State.reset.phase ∈ refusedPhases .gen ∧
    (∃ t, exec .bld State.reset = .next t) ∧ State.reset.phase ∉ refusedPhases .bld ∧
    State.reset.phase ≠ .error :=
  ⟨⟨_, rfl, rfl⟩, by decide, ⟨_, rfl⟩, by decide, by decide⟩

theorem witness_ErrorPhaseIsLeftOnlyByClrOrReset :
    (∃ t, step (beforeExec 0x01000000#32 failedBld) = .next t ∧ t.phase ≠ .error) ∧
    (∃ t, step { failedBld with env := [.rst] } = .next t ∧ t.phase ≠ .error) ∧
    failedBld.phase = .error :=
  ⟨⟨_, rfl, by decide⟩, ⟨_, rfl, by decide⟩, rfl⟩

theorem witness_ErrorPhaseKeepsTheFirstError :
    (∃ t, step (beforeExec 0x04000000#32 failedBld) = .next t ∧ t.phase = .error) ∧
    (∃ t, step (beforeWrite 0x00 0x03000000#32
      { failedBld with cmdq := List.replicate 16 0x02000061#32 }) = .next t ∧
      t.phase = .error ∧ t.ovf = true) :=
  ⟨⟨_, rfl, rfl⟩,
    ⟨_, Laws.step_writes (writes_beforeWrite _ _ _) (by decide) (by decide), by decide, by decide⟩⟩

/-- The common checks of the symbol commands: the phase, and a surrogate at both ends of its range. -/
theorem witness_CommonChecks :
    (∃ u, Executes (beforeExec 0x02200061#32 State.reset) 0x02200061#32 u) ∧
    State.reset.phase ≠ .error ∧ ((0x02200061#32).extractLsb' 24 8 = opcodeOf (.cnt symA)) ∧ ¬ LegalWord 0x02200061#32 ∧
    failedBld.phase = .error ∧ builtAab.phase ∈ refusedPhases (.cnt symA) ∧
    State.reset.phase ∉ refusedPhases (.cnt symA) ∧ symbolOf (.cnt 0xD800#21) = some 0xD800#21 ∧
    isScalar 0xD800#21 = false ∧ isScalar 0xDFFF#21 = false ∧ isScalar 0x110000#21 = false ∧
    isScalar 0xD7FF#21 = true ∧ isScalar 0xE000#21 = true ∧ isScalar 0x10FFFF#21 = true := by
  refine ⟨⟨_, executes_beforeExec _ _ (by decide)⟩, by decide, by decide, ?_, by decide⟩
  rintro (⟨_, h⟩ | ⟨h, _⟩ | ⟨h, _⟩ | ⟨h, _⟩) <;> revert h <;> decide

/-- The last count before the overflow, a full and a not full table, a new and a known symbol. -/
theorem witness_CntCountsOneOccurrence :
    isScalar symA = true ∧ State.reset.phase = .idle ∧ countedAab.phase = .counting ∧
    ({ countedAab with par := ⟨2, 2, 1, 16, 16⟩ } : State).total = 2 ^ 2 - 1 ∧
    countedAab.total ≠ 2 ^ 32 - 1 ∧ symX ∉ countedAab.ft.map FreqEntry.sym ∧
    countedAab.ft.length = 2 ∧ countedAab.ft.length ≠ 256 ∧
    countedAab.ft = [⟨symA, 2⟩] ++ ⟨symB, 1⟩ :: [] ∧ symB ∉ [symA] := by decide

theorem witness_QfreqReportsTheCount :
    State.reset.phase ≠ .error ∧ isScalar symB = true ∧ symX ∉ countedAab.ft.map FreqEntry.sym ∧
    countedAab.ft = [⟨symA, 2⟩] ++ ⟨symB, 1⟩ :: [] ∧ symB ∉ [symA] := by decide

theorem witness_BldBuildsAnAdmissibleTree :
    State.reset.phase = .idle ∧ State.reset.ft = [] ∧ countedAab.phase = .counting ∧
    countedAab.ft ≠ [] := by decide

/-- A code one bit too long, and one of just the longest length. -/
theorem witness_GenWritesTheCodeTable :
    builtAab.phase = .tree ∧ builtAab.tree = some treeAab ∧
    (∃ i < builtAab.ft.length, 0 < (codeOf treeAab i).length) ∧
    (∀ i < builtAab.ft.length, (codeOf treeAab i).length ≤ 1) := by decide

theorem witness_DumpReadsOutTheCodeTable : loadedXyz.phase = .codes := rfl

theorem witness_EncEmitsTheCode :
    loadedXyz.phase = .codes ∧ isScalar symA = true ∧ symA ∉ loadedXyz.ct.map CodeEntry.sym ∧
    loadedXyz.ct = [⟨symX, [false]⟩] ++ ⟨symY, [true, false]⟩ :: [⟨symZ, [true, true]⟩] ∧
    symY ∉ [symX] := by decide

theorem witness_LsymOpensAnEntry :
    isScalar symX = true ∧ (loadingXy []).phase = .loading ∧ (loadingXy []).stage ≠ none ∧
    State.reset.phase = .idle ∧ loadingX.phase = .loading ∧ loadingX.stage = none := by decide

/-- With MAX_CODE_LEN = 2, one bit more than the bound, and just the bound. -/
theorem witness_LbitAppendsToTheOpenEntry :
    loadingX.phase = .loading ∧ loadingX.stage = none ∧
    (loadingXy [true]).stage = some ⟨symY, [true]⟩ ∧
    2 < ([true] : Bits).length + ([false, false] : Bits).length ∧
    ([true] : Bits).length + ([false] : Bits).length ≤ 2 := by decide

theorem witness_LcomCommitsTheOpenEntry :
    loadingX.phase = .loading ∧ loadingX.stage = none ∧
    (loadingXy []).stage = some ⟨symY, []⟩ ∧
    symX ∈ (loadingXy [true]).ct.map CodeEntry.sym ∧ symY ∉ (loadingXy [true]).ct.map CodeEntry.sym ∧
    (∃ d ∈ (loadingXy [false]).ct, d.code <+: [false, true] ∨ [false, true] <+: d.code) ∧
    (∀ d ∈ (loadingXy [true]).ct, ¬ d.code <+: [true] ∧ ¬ [true] <+: d.code) ∧
    (loadingXy [true]).ct.length = 1 ∧ (loadingXy [true]).ct.length ≠ 256 := by decide

theorem witness_LendCompletesTheTable :
    (loadingXy []).phase = .loading ∧ (loadingXy []).stage ≠ none ∧
    ({ State.reset with phase := .loading } : State).ct = [] ∧
    loadingX.phase = .loading ∧ loadingX.stage = none ∧ loadingX.ct ≠ [] := by decide

theorem tableWf_xyz : TableWf Params.default tableXyz where
  keys_unique := by decide
  codes_nonempty := by decide
  codes_bounded := by decide
  codes_prefixFree := by unfold PrefixFree; decide
  capacity := by decide

theorem tableWf_xy : TableWf Params.default (tableXyz.take 2) where
  keys_unique := by decide
  codes_nonempty := by decide
  codes_bounded := by decide
  codes_prefixFree := by unfold PrefixFree; decide
  capacity := by decide

/-- A string that decodes and ends inside a code, and one with a dead end after a symbol. -/
theorem witness_DbitDecodesItsBits :
    loadedXyz.phase = .codes ∧ TableWf Params.default tableXyz ∧
    Decodes tableXyz [] [false, true] [symX] [true] ∧
    TableWf Params.default (tableXyz.take 2) ∧
    Decodes (tableXyz.take 2) [] [false, true] [symX] [true] ∧
    DeadEnd (tableXyz.take 2) [true, true] := by
  refine ⟨rfl, tableWf_xyz, ?_, tableWf_xy, ?_, by unfold DeadEnd; decide⟩
  · exact .emit [] false [true] ⟨symX, [false]⟩ [] [true] (by decide) rfl
      (.keep [] true [] [] [true] (by decide) (by decide) (.done _))
  · exact .emit [] false [true] ⟨symX, [false]⟩ [] [true] (by decide) rfl
      (.keep [] true [] [] [true] (by decide) (by decide) (.done _))

theorem witness_DendEndsTheBitString :
    loadedXyz.phase = .codes ∧ loadedXyz.dpre = [] ∧
    ({ loadedXyz with dpre := [true] } : State).dpre ≠ [] := by decide

theorem witness_SyncReportsTheErrorPhase :
    State.reset.phase ≠ .error ∧ failedBld.phase = .error := by decide

theorem witness_CommandsLeaveQueuesAndParametersAlone :
    (∃ t, exec .gen builtAab = .next t) ∧ Instr.gen ≠ .clr ∧ Instr.gen ≠ .bld := ⟨⟨_, rfl⟩, by decide⟩

theorem witness_TablesAreWrittenOnlyByTheirCommands :
    (∃ t, exec .dend loadedXyz = .next t ∧ t.phase ≠ .error) ∧ Instr.dend ≠ .clr :=
  ⟨⟨_, rfl, by decide⟩, by decide⟩

theorem witness_ResetStateIsWellFormed : Params.Wf ⟨1, 1, 1, 1, 1⟩ ∧
    Params.Wf ⟨65535, 32, 65535, 255, 255⟩ :=
  ⟨⟨by decide, by decide, by decide, by decide, by decide⟩,
    ⟨by decide, by decide, by decide, by decide, by decide⟩⟩

theorem params_default_wf : Params.default.Wf :=
  ⟨by decide, by decide, by decide, by decide, by decide⟩

theorem inv_loadedXyz : Inv loadedXyz where
  params := params_default_wf
  freq := ⟨by decide, by decide, by decide, by decide, by decide⟩
  table := tableWf_xyz
  dprefix := .inl rfl
  stage := fun _ h => by cases h
  phase := ⟨by decide, rfl, rfl, .inr rfl⟩
  errors := ⟨fun _ => ⟨rfl, rfl, rfl⟩, fun h => by cases h⟩
  queues := ⟨by decide, by decide⟩

theorem inv_queued : Inv { loadedXyz with cmdq := [0x04000000#32] } :=
  ⟨params_default_wf, ⟨by decide, by decide, by decide, by decide, by decide⟩, tableWf_xyz, .inl rfl, inv_loadedXyz.stage,
    inv_loadedXyz.phase, inv_loadedXyz.errors, ⟨by decide, by decide⟩⟩

/-- A well-formed state with a command that raises an error next. -/
theorem witness_StepKeepsStatesWellFormed :
    Inv { loadedXyz with cmdq := [0x04000000#32] } ∧
    ∃ t, step { loadedXyz with cmdq := [0x04000000#32] } = .next t ∧ t.phase = .error :=
  ⟨inv_queued, ⟨_, rfl, rfl⟩⟩

theorem witness_QueuesStayWithinTheirCapacity :
    QueuesWf { loadedXyz with cmdq := List.replicate 16 0x07000000#32 } ∧
    ∃ t, step { loadedXyz with cmdq := List.replicate 16 0x07000000#32 } = .next t :=
  ⟨⟨by decide, by decide⟩, ⟨_, rfl⟩⟩

theorem witness_FrequencyTableStaysWellFormed :
    FreqWf { countedAab with cmdq := [0x02000078#32] } ∧
    ∃ t, step { countedAab with cmdq := [0x02000078#32] } = .next t ∧ t.phase = .counting :=
  ⟨⟨by decide, by decide, by decide, by decide, (by decide : 3 < 2 ^ 32)⟩, ⟨_, rfl, by decide⟩⟩

theorem witness_ErrorRegistersStayConsistent :
    ErrorWf { State.reset with cmdq := [0x03000000#32] } ∧
    ∃ t, step { State.reset with cmdq := [0x03000000#32] } = .next t ∧ t.phase = .error :=
  ⟨⟨fun _ => ⟨rfl, rfl, rfl⟩, fun h => by cases h⟩, ⟨_, rfl, rfl⟩⟩

theorem witness_ParametersNeverChange : ∃ t, step { loadedXyz with env := [.rst] } = .next t :=
  ⟨_, rfl⟩

theorem symA_scalar : isScalar symA = true := by decide
theorem symB_scalar : isScalar symB = true := by decide

/-- A text whose length and number of symbols just fit W_CNT = 2 and N_SYM = 2. -/
theorem witness_CountingATextGivesItsFrequencyTable :
    (State.resetWith ⟨2, 2, 1, 1, 1⟩).phase = .idle ∧ (State.resetWith ⟨2, 2, 1, 1, 1⟩).ft = [] ∧
    (State.resetWith ⟨2, 2, 1, 1, 1⟩).total = 0 ∧ (State.resetWith ⟨2, 2, 1, 1, 1⟩).pend = [] ∧
    (∀ a ∈ [symA, symB, symA], isScalar a = true) ∧ [symA, symB, symA].length < 2 ^ 2 ∧
    (distinct [symA, symB, symA]).length ≤ 2 :=
  ⟨rfl, rfl, rfl, rfl, by simp [symA_scalar, symB_scalar], by decide, by simp [distinct, symA, symB]⟩

theorem built_aab : Built countedAab.ft treeAab :=
  .merge _ _ 1 0 _ ⟨by decide, by decide⟩ ⟨by decide, by decide⟩ (.root _ _)

theorem built_lone : Built [⟨symA, 4⟩] ⟨[.leaf symA 4], 0⟩ := .root _ _

theorem witness_BuilderMakesExactlyTheAdmissibleTrees :
    countedAab.ft ≠ [] ∧ Built countedAab.ft treeAab ∧
    buildTree (fun _ => 0) 0 countedAab.ft = treeAab :=
  ⟨by decide, built_aab, by decide⟩

theorem witness_EveryAdmissibleTreeIsAStrictHuffmanTree :
    countedAab.ft ≠ [] ∧ Built countedAab.ft treeAab ∧
    Built [⟨symA, 4⟩] ⟨[.leaf symA 4], 0⟩ := ⟨by decide, built_aab, built_lone⟩

theorem treeWf_aab : TreeWf countedAab.ft treeAab where
  node_count := by decide
  leaves := fun k e h => by
    match k, h with
    | 0, h => cases h; rfl
    | 1, h => cases h; rfl
    | _ + 2, h => cases h
  internals := fun k n h hk => by
    match k, h, hk with
    | 0, _, hk => exact absurd hk (by decide)
    | 1, _, hk => exact absurd hk (by decide)
    | 2, h, _ => cases h; exact ⟨1, 0, rfl, by decide, by decide, by decide⟩
    | _ + 3, h, _ => cases h
  strict := by decide
  root_freq := by decide

/-- TREE to CODES by GEN; and IDLE, where BLD can only raise EMPTY_INPUT. -/
theorem witness_PhaseChangesOnlyAsTheTableSays :
    PhaseWf builtAab ∧ (∃ t, exec .gen builtAab = .next t ∧ t.phase = .codes) ∧
    PhaseWf (beforeExec 0x04000000#32 builtAab) ∧
    (∃ t, step (beforeExec 0x04000000#32 builtAab) = .next t ∧
      t.phase ≠ (beforeExec 0x04000000#32 builtAab).phase) ∧
    PhaseWf State.reset ∧ (∃ t, exec .bld State.reset = .next t ∧ t.phase = .error) :=
  ⟨⟨by decide, rfl, _, rfl, treeWf_aab⟩, ⟨_, rfl, rfl⟩, ⟨by decide, rfl, _, rfl, treeWf_aab⟩,
    ⟨_, rfl, by decide⟩, ⟨rfl, rfl, rfl, rfl, rfl⟩, ⟨_, rfl, rfl⟩⟩

theorem treeWf_lone : TreeWf [⟨symA, 4⟩] ⟨[.leaf symA 4], 0⟩ where
  node_count := by decide
  leaves := fun k e h => by
    match k, h with
    | 0, h => cases h; rfl
    | _ + 1, h => cases h
  internals := fun k n h hk => by
    match k, h, hk with
    | 0, _, hk => exact absurd hk (by decide)
    | _ + 1, h, _ => cases h
  strict := by decide
  root_freq := by decide

/-- Both clauses of a code: the lone leaf, and a leaf below the root. -/
theorem witness_CodesAreThePathsFromTheRoot :
    TreeWf countedAab.ft treeAab ∧ 1 < countedAab.ft.length ∧ IsCode treeAab 1 [false] ∧
    TreeWf [⟨symA, 4⟩] ⟨[.leaf symA 4], 0⟩ ∧ IsCode ⟨[.leaf symA 4], 0⟩ 0 [false] :=
  ⟨treeWf_aab, by decide, .left 2 1 0 3 [] rfl (.here symB 1 rfl), treeWf_lone, rfl⟩

theorem witness_GeneratedCodesArePrefixFreeAndComplete :
    TreeWf countedAab.ft treeAab ∧ 2 ≤ countedAab.ft.length := ⟨treeWf_aab, by decide⟩

theorem witness_MoreFrequentSymbolsHaveNoLongerCodes :
    Built countedAab.ft treeAab ∧ countedAab.ft[0]? = some ⟨symA, 2⟩ ∧
    countedAab.ft[1]? = some ⟨symB, 1⟩ ∧ 1 < 2 := ⟨built_aab, rfl, rfl, by decide⟩

theorem witness_GeneratedCodesHaveTheLeastCost :
    2 ≤ countedAab.ft.length ∧ Built countedAab.ft treeAab ∧
    PrefixFree [[true, false], [false]] := ⟨by decide, built_aab, by unfold PrefixFree; decide⟩

theorem witness_EncodingConcatenatesTheCodes :
    loadedXyz.phase = .codes ∧ TableWf Params.default tableXyz ∧ loadedXyz.pend = [] ∧
    ∀ e ∈ tableXyz, e ∈ loadedXyz.ct ∧ isScalar e.sym = true :=
  ⟨rfl, tableWf_xyz, rfl, by decide⟩

theorem inv_small_idle : Inv (State.resetWith ⟨3, 2, 2, 1, 1⟩) where
  params := ⟨by decide, by decide, by decide, by decide, by decide⟩
  freq := ⟨by decide, by decide, by decide, by decide, by decide⟩
  table := ⟨by decide, by decide, by decide, .nil, by decide⟩
  dprefix := .inl rfl
  stage := fun _ h => by cases h
  phase := ⟨rfl, rfl, rfl, rfl, rfl⟩
  errors := ⟨fun _ => ⟨rfl, rfl, rfl⟩, fun h => by cases h⟩
  queues := ⟨by decide, by decide⟩

theorem tableWf_xyz_small : TableWf ⟨3, 2, 2, 1, 1⟩ tableXyz where
  keys_unique := by decide
  codes_nonempty := by decide
  codes_bounded := by decide
  codes_prefixFree := by unfold PrefixFree; decide
  capacity := by decide

/-- A table that just fits N_SYM = 3 and MAX_CODE_LEN = 2; "10" is cut into two pieces. -/
theorem witness_LoadingATableGivesThatTable :
    Inv (State.resetWith ⟨3, 2, 2, 1, 1⟩) ∧ (State.resetWith ⟨3, 2, 2, 1, 1⟩).phase = .idle ∧
    TableWf ⟨3, 2, 2, 1, 1⟩ tableXyz ∧
    isScalar symX = true ∧ Pieces [false] [[false]] ∧
    isScalar symY = true ∧ Pieces [true, false] [[true], [false]] ∧
    isScalar symZ = true ∧ Pieces [true, true] [[true, true]] :=
  ⟨inv_small_idle, rfl, tableWf_xyz_small, by decide, ⟨rfl, by decide⟩, by decide,
    ⟨rfl, by decide⟩, by decide, ⟨rfl, by decide⟩⟩

/-- The string "010" is the codes of x and y; "01" is no concatenation of codes. -/
theorem witness_DecodingInvertsConcatenation :
    loadedXyz.phase = .codes ∧ TableWf Params.default tableXyz ∧ loadedXyz.dpre = [] ∧
    Pieces [false, true, false] [[false, true], [false]] ∧
    [false, true, false] = ((tableXyz.take 2).map CodeEntry.code).flatten ∧
    Pieces [true] [[true]] ∧
    (∀ es : List CodeEntry, (∀ e ∈ es, e ∈ tableXyz) → [true] ≠ (es.map CodeEntry.code).flatten) := by
  refine ⟨rfl, tableWf_xyz, rfl, ⟨rfl, by decide⟩, rfl, ⟨rfl, by decide⟩, ?_⟩
  intro es hes
  match es, hes with
  | [], _ => decide
  | e :: rest, hes =>
    have he : e ∈ tableXyz := hes e (by simp)
    have hne : ∀ e ∈ tableXyz, ¬ e.code <+: [true] := by decide
    intro h
    exact hne e he ⟨(rest.map CodeEntry.code).flatten, by rw [h]; simp⟩

/-- Small parameters, after reset. -/
def small : State := State.resetWith ⟨3, 2, 2, 1, 1⟩

/-- Phase COUNTING with the given table. -/
def smallCounted (ft : List FreqEntry) (n : Nat) : State :=
  { small with phase := .counting, ft := ft, total := n }

/-- What "aab" and BLD leave. -/
def smallBuilt : State :=
  { smallCounted [⟨symA, 2⟩, ⟨symB, 1⟩] 3 with phase := .tree, tree := some treeAab, draws := 2 }

theorem small_built :
    runAll (cntsOf [symA, symA, symB] ++ [.bld]) small = some (smallBuilt, []) := by
  have h1 : exec (.cnt symA) small = .next (smallCounted [⟨symA, 1⟩] 1) := rfl
  have h2 : exec (.cnt symA) (smallCounted [⟨symA, 1⟩] 1) = .next (smallCounted [⟨symA, 2⟩] 2) := rfl
  have h3 : exec (.cnt symB) (smallCounted [⟨symA, 2⟩] 2) =
      .next (smallCounted [⟨symA, 2⟩, ⟨symB, 1⟩] 3) := rfl
  have h4 : exec .bld (smallCounted [⟨symA, 2⟩, ⟨symB, 1⟩] 3) = .next smallBuilt := rfl
  simp only [cntsOf, List.map, List.cons_append, List.nil_append, runAll, h1, h2, h3, h4]
  rfl

theorem witness_CompressThenDecodeGivesTheText :
    Inv small ∧ small.phase = .idle ∧
    (∀ a ∈ [symA, symA, symB], isScalar a = true) ∧ [symA, symA, symB].length < 2 ^ small.par.wCnt ∧
    (distinct [symA, symA, symB]).length ≤ small.par.nSym ∧
    (∃ built, runAll (cntsOf [symA, symA, symB] ++ [.bld]) small = some (built, []) ∧
      ∀ i < built.ft.length, (codeOf (treeOf built) i).length ≤ small.par.maxCodeLen) ∧
    Pieces [true, true, false] [[true, true], [false]] :=
  ⟨inv_small_idle, rfl, by simp [symA_scalar, symB_scalar], by decide,
    by simp [distinct, symA, symB, small, State.resetWith], ⟨smallBuilt, small_built, by decide⟩,
    ⟨rfl, by decide⟩⟩

end Sys2Proof.Tests
end

/-! ## What a command's body does when it succeeds

One inversion lemma per body: where it ends with a commit, the checks it has passed and the state it commits. -/

namespace Sys2Proof.Proofs

open Sys2Proof.Machine Sys2Proof.Safety Sys2Proof.Laws

variable {s t : State} {out : List Word}

/-- The table and the total CNT commits (R101). -/
theorem cntBody_done {sym : Symbol} (h : cntBody sym s = .done t out) :
    s.total ≠ maxCount s.par ∧ ∃ ft,
      t = { s with ft := ft, total := s.total + 1, phase := .counting } ∧
      ((sym ∉ s.ft.map FreqEntry.sym ∧ s.ft.length ≠ s.par.nSym ∧ ft = s.ft ++ [⟨sym, 1⟩]) ∨
      ∃ before n after, s.ft = before ++ ⟨sym, n⟩ :: after ∧
        ft = before ++ ⟨sym, n + 1⟩ :: after) := by
  unfold cntBody at h
  split at h
  · cases h
  next ht =>
    split at h
    next hf =>
      split at h
      · cases h
      next hn =>
        cases h
        exact ⟨ht, _, rfl, .inl ⟨findF_none.mp hf, hn, rfl⟩⟩
    next i hf =>
      cases h
      have hm : sym ∈ s.ft.map FreqEntry.sym := by
        by_contra hm
        rw [findF_none.mpr hm] at hf
        cases hf
      obtain ⟨before, n, after, hs, hb⟩ := mem_ft_split hm
      rw [hs, findF_split hb] at hf
      cases hf
      exact ⟨ht, _, rfl, .inr ⟨before, n, after, hs, by rw [hs, bump_split]⟩⟩

theorem bldBody_done {draw : Nat → Nat} (h : bldBody draw s = .done t out) :
    s.ft ≠ [] ∧ t = { s with
      tree := some (buildTree draw s.draws s.ft), draws := s.draws + drawsOf s.ft,
      phase := .tree } := by
  unfold bldBody at h
  split at h
  · cases h
  next hn =>
    cases h
    exact ⟨fun hf => hn (by simp [hf]), rfl⟩

theorem genBody_done (h : genBody s = .done t out) :
    (∀ c ∈ generatedCodes s, c.length ≤ s.par.maxCodeLen) ∧
    t = { s with ct := generatedTable s, tree := none, dpre := [], phase := .codes } := by
  unfold genBody at h
  split at h
  · cases h
  next hc =>
    cases h
    exact ⟨by simpa using hc, rfl⟩

theorem encBody_done {sym : Symbol} (h : encBody sym s = .done t out) : t = s := by
  unfold encBody at h
  split at h <;> cases h
  rfl

theorem dbitBody_done {bits : Bits} (h : dbitBody bits s = .done t out) :
    ∃ d, (decodeBits s.ct s.dpre bits).1 = some d ∧ t = { s with dpre := d } := by
  unfold dbitBody at h
  split at h <;> cases h
  next d hd => exact ⟨d, by rw [hd], rfl⟩

theorem dendBody_done (h : dendBody s = .done t out) : t = s := by
  unfold dendBody at h
  split at h <;> cases h
  rfl

theorem lsymBody_done {sym : Symbol} (h : lsymBody sym s = .done t out) :
    t = { s with stage := some ⟨sym, []⟩, phase := .loading } := by
  unfold lsymBody at h
  split at h <;> cases h
  rfl

theorem lbitBody_done {bits : Bits} (h : lbitBody bits s = .done t out) :
    ∃ e, s.stage = some e ∧ e.code.length + bits.length ≤ s.par.maxCodeLen ∧
      t = { s with stage := some { e with code := e.code ++ bits } } := by
  unfold lbitBody at h
  split at h
  · cases h
  next e he =>
    split at h
    · cases h
    next hl =>
      cases h
      exact ⟨e, he, Nat.le_of_not_lt hl, rfl⟩

/-- LCOM commits the open entry after the five checks of R120. -/
theorem lcomBody_done (h : lcomBody s = .done t out) :
    ∃ e, s.stage = some e ∧ e.code ≠ [] ∧ e.sym ∉ s.ct.map CodeEntry.sym ∧
      (∀ d ∈ s.ct, ¬ d.code <+: e.code ∧ ¬ e.code <+: d.code) ∧ s.ct.length ≠ s.par.nSym ∧
      t = { s with ct := s.ct ++ [e], stage := none } := by
  unfold lcomBody at h
  split at h
  · cases h
  next e he =>
    split_ifs at h with hc hf hp hn
    cases h
    refine ⟨e, he, hc, findC_none.mp (by simpa using hf), ?_, hn, rfl⟩
    simpa [clashes_iff, not_or] using hp

theorem lendBody_done (h : lendBody s = .done t out) :
    s.stage = none ∧ s.ct ≠ [] ∧ t = { s with dpre := [], phase := .codes } := by
  unfold lendBody at h
  split_ifs at h with hs hn
  cases h
  exact ⟨by simpa using hs, fun hc => hn (by simp [hc]), rfl⟩

theorem dumpBody_done (h : dumpBody s = .done t out) : t = s := by
  cases h
  rfl

theorem qfreqBody_done {sym : Symbol} (h : qfreqBody sym s = .done t out) : t = s := by
  cases h
  rfl

end Sys2Proof.Proofs

/-! ## What a command can do

Every command has one of four outcomes: it clears, it leaves all but PEND, it raises one of its errors, or its
body commits. The frames of the commands follow. -/

namespace Sys2Proof.Proofs

open Sys2Proof.Machine Sys2Proof.Safety Sys2Proof.Laws

variable {i : Instr} {s t : State} {out : List Word}

theorem noError_not_mem_errorsOf (i : Instr) : ErrCode.noError ∉ errorsOf i := by
  cases i <;> simp [errorsOf]

theorem phaseError_mem_errorsOf (hp : s.phase ≠ .error) (ha : s.phase ∉ allowed i) :
    ErrCode.phaseError ∈ errorsOf i := by
  cases i with
  | clr | qfreq _ | sync _ => exact absurd ha (by cases h : s.phase <;> simp_all [allowed])
  | cnt _ | bld | gen | enc _ | dbit _ | dend | lsym _ | lbit _ | lcom | lend | dump =>
    simp [errorsOf]

theorem illegalSymbol_mem_errorsOf (h : symbolOk i = false) : ErrCode.illegalSymbol ∈ errorsOf i := by
  cases i with
  | cnt _ | enc _ | lsym _ | qfreq _ => simp [errorsOf]
  | clr | bld | gen | dbit _ | dend | lbit _ | lcom | lend | dump | sync _ => cases h

/-- A body raises only the errors R133 lists for its command. -/
theorem bodyOf_raised {e : ErrCode} (h : bodyOf i s = .raised e out) : e ∈ errorsOf i := by
  cases i with
  | clr | dump | qfreq _ | sync _ => cases h
  | cnt sym =>
    simp only [bodyOf, cntBody] at h
    split at h
    · cases h; simp [errorsOf]
    · split at h
      · split at h <;> cases h
        simp [errorsOf]
      · cases h
  | bld => simp only [bodyOf, bldBody] at h; split at h <;> cases h; simp [errorsOf]
  | gen => simp only [bodyOf, genBody] at h; split at h <;> cases h; simp [errorsOf]
  | enc sym => simp only [bodyOf, encBody] at h; split at h <;> cases h; simp [errorsOf]
  | dbit bits => simp only [bodyOf, dbitBody] at h; split at h <;> cases h; simp [errorsOf]
  | dend => simp only [bodyOf, dendBody] at h; split at h <;> cases h; simp [errorsOf]
  | lsym sym => simp only [bodyOf, lsymBody] at h; split at h <;> cases h; simp [errorsOf]
  | lbit bits =>
    simp only [bodyOf, lbitBody] at h
    split at h
    · cases h; simp [errorsOf]
    · split at h <;> cases h
      simp [errorsOf]
  | lcom =>
    simp only [bodyOf, lcomBody] at h
    split at h
    · cases h; simp [errorsOf]
    · split_ifs at h <;> cases h <;> simp [errorsOf]
  | lend => simp only [bodyOf, lendBody] at h; split_ifs at h <;> cases h <;> simp [errorsOf]

/-- The outcomes of EXECUTE of a legal word: CLR clears; SYNC and a discarded word leave all but PEND; a check
or the body raises; or the body commits. -/
theorem exec_outcome (h : exec i s = .next t) :
    (i = .clr ∧ t = { clearAll s with pend := [] }) ∨
    (i ≠ .clr ∧ t = { s with pend := t.pend }) ∨
    (i ≠ .clr ∧ s.phase ≠ .error ∧
      ∃ e ∈ errorsOf i, ∃ pushed, t = raise (opcodeOf i) e pushed s) ∨
    (i ≠ .clr ∧ s.phase ∈ allowed i ∧
      ∃ u pushed, bodyOf i s = .done u pushed ∧ t = { u with pend := pushed }) := by
  rcases exec_cases h with ⟨rfl, rfl⟩ | ⟨tag, rfl, rfl⟩ | ⟨hc, -, hrest⟩
  · exact .inl ⟨rfl, rfl⟩
  · exact .inr (.inl ⟨by simp, rfl⟩)
  have hne : s.phase ∈ allowed i → s.phase ≠ .error := fun hp he => error_not_allowed i (he ▸ hp)
  rcases hrest with ⟨-, rfl⟩ | ⟨hp, ha, rfl⟩ | ⟨ha, hs, rfl⟩ | ⟨ha, -, rfl⟩
  · exact .inr (.inl ⟨hc, rfl⟩)
  · exact .inr (.inr (.inl ⟨hc, hp, _, phaseError_mem_errorsOf hp ha, [], rfl⟩))
  · exact .inr (.inr (.inl ⟨hc, hne ha, _, illegalSymbol_mem_errorsOf hs, [], rfl⟩))
  · cases hb : bodyOf i s with
    | done u pushed => exact .inr (.inr (.inr ⟨hc, ha, u, pushed, rfl, rfl⟩))
    | raised e pushed =>
      exact .inr (.inr (.inl ⟨hc, hne ha, e, bodyOf_raised hb, pushed, rfl⟩))

/-! ### Frames -/

/-- Each table and register stays, but for the commands that write it. -/
def TablesKept (i : Instr) (s t : State) : Prop :=
  ((∀ sym, i ≠ .cnt sym) → t.ft = s.ft ∧ t.total = s.total) ∧
  (i ≠ .bld → i ≠ .gen → t.tree = s.tree) ∧
  (i ≠ .gen → i ≠ .lcom → t.ct = s.ct) ∧
  ((∀ sym, i ≠ .lsym sym) → (∀ b, i ≠ .lbit b) → i ≠ .lcom → t.stage = s.stage) ∧
  ((∀ b, i ≠ .dbit b) → i ≠ .gen → i ≠ .lend → t.dpre = s.dpre)

/-- A body that commits leaves the parameters, the queues and the error registers as they are, the draws but for
BLD, and the tables of other commands; it does not enter phase ERROR. -/
theorem bodyOf_frame (hc : i ≠ .clr) (h : bodyOf i s = .done t out) :
    t = { s with
      phase := t.phase, ft := t.ft, total := t.total, tree := t.tree, ct := t.ct, stage := t.stage,
      dpre := t.dpre, draws := t.draws } ∧
    (i ≠ .bld → t.draws = s.draws) ∧ (t.phase = .error → s.phase = .error) ∧ TablesKept i s t := by
  cases i with
  | clr => exact absurd rfl hc
  | cnt sym => obtain ⟨-, ft, rfl, -⟩ := cntBody_done h; simp [TablesKept]
  | bld => obtain ⟨-, rfl⟩ := bldBody_done h; simp [TablesKept]
  | gen => obtain ⟨-, rfl⟩ := genBody_done h; simp [TablesKept]
  | enc sym => obtain rfl := encBody_done h; simp [TablesKept]
  | dbit bits => obtain ⟨d, -, rfl⟩ := dbitBody_done h; simp [TablesKept]
  | dend => obtain rfl := dendBody_done h; simp [TablesKept]
  | lsym sym => obtain rfl := lsymBody_done h; simp [TablesKept]
  | lbit bits => obtain ⟨e, -, -, rfl⟩ := lbitBody_done h; simp [TablesKept]
  | lcom => obtain ⟨e, -, -, -, -, -, rfl⟩ := lcomBody_done h; simp [TablesKept]
  | lend => obtain ⟨-, -, rfl⟩ := lendBody_done h; simp [TablesKept]
  | dump => obtain rfl := dumpBody_done h; simp [TablesKept]
  | qfreq sym => obtain rfl := qfreqBody_done h; simp [TablesKept]
  | sync tag => cases h; simp [TablesKept]

/-- Settles O42: each outcome of a command leaves the parameters and the queues, and OVF but for CLR. -/
theorem commandsLeaveQueuesAndParametersAlone :
    Obligations.CommandsLeaveQueuesAndParametersAlone := by
  intro i s t h
  rcases exec_outcome h with ⟨rfl, rfl⟩ | ⟨-, ht⟩ | ⟨-, -, e, -, pushed, rfl⟩ |
    ⟨hc, -, u, pushed, hb, rfl⟩
  · simp
  · rw [ht]; simp
  · simp
  · obtain ⟨hf, hd, -⟩ := bodyOf_frame hc hb
    refine ⟨?_, ?_, ?_, ?_, ?_, fun _ => ?_, hd⟩ <;> rw [hf]

/-- Settles O43: a word that raises or is discarded leaves every table, and a body that commits those of other
commands. -/
theorem tablesAreWrittenOnlyByTheirCommands :
    Obligations.TablesAreWrittenOnlyByTheirCommands := by
  intro i s t h hc
  rcases exec_outcome h with ⟨hclr, -⟩ | ⟨-, ht⟩ | ⟨-, hp, e, -, pushed, rfl⟩ |
    ⟨-, -, u, pushed, hb, rfl⟩
  · exact absurd hclr hc
  · rw [ht]; simp
  · simp [hp]
  · obtain ⟨hf, -, -, hft, htree, hct, hstage, hdpre⟩ := bodyOf_frame hc hb
    exact ⟨hft, htree, hct, hstage, hdpre, fun _ => by rw [hf]; exact ⟨rfl, rfl⟩⟩

end Sys2Proof.Proofs

/-! ## What a step can do to the block's data

`step_parts` says once what a step can do to everything but the queues; `KeptByParts` packages the induction step
of an invariant over the data. -/

namespace Sys2Proof.Proofs

open Sys2Proof.Machine Sys2Proof.Safety Sys2Proof.Laws

variable {s t u : State}

/-- `t` is `s` but for the queues, the moves to come and the data the HOST has read. -/
def SameData (s t : State) : Prop :=
  t = { s with
    cmdq := t.cmdq, pend := t.pend, rspq := t.rspq, env := t.env, busData := t.busData }

/-- `t` is `s` put into phase ERROR (R135, R140), or kept there, with the first error (R139). -/
def EntersError (s t : State) : Prop :=
  t = { s with
    phase := .error, errcode := t.errcode, errop := t.errop, ovf := t.ovf,
    cmdq := t.cmdq, pend := t.pend, rspq := t.rspq, env := t.env, busData := t.busData } ∧
  (t.errcode ≠ .noError ∨ s.phase = .error ∧ t.errcode = s.errcode)

theorem executes_sameData {w : Word} (h : Executes s w u) : SameData s u := by
  obtain ⟨q, rest, -, -, -, -, rfl⟩ := h
  rfl

theorem reads_sameData {off : Nat} (h : Reads s off u) : SameData s u := by
  obtain ⟨rest, -, rfl⟩ := h
  rfl

theorem writes_sameData {off : Nat} {v : Word} (h : Writes s off v u) : SameData s u := by
  obtain ⟨rest, -, rfl⟩ := h
  rfl

theorem resets_sameData (h : Resets s u) : SameData s u := by
  rcases h with ⟨rest, -, rfl⟩ | ⟨v, -, hw⟩
  · rfl
  · exact writes_sameData hw

theorem raise_entersError {op : Byte} {e : ErrCode} {pushed : List Word} (he : e ≠ .noError) :
    EntersError s (raise op e pushed s) := ⟨rfl, .inl he⟩

/-- A write of CMD queues the word, or drops it: in phase ERROR only OVF is set, in any other the block enters it
(R31). -/
theorem writeCmd_cases (v : Word) (s : State) :
    (s.cmdq.length < s.par.cmdqDepth ∧ writeCmd v s = { s with cmdq := s.cmdq ++ [v] }) ∨
    (¬ s.cmdq.length < s.par.cmdqDepth ∧ s.phase = .error ∧ writeCmd v s = { s with ovf := true }) ∨
    (¬ s.cmdq.length < s.par.cmdqDepth ∧ s.phase ≠ .error ∧ writeCmd v s = { s with
      ovf := true, phase := .error, errcode := .cmdOverflow, errop := opcodeByte v }) := by
  unfold writeCmd
  by_cases hr : s.cmdq.length < s.par.cmdqDepth
  · exact .inl ⟨hr, if_pos hr⟩
  by_cases hp : s.phase = .error
  · exact .inr (.inl ⟨hr, hp, by rw [if_neg hr, if_pos hp]⟩)
  · exact .inr (.inr ⟨hr, hp, by rw [if_neg hr, if_neg hp]⟩)

/-- A write acts on CMD, or resets through CTRL, or is ignored (R31 to R40). -/
theorem writeReg_cases (off : Nat) (v : Word) (s : State) :
    (off = 0x00 ∧ writeReg off v s = writeCmd v s) ∨
    (off = 0x20 ∧ v.getLsbD 0 = true ∧ writeReg off v s = resetBlock s) ∨
    writeReg off v s = s := by
  unfold writeReg writeCtrl
  split_ifs with h0 h20 hb
  · exact .inl ⟨h0, rfl⟩
  · exact .inr (.inl ⟨h20, hb, rfl⟩)
  · exact .inr (.inr rfl)
  · exact .inr (.inr rfl)

theorem writeCmd_parts (v : Word) (s : State) :
    SameData s (writeCmd v s) ∨ EntersError s (writeCmd v s) := by
  rcases writeCmd_cases v s with ⟨-, h⟩ | ⟨-, hp, h⟩ | ⟨-, -, h⟩ <;> rw [h]
  · exact .inl rfl
  · exact .inr ⟨by rw [← hp], .inr ⟨hp, rfl⟩⟩
  · exact .inr ⟨rfl, .inl (by simp)⟩

/-- A command that commits: `t` is what the body of `i` makes of `s`. -/
def Commits (i : Instr) (s t : State) : Prop :=
  i ≠ .clr ∧ s.phase ∈ allowed i ∧ ∃ u pushed, bodyOf i s = .done u pushed ∧ SameData u t

theorem exec_parts {i : Instr} (h : exec i s = .next t) :
    SameData s t ∨ EntersError s t ∨ SameData (clearAll s) t ∨ Commits i s t := by
  rcases exec_outcome h with ⟨-, rfl⟩ | ⟨-, ht⟩ | ⟨-, -, e, he, pushed, rfl⟩ |
    ⟨hc, ha, u, pushed, hb, rfl⟩
  · exact .inr (.inr (.inl rfl))
  · exact .inl (by rw [ht]; rfl)
  · exact .inr (.inl (raise_entersError fun h => noError_not_mem_errorsOf i (h ▸ he)))
  · exact .inr (.inr (.inr ⟨hc, ha, u, pushed, hb, rfl⟩))

theorem illegalCommand_parts (w : Word) (s : State) :
    SameData s (illegalCommand w s) ∨ EntersError s (illegalCommand w s) := by
  unfold illegalCommand
  split
  · exact .inl rfl
  · exact .inr (raise_entersError (by simp))

/-- Everything a step can do to the data: nothing, the entry into phase ERROR, the clearing of all of it (CLR and
the resets), or a command's commit. `u` is the state once the move and the word are taken. -/
theorem step_parts (h : step s = .next t) :
    ∃ u, SameData s u ∧
      (SameData u t ∨ EntersError u t ∨ SameData (clearAll u) t ∨ ∃ i, Commits i u t) := by
  rcases step_cases h with ⟨w, u, i, hx, -, he⟩ | ⟨w, u, e, hx, -, rfl⟩ | ⟨v, q, rest, -, -, -, rfl⟩ |
    ⟨rest, -, -, rfl⟩ | ⟨off, u, hr, -, -, rfl⟩ | ⟨off, v, u, hw, -, -, rfl⟩ | ⟨u, hr, rfl⟩
  · refine ⟨u, executes_sameData hx, ?_⟩
    rcases exec_parts he with h | h | h | h
    exacts [.inl h, .inr (.inl h), .inr (.inr (.inl h)), .inr (.inr (.inr ⟨i, h⟩))]
  · exact ⟨u, executes_sameData hx, (illegalCommand_parts w u).imp_right .inl⟩
  · exact ⟨s, rfl, .inl rfl⟩
  · exact ⟨s, rfl, .inl rfl⟩
  · exact ⟨u, reads_sameData hr, .inl rfl⟩
  · refine ⟨u, writes_sameData hw, ?_⟩
    rcases writeReg_cases off v u with ⟨-, h⟩ | ⟨-, -, h⟩ | h <;> rw [h]
    · exact (writeCmd_parts v u).imp_right .inl
    · exact .inr (.inr (.inl rfl))
    · exact .inl rfl
  · exact ⟨u, resets_sameData hr, .inr (.inr (.inl rfl))⟩

/-- A property of the data that each part of a step keeps. -/
structure KeptByParts (P : State → Prop) : Prop where
  same : ∀ {s t}, SameData s t → P s → P t
  error : ∀ {s t}, EntersError s t → P s → P t
  clear : ∀ {s}, P s → P (clearAll s)
  body : ∀ {i s t out}, i ≠ .clr → s.phase ∈ allowed i → bodyOf i s = .done t out → P s → P t

/-- Such a property is kept by every step. -/
theorem KeptByParts.step {P : State → Prop} (k : KeptByParts P) (hs : P s)
    (h : Machine.step s = .next t) : P t := by
  obtain ⟨u, hu, ht⟩ := step_parts h
  have hPu : P u := k.same hu hs
  rcases ht with ht | ht | ht | ⟨i, hc, ha, v, pushed, hb, ht⟩
  · exact k.same ht hPu
  · exact k.error ht hPu
  · exact k.same ht (k.clear hPu)
  · exact k.same ht (k.body hc ha hb hPu)

/-! ### The parameters -/

theorem par_keptByParts (p : Params) : KeptByParts fun s => s.par = p where
  same h hs := by rw [h]; exact hs
  error h hs := by rw [h.1]; exact hs
  clear hs := hs
  body hc _ hb hs := by rw [(bodyOf_frame hc hb).1]; exact hs

/-- Settles O49: no part of a step writes the parameters. -/
theorem parametersNeverChange : Obligations.ParametersNeverChange :=
  fun s _ h => (par_keptByParts s.par).step rfl h

/-! ### The error registers -/

theorem errorWf_clearAll (s : State) : ErrorWf (clearAll s) :=
  ⟨fun _ => ⟨rfl, rfl, rfl⟩, by simp⟩

theorem errorWf_keptByParts : KeptByParts ErrorWf where
  same h hs := by rw [h]; exact hs
  error := fun {s t} ⟨ht, he⟩ hs => by
    have hp : t.phase = .error := by rw [ht]
    refine ⟨fun hne => absurd hp hne, fun _ => ?_⟩
    rcases he with he | ⟨hse, he⟩
    · exact he
    · exact he ▸ hs.2 hse
  clear _ := errorWf_clearAll _
  body := fun {i s t out} hc ha hb hs => by
    have hne : s.phase ≠ .error := fun he => error_not_allowed i (he ▸ ha)
    obtain ⟨hf, -, hp, -⟩ := bodyOf_frame hc hb
    refine ⟨fun _ => ?_, fun he => absurd (hp he) hne⟩
    rw [hf]
    exact hs.1 hne

/-- Settles O48: only the entry into phase ERROR and the clearing write the error registers. -/
theorem errorRegistersStayConsistent : Obligations.ErrorRegistersStayConsistent :=
  fun _ _ hs h => errorWf_keptByParts.step hs h

/-! ### The frequency table -/

theorem freqWf_congr (hp : t.par = s.par) (hft : t.ft = s.ft) (ht : t.total = s.total)
    (h : FreqWf s) : FreqWf t := by
  obtain ⟨hk, hc, hn, hs, hb⟩ := h
  exact ⟨hft ▸ hk, hft ▸ hc, by rw [hft, hp]; exact hn, by rw [ht, hft]; exact hs,
    by rw [ht, hp]; exact hb⟩

theorem freqWf_empty (hft : s.ft = []) (ht : s.total = 0) : FreqWf s where
  keys_unique := by simp [hft]
  counts_positive := by simp [hft]
  capacity := by simp [hft]
  total_sum := by simp [hft, ht]
  total_bound := by simp [ht]

/-- CNT keeps FT well formed: a new symbol gets a slot while there is room, a known one a higher count, and
TOTAL stays in its width. -/
theorem cntBody_freqWf {sym : Symbol} {out : List Word} (h : cntBody sym s = .done t out)
    (hs : FreqWf s) : FreqWf t := by
  obtain ⟨hk, hc, hn, hsum, hb⟩ := hs
  obtain ⟨hmax, ft, rfl, hft⟩ := cntBody_done h
  have hbound : s.total + 1 < 2 ^ s.par.wCnt := by
    simp only [maxCount] at hmax
    omega
  rcases hft with ⟨hnew, hroom, rfl⟩ | ⟨before, n, after, hs, rfl⟩
  · refine ⟨?_, ?_, ?_, by simp [hsum], hbound⟩
    · rw [List.map_append, List.nodup_append]
      exact ⟨hk, by simp, fun a ha b hb hab => hnew (by simp_all)⟩
    · simpa [or_imp, forall_and] using hc
    · simp only [List.length_append, List.length_singleton]
      omega
  · rw [hs] at hk hc hn hsum
    refine ⟨by simpa using hk, fun e he => ?_, by simpa using hn, ?_, hbound⟩
    · rcases List.mem_append.mp he with he | he
      · exact hc e (by simp [he])
      · rcases List.mem_cons.mp he with rfl | he
        · simp
        · exact hc e (by simp [he])
    · simp only [hsum, List.map_append, List.map_cons, List.sum_append, List.sum_cons]
      omega

theorem freqWf_keptByParts : KeptByParts FreqWf where
  same h hs := freqWf_congr (by rw [h]) (by rw [h]) (by rw [h]) hs
  error h hs := freqWf_congr (by rw [h.1]) (by rw [h.1]) (by rw [h.1]) hs
  clear _ := freqWf_empty rfl rfl
  body := fun {i s t out} hc _ hb hs => by
    obtain ⟨hf, -, -, hft, -⟩ := bodyOf_frame hc hb
    by_cases hi : ∃ sym, i = .cnt sym
    · obtain ⟨sym, rfl⟩ := hi
      exact cntBody_freqWf hb hs
    · obtain ⟨hft, ht⟩ := hft fun sym h => hi ⟨sym, h⟩
      exact freqWf_congr (by rw [hf]) hft ht hs

/-- Settles O47: CNT keeps FT and TOTAL well formed, and nothing else but the clearing writes them. -/
theorem frequencyTableStaysWellFormed : Obligations.FrequencyTableStaysWellFormed :=
  fun _ _ hs h => freqWf_keptByParts.step hs h

/-! ### The queues -/

@[simp] theorem illegalCommand_cmdq (w : Word) (s : State) : (illegalCommand w s).cmdq = s.cmdq := by
  unfold illegalCommand; split <;> rfl

@[simp] theorem illegalCommand_rspq (w : Word) (s : State) : (illegalCommand w s).rspq = s.rspq := by
  unfold illegalCommand; split <;> rfl

@[simp] theorem writeCmd_rspq (v : Word) (s : State) : (writeCmd v s).rspq = s.rspq := by
  rcases writeCmd_cases v s with ⟨-, h⟩ | ⟨-, -, h⟩ | ⟨-, -, h⟩ <;> rw [h]

theorem writeCmd_cmdq_length (v : Word) (s : State) :
    (writeCmd v s).cmdq.length ≤ s.cmdq.length ∨ (writeCmd v s).cmdq.length ≤ s.par.cmdqDepth := by
  rcases writeCmd_cases v s with ⟨hr, h⟩ | ⟨-, -, h⟩ | ⟨-, -, h⟩ <;> rw [h]
  · exact .inr (by simpa using hr)
  · exact .inl (le_refl _)
  · exact .inl (le_refl _)

/-- CMDQ gets longer only by a write of CMD, within its depth. RSPQ gets a word only while it has room, and loses
words only by a read of RSP or a reset. -/
theorem step_queues (h : step s = .next t) :
    (t.cmdq.length ≤ s.cmdq.length ∨
      (∃ v u, Writes s 0x00 v u) ∧ t.cmdq.length ≤ s.par.cmdqDepth) ∧
    (t.rspq = s.rspq ∨ (s.rspq.length < s.par.rspqDepth ∧ ∃ v, t.rspq = s.rspq ++ [v]) ∨
      ((∃ u, Reads s 0x04 u) ∧ t.rspq = s.rspq.tail) ∨ ((∃ u, Resets s u) ∧ t.rspq = [])) := by
  rcases step_cases h with ⟨w, u, i, hx, -, he⟩ | ⟨w, u, e, hx, -, rfl⟩ |
    ⟨v, q, rest, -, hroom, -, rfl⟩ | ⟨rest, -, -, rfl⟩ | ⟨off, u, hr, -, -, rfl⟩ |
    ⟨off, v, u, hw, -, -, rfl⟩ | ⟨u, hr, rfl⟩
  · obtain ⟨q, rest, -, -, -, hq, rfl⟩ := hx
    obtain ⟨-, hc, hr, -⟩ := commandsLeaveQueuesAndParametersAlone i _ t he
    exact ⟨.inl (by simp [hc, hq]), .inl hr⟩
  · obtain ⟨q, rest, -, -, -, hq, rfl⟩ := hx
    exact ⟨.inl (by simp [hq]), .inl (by simp)⟩
  · exact ⟨.inl (le_refl _), .inr (.inl ⟨hroom, v, rfl⟩)⟩
  · exact ⟨.inl (le_refl _), .inl rfl⟩
  · have hrsp := hr
    obtain ⟨rest, -, rfl⟩ := hr
    refine ⟨.inl (le_refl _), ?_⟩
    by_cases ho : off = 0x04
    · subst ho
      exact .inr (.inr (.inl ⟨⟨_, hrsp⟩, rfl⟩))
    · exact .inl (if_neg ho)
  · have hcmd := hw
    obtain ⟨rest, -, rfl⟩ := hw
    rcases writeReg_cases off v { s with env := rest } with ⟨rfl, h⟩ | ⟨rfl, hv, h⟩ | h <;> rw [h]
    · exact ⟨(writeCmd_cmdq_length v _).imp_right fun hl => ⟨⟨v, _, hcmd⟩, hl⟩, .inl (by simp)⟩
    · exact ⟨.inl (by simp), .inr (.inr (.inr ⟨⟨_, .inr ⟨v, hv, hcmd⟩⟩, rfl⟩))⟩
    · exact ⟨.inl (le_refl _), .inl rfl⟩
  · exact ⟨.inl (by simp), .inr (.inr (.inr ⟨⟨u, hr⟩, rfl⟩))⟩

/-- Settles O20, by `step_queues`. -/
theorem onlyTheHostFillsCmdqAndDrainsRspq : Obligations.OnlyTheHostFillsCmdqAndDrainsRspq := by
  intro s t h
  obtain ⟨hc, hr⟩ := step_queues h
  refine ⟨fun hno => ?_, fun hread hreset => ?_⟩
  · rcases hc with hc | ⟨⟨v, u, hw⟩, -⟩
    · exact hc
    · exact absurd hw (hno v u)
  · rcases hr with hr | ⟨-, v, hr⟩ | ⟨⟨u, hu⟩, -⟩ | ⟨⟨u, hu⟩, -⟩
    · rw [hr]
    · simp [hr]
    · exact absurd hu (hread u)
    · exact absurd hu (hreset u)

/-- Settles O46: each queue grows only while it has room. -/
theorem queuesStayWithinTheirCapacity : Obligations.QueuesStayWithinTheirCapacity := by
  intro s t ⟨hcmd, hrsp⟩ h
  obtain ⟨hc, hr⟩ := step_queues h
  have hp : t.par = s.par := parametersNeverChange s t h
  unfold QueuesWf
  rw [hp]
  refine ⟨?_, ?_⟩
  · rcases hc with hc | ⟨-, hc⟩
    · exact hc.trans hcmd
    · exact hc
  · rcases hr with hr | ⟨hroom, v, hr⟩ | ⟨-, hr⟩ | ⟨-, hr⟩ <;> rw [hr]
    · exact hrsp
    · simpa using hroom
    · exact (by simp : s.rspq.tail.length ≤ s.rspq.length).trans hrsp
    · simp

end Sys2Proof.Proofs

/-! ## The trees of R106

The loop invariant of the merges, and that the builder's tree is one R106 admits. -/

namespace Sys2Proof.Proofs

open Sys2Proof.Machine Sys2Proof.Safety Sys2Proof.Laws

variable {ft : List FreqEntry} {nodes : List Node} {live : List Nat} {t : HTree}

/-- The loop invariant of BuildTree (R106, R108): the arena holds the leaves and then the merges made so far, and
the live nodes are exactly the roots of the forest. -/
structure Forest (ft : List FreqEntry) (nodes : List Node) (live : List Nat) : Prop where
  node_count : nodes.length + live.length = 2 * ft.length
  leaf_count : ft.length ≤ nodes.length
  leaves : ∀ (k : Nat) (e : FreqEntry), ft[k]? = some e → nodes[k]? = some (.leaf e.sym e.cnt)
  internals : ∀ (k : Nat) (n : Node), nodes[k]? = some n → ft.length ≤ k →
    ∃ l r, n = .internal l r (freqAt nodes l + freqAt nodes r) ∧ l < k ∧ r < k ∧
      freqAt nodes l ≤ freqAt nodes r
  strict : (live ++ children nodes).Perm (List.range nodes.length)
  freq_sum : (live.map (freqAt nodes)).sum = (ft.map FreqEntry.cnt).sum

theorem Forest.lt_length (f : Forest ft nodes live) {x : Nat} (hx : x ∈ live) : x < nodes.length :=
  List.mem_range.mp (f.strict.mem_iff.mp (List.mem_append_left _ hx))

/-- The leaves alone are a forest of roots. -/
theorem forest_leaves (ft : List FreqEntry) :
    Forest ft (ft.map leafOf) (List.range ft.length) where
  node_count := by simp; omega
  leaf_count := by simp
  leaves k e h := by simp [h, leafOf]
  internals k n h hk := by simp [List.getElem?_eq_none hk] at h
  strict := by
    have hc : children (ft.map leafOf) = [] := by simp [children, childrenOf, leafOf]
    rw [hc, List.append_nil, List.length_map]
  freq_sum := by
    congr 1
    apply List.ext_getElem
    · simp
    · intro k hk _
      have hk : k < ft.length := by simpa using hk
      simp [freqAt, leafOf, Node.freq, hk]

/-- A merge of the two least live nodes keeps the forest. -/
theorem Forest.merge (f : Forest ft nodes live) {a b : Nat} (ha : MinimalIn nodes live a)
    (hb : MinimalIn nodes (live.erase a) b) :
    Forest ft (nodes ++ [.internal a b (freqAt nodes a + freqAt nodes b)])
      ((live.erase a).erase b ++ [nodes.length]) := by
  have hba : b ∈ live := List.mem_of_mem_erase hb.1
  have hperm : live.Perm (a :: b :: (live.erase a).erase b) :=
    (List.perm_cons_erase ha.1).trans ((List.perm_cons_erase hb.1).cons a)
  have hal : a < nodes.length := f.lt_length ha.1
  have hbl : b < nodes.length := f.lt_length hba
  refine ⟨?_, ?_, ?_, ?_, ?_, ?_⟩
  · have hlen := hperm.length_eq
    have hcount := f.node_count
    simp only [List.length_cons] at hlen
    simp only [List.length_append, List.length_singleton]
    omega
  · have := f.leaf_count
    simp only [List.length_append]
    omega
  · intro k e h
    have hn := f.leaves k e h
    obtain ⟨hk, -⟩ := List.getElem?_eq_some_iff.mp hn
    rw [List.getElem?_append_left hk, hn]
  · intro k n h hk
    by_cases hkl : k < nodes.length
    · rw [List.getElem?_append_left hkl] at h
      obtain ⟨l, r, rfl, hl, hr, hle⟩ := f.internals k n h hk
      refine ⟨l, r, ?_, hl, hr, ?_⟩ <;>
        rw [freqAt_append_left (hl.trans hkl), freqAt_append_left (hr.trans hkl)]
      exact hle
    · have hlast : k = nodes.length := by
        obtain ⟨hlt, -⟩ := List.getElem?_eq_some_iff.mp h
        simp only [List.length_append, List.length_singleton] at hlt
        omega
      subst hlast
      obtain rfl : Node.internal a b (freqAt nodes a + freqAt nodes b) = n := by simpa using h
      refine ⟨a, b, ?_, hal, hbl, ?_⟩ <;> rw [freqAt_append_left hal, freqAt_append_left hbl]
      exact ha.2 b hba
  · rw [children_append, List.length_append, List.length_singleton, List.range_succ]
    have hroots : (a :: b :: (live.erase a).erase b ++ children nodes).Perm
        (List.range nodes.length) := (hperm.symm.append_right _).trans f.strict
    refine .trans ?_ (hroots.append_right [nodes.length])
    refine List.perm_iff_count.mpr fun x => ?_
    simp only [childrenOf, List.count_append, List.count_cons, List.count_nil, List.cons_append]
    omega
  · have hrest : ((live.erase a).erase b).map
        (freqAt (nodes ++ [.internal a b (freqAt nodes a + freqAt nodes b)])) =
        ((live.erase a).erase b).map (freqAt nodes) :=
      List.map_congr_left fun x hx => freqAt_append_left
        (f.lt_length (List.mem_of_mem_erase (List.mem_of_mem_erase hx)))
    have hsum := (hperm.map (freqAt nodes)).sum_eq
    rw [f.freq_sum] at hsum
    rw [List.map_append, hrest, List.sum_append, List.map_singleton, freqAt_append_last, hsum]
    simp only [List.map_cons, List.sum_cons, List.sum_nil, Node.freq]
    omega

/-- R108: every tree R106 admits has the shape of R20. -/
theorem merges_treeWf (h : Merges nodes live t) (f : Forest ft nodes live) : TreeWf ft t := by
  induction h with
  | root nodes x =>
    exact ⟨f.node_count, f.leaves, f.internals, f.strict, by simpa using f.freq_sum⟩
  | merge nodes live a b t first second _ ih => exact ih (f.merge first second)

theorem built_treeWf (h : Built ft t) : TreeWf ft t := merges_treeWf h (forest_leaves ft)

/-- With fuel for every merge, the loop ends in a tree R106 admits. -/
theorem mergeLoop_merges (draw : Nat → Nat) (fuel d : Nat) (nodes : List Node) (live : List Nat)
    (hne : live ≠ []) (hf : live.length ≤ fuel + 1) :
    Merges nodes live ⟨(mergeLoop draw fuel d nodes live).1,
      (mergeLoop draw fuel d nodes live).2.headD 0⟩ := by
  induction fuel generalizing d nodes live with
  | zero =>
    match live, hne with
    | [x], _ => exact .root nodes x
    | _ :: _ :: _, _ => simp at hf
  | succ fuel ih =>
    match live, hne with
    | [x], _ => exact .root nodes x
    | x :: y :: rest, _ =>
      have ha := extract_minimalIn (draw d) nodes (x :: y :: rest) (by simp)
      have hlen := List.length_erase_of_mem ha.1
      have hne' : (x :: y :: rest).erase (extract (draw d) nodes (x :: y :: rest)) ≠ [] := by
        intro he
        simp [he] at hlen
      have hb := extract_minimalIn (draw (d + 1)) nodes _ hne'
      refine .merge nodes _ _ _ _ ha hb (ih _ _ _ (by simp) ?_)
      have hlen' := List.length_erase_of_mem hb.1
      rw [List.length_append, List.length_singleton, hlen', hlen]
      simp only [List.length_cons] at hf ⊢
      omega

theorem buildTree_built (draw : Nat → Nat) (d : Nat) (hft : ft ≠ []) :
    Built ft (buildTree draw d ft) :=
  mergeLoop_merges draw ft.length d _ _ (by simpa using hft) (by simp)

end Sys2Proof.Proofs

/-! ## The codes of R112

`codeOf` is a path from the root, and paths to leaves are never beginnings of one another (R114). -/

namespace Sys2Proof.Proofs

open Sys2Proof.Machine Sys2Proof.Safety Sys2Proof.Laws

variable {ft : List FreqEntry} {nodes : List Node} {t : HTree} {i j x : Nat} {c d : Bits}

/-! ### Paths -/

/-- A path that goes on behind a leaf goes nowhere: the leaf is its end. -/
theorem pathTo_prefix (hi : PathTo nodes i x c) (hj : PathTo nodes j x (c ++ d)) :
    d = [] ∧ i = j := by
  induction hi with
  | here sym f h =>
    cases hj with
    | here => exact ⟨rfl, rfl⟩
    | left _ _ _ _ _ h' | right _ _ _ _ _ h' => rw [h] at h'; cases h'
  | left x l r f c h _ ih =>
    cases hj with
    | left _ _ _ _ _ h' rest => rw [h] at h'; cases h'; exact ih rest
  | right x l r f c h _ ih =>
    cases hj with
    | right _ _ _ _ _ h' rest => rw [h] at h'; cases h'; exact ih rest

/-- Walk (R112) records exactly the paths shorter than its fuel. -/
theorem mem_walk {fuel : Nat} {acc : Bits} :
    (i, c) ∈ walk nodes fuel x acc ↔ ∃ p, c = acc ++ p ∧ p.length < fuel ∧ PathTo nodes i x p := by
  induction fuel generalizing x acc with
  | zero => simp [walk]
  | succ fuel ih =>
    cases hx : nodes[x]? with
    | none =>
      simp only [walk, hx, List.not_mem_nil, false_iff]
      rintro ⟨p, -, -, hp⟩
      cases hp with
      | here _ _ h | left _ _ _ _ _ h | right _ _ _ _ _ h => rw [hx] at h; cases h
    | some n =>
      cases n with
      | leaf sym f =>
        simp only [walk, hx, List.mem_singleton, Prod.mk.injEq]
        constructor
        · rintro ⟨rfl, rfl⟩
          exact ⟨[], by simp, by simp, .here sym f hx⟩
        · rintro ⟨p, rfl, -, hp⟩
          cases hp with
          | here => simp
          | left _ _ _ _ _ h | right _ _ _ _ _ h => rw [hx] at h; cases h
      | internal l r f =>
        simp only [walk, hx, List.mem_append, ih]
        constructor
        · rintro (⟨p, rfl, hl, hp⟩ | ⟨p, rfl, hl, hp⟩)
          · exact ⟨false :: p, by simp, by simpa using hl, .left x l r f p hx hp⟩
          · exact ⟨true :: p, by simp, by simpa using hl, .right x l r f p hx hp⟩
        · rintro ⟨p, rfl, hl, hp⟩
          cases hp with
          | here _ _ h => rw [hx] at h; cases h
          | left _ _ _ _ p h rest =>
            rw [hx] at h; cases h
            exact .inl ⟨p, by simp, by simpa using hl, rest⟩
          | right _ _ _ _ p h rest =>
            rw [hx] at h; cases h
            exact .inr ⟨p, by simp, by simpa using hl, rest⟩

/-! ### Paths in a tree that R20 admits -/

/-- Below FT's size the nodes are leaves, so a node with children comes after them and after its children. -/
theorem treeWf_children_lt (h : TreeWf ft t) {k l r f : Nat}
    (hk : t.nodes[k]? = some (.internal l r f)) : l < k ∧ r < k := by
  by_cases hlt : k < ft.length
  · have := h.leaves k ft[k] (List.getElem?_eq_getElem hlt)
    rw [hk] at this
    cases this
  · obtain ⟨l', r', hn, hl, hr, -⟩ := h.internals k _ hk (Nat.le_of_not_lt hlt)
    cases hn
    exact ⟨hl, hr⟩

/-- Each edge goes to a smaller index, so a path is no longer than the indices it passes. -/
theorem pathTo_length_add_le (h : TreeWf ft t) (hp : PathTo t.nodes i x c) : c.length + i ≤ x := by
  induction hp with
  | here => simp
  | left x l r f c hx _ ih =>
    have := (treeWf_children_lt h hx).1
    simp only [List.length_cons]
    omega
  | right x l r f c hx _ ih =>
    have := (treeWf_children_lt h hx).2
    simp only [List.length_cons]
    omega

theorem mem_children : x ∈ children nodes ↔
    ∃ (k l r f : Nat), nodes[k]? = some (.internal l r f) ∧ (x = l ∨ x = r) := by
  simp only [children, List.mem_flatMap]
  constructor
  · rintro ⟨n, hn, hx⟩
    obtain ⟨k, hk⟩ := List.getElem?_of_mem hn
    cases n with
    | leaf sym f => simp [childrenOf] at hx
    | internal l r f => exact ⟨k, l, r, f, hk, by simpa [childrenOf] using hx⟩
  · rintro ⟨k, l, r, f, hk, hx⟩
    exact ⟨_, List.mem_of_getElem? hk, by simpa [childrenOf] using hx⟩

/-- Every node but the root has a parent (R20). -/
theorem treeWf_has_parent (h : TreeWf ft t) (hx : x < t.nodes.length) (hr : x ≠ t.root) :
    ∃ (k l r f : Nat), t.nodes[k]? = some (.internal l r f) ∧ (x = l ∨ x = r) := by
  have hm : x ∈ t.root :: children t.nodes := h.strict.mem_iff.mpr (List.mem_range.mpr hx)
  rcases List.mem_cons.mp hm with hm | hm
  · exact absurd hm hr
  · exact mem_children.mp hm

/-- A path from any node goes on upward to the root. -/
theorem treeWf_path_to_root (h : TreeWf ft t) {x : Nat} {c : Bits} (hx : x < t.nodes.length)
    (hp : PathTo t.nodes i x c) : ∃ c', PathTo t.nodes i t.root c' := by
  by_cases hr : x = t.root
  · exact ⟨c, hr ▸ hp⟩
  · obtain ⟨k, l, r, f, hk, hlr⟩ := treeWf_has_parent h hx hr
    obtain ⟨hkl, -⟩ := List.getElem?_eq_some_iff.mp hk
    obtain ⟨hl, hr⟩ := treeWf_children_lt h hk
    rcases hlr with rfl | rfl
    · exact treeWf_path_to_root h hkl (.left k _ _ f c hk hp)
    · exact treeWf_path_to_root h hkl (.right k _ _ f c hk hp)
termination_by t.nodes.length - x

theorem treeWf_root_lt (h : TreeWf ft t) : t.root < t.nodes.length :=
  List.mem_range.mp (h.strict.mem_iff.mp (by simp))

/-- The root is the last node: every other node has a parent after it. -/
theorem treeWf_root_last (h : TreeWf ft t) : t.root + 1 = t.nodes.length := by
  have hroot := treeWf_root_lt h
  by_contra hne
  obtain ⟨k, l, r, f, hk, hlr⟩ := treeWf_has_parent h (x := t.nodes.length - 1) (by omega) (by omega)
  obtain ⟨hkl, -⟩ := List.getElem?_eq_some_iff.mp hk
  have := treeWf_children_lt h hk
  omega

theorem treeWf_slot_lt (h : TreeWf ft t) (hi : i < ft.length) : i < t.nodes.length := by
  have := h.node_count
  omega

/-! ### The generated codes -/

/-- `codeOf` is a code of the slot's leaf: the path from the root, or "0" for a lone leaf (R112, R113). -/
theorem codeOf_isCode (h : TreeWf ft t) (hi : i < ft.length) : IsCode t i (codeOf t i) := by
  unfold IsCode codeOf
  split
  · rfl
  · have hleaf : PathTo t.nodes i i [] := .here _ _ (h.leaves i ft[i] (List.getElem?_eq_getElem hi))
    obtain ⟨p, hp⟩ := treeWf_path_to_root h (treeWf_slot_lt h hi) hleaf
    have hlen : p.length < t.nodes.length := by
      have := pathTo_length_add_le h hp
      have := treeWf_root_lt h
      omega
    have hmem : (i, p) ∈ walk t.nodes t.nodes.length t.root [] := mem_walk.mpr ⟨p, rfl, hlen, hp⟩
    cases hl : (walk t.nodes t.nodes.length t.root []).lookup i with
    | none => exact absurd (List.lookup_eq_none_iff.mp hl _ hmem) (by simp)
    | some c =>
      obtain ⟨l₁, l₂, hw, -⟩ := List.lookup_eq_some_iff.mp hl
      have hc : (i, c) ∈ walk t.nodes t.nodes.length t.root [] := by simp [hw]
      obtain ⟨q, rfl, -, hq⟩ := mem_walk.mp hc
      exact hq

/-- No code is empty (R114): the root of a tree with two or more leaves is no leaf. -/
theorem codeOf_ne_nil (h : TreeWf ft t) (hi : i < ft.length) : codeOf t i ≠ [] := by
  have hc := codeOf_isCode h hi
  unfold IsCode at hc
  split at hc
  · simp [hc]
  next hn =>
    intro he
    rw [he] at hc
    have hcount := h.node_count
    have hroot := treeWf_root_last h
    have : i = t.root := by cases hc; rfl
    omega

/-- No code is a beginning of another slot's code (R114). -/
theorem codeOf_prefix (h : TreeWf ft t) (hi : i < ft.length) (hj : j < ft.length)
    (hp : codeOf t i <+: codeOf t j) : i = j := by
  have hci := codeOf_isCode h hi
  have hcj := codeOf_isCode h hj
  unfold IsCode at hci hcj
  split at hci
  next hn =>
    have := h.node_count
    omega
  next hn =>
    rw [if_neg hn] at hcj
    obtain ⟨d, hd⟩ := hp
    rw [← hd] at hcj
    exact (pathTo_prefix hci hcj).2

theorem codeOf_prefixFree (h : TreeWf ft t) :
    PrefixFree ((List.range ft.length).map (codeOf t)) := by
  refine List.pairwise_map.mpr (List.pairwise_lt_range.imp_of_mem fun hi hj hlt => ?_)
  have hi := List.mem_range.mp hi
  have hj := List.mem_range.mp hj
  exact ⟨fun hp => hlt.ne (codeOf_prefix h hi hj hp), fun hp => hlt.ne' (codeOf_prefix h hj hi hp)⟩

end Sys2Proof.Proofs

/-! ## The invariant of R44

What each command does to CT, DPREFIX, STAGE and the phase's own facts, and the step of the whole invariant. -/

namespace Sys2Proof.Proofs

open Sys2Proof.Machine Sys2Proof.Safety Sys2Proof.Laws

variable {s t : State} {out : List Word}

/-- The part of the invariant that speaks of CT, DPREFIX, STAGE and PHASE. -/
structure TablesWf (s : State) : Prop where
  table : TableWf s.par s.ct
  dprefix : DprefixWf s
  stage : StageWf s
  phase : PhaseWf s

theorem inv_iff : Inv s ↔ s.par.Wf ∧ (FreqWf s ∧ TablesWf s) ∧ ErrorWf s ∧ QueuesWf s := by
  constructor
  · rintro ⟨hpar, hfreq, htab, hdp, hst, hph, herr, hq⟩
    exact ⟨hpar, ⟨hfreq, htab, hdp, hst, hph⟩, herr, hq⟩
  · rintro ⟨hpar, ⟨hfreq, htab, hdp, hst, hph⟩, herr, hq⟩
    exact ⟨hpar, hfreq, htab, hdp, hst, hph, herr, hq⟩

theorem stage_none (h : StageWf s) (hl : s.phase ≠ .loading) (he : s.phase ≠ .error) :
    s.stage = none := by
  cases hs : s.stage with
  | none => rfl
  | some e => exact absurd (h e hs).2 (not_or.mpr ⟨hl, he⟩)

theorem stageWf_none (h : s.stage = none) : StageWf s := fun e he => by simp [h] at he

theorem tableWf_nil (p : Params) : TableWf p [] := ⟨by simp, by simp, by simp, .nil, by simp⟩

theorem tablesWf_clearAll (s : State) : TablesWf (clearAll s) :=
  ⟨tableWf_nil _, .inl rfl, stageWf_none rfl, rfl, rfl, rfl, rfl, rfl⟩

/-! ### Counting and building -/

theorem cntBody_tablesWf {sym : Symbol} (h : cntBody sym s = .done t out)
    (ha : s.phase ∈ allowed (.cnt sym)) (hs : TablesWf s) : TablesWf t := by
  obtain ⟨htab, hdp, hst, hph⟩ := hs
  obtain ⟨-, ft, rfl, hft⟩ := cntBody_done h
  have hne : ft ≠ [] := by
    rcases hft with ⟨-, -, rfl⟩ | ⟨_, _, _, -, rfl⟩ <;> simp
  have hp : s.phase = .idle ∨ s.phase = .counting := by simpa [allowed] using ha
  have hnone : s.stage = none := by
    rcases hp with hp | hp <;> exact stage_none hst (by simp [hp]) (by simp [hp])
  refine ⟨htab, hdp, stageWf_none hnone, hne, ?_⟩
  rcases hp with hp | hp <;> simp only [PhaseWf, hp] at hph
  · obtain ⟨-, hct, -, -, htree⟩ := hph
    exact ⟨hct, htree⟩
  · exact hph.2

theorem bldBody_tablesWf {draw : Nat → Nat} (h : bldBody draw s = .done t out)
    (ha : s.phase ∈ allowed .bld) (hs : TablesWf s) : TablesWf t := by
  obtain ⟨htab, hdp, hst, hph⟩ := hs
  obtain ⟨hne, rfl⟩ := bldBody_done h
  have hp : s.phase = .idle ∨ s.phase = .counting := by simpa [allowed] using ha
  have hnone : s.stage = none := by
    rcases hp with hp | hp <;> exact stage_none hst (by simp [hp]) (by simp [hp])
  have hct : s.ct = [] := by
    rcases hp with hp | hp <;> simp only [PhaseWf, hp] at hph <;> exact hph.2.1
  exact ⟨htab, hdp, stageWf_none hnone, hne, hct, _, rfl, built_treeWf (buildTree_built _ _ hne)⟩

/-! ### Generating -/

theorem generatedCodes_length (s : State) : (generatedCodes s).length = s.ft.length := by
  simp [generatedCodes]

theorem generatedTable_syms (s : State) :
    (generatedTable s).map CodeEntry.sym = s.ft.map FreqEntry.sym := by
  apply List.ext_getElem <;> simp [generatedTable, generatedCodes_length]

theorem generatedTable_codes (s : State) :
    (generatedTable s).map CodeEntry.code = generatedCodes s := by
  apply List.ext_getElem <;> simp [generatedTable, generatedCodes_length]

theorem code_mem_generatedCodes {e : CodeEntry} (h : e ∈ generatedTable s) :
    e.code ∈ generatedCodes s := generatedTable_codes s ▸ List.mem_map_of_mem h

/-- The table GEN writes is one that R22 admits (R114). -/
theorem generatedTable_wf {tr : HTree} (hf : FreqWf s) (htree : s.tree = some tr)
    (htr : TreeWf s.ft tr) (hlen : ∀ c ∈ generatedCodes s, c.length ≤ s.par.maxCodeLen) :
    TableWf s.par (generatedTable s) := by
  have hcodes : generatedCodes s = (List.range s.ft.length).map (codeOf tr) := by
    simp [generatedCodes, treeOf, htree]
  refine ⟨?_, fun e he => ?_, fun e he => hlen _ (code_mem_generatedCodes he), ?_, ?_⟩
  · rw [generatedTable_syms]
    exact hf.keys_unique
  · have hm := code_mem_generatedCodes he
    rw [hcodes] at hm
    obtain ⟨i, hi, hc⟩ := List.mem_map.mp hm
    rw [← hc]
    exact codeOf_ne_nil htr (List.mem_range.mp hi)
  · rw [generatedTable_codes, hcodes]
    exact codeOf_prefixFree htr
  · have hl := congrArg List.length (generatedTable_syms s)
    rw [List.length_map, List.length_map] at hl
    exact hl ▸ hf.capacity

theorem genBody_tablesWf (h : genBody s = .done t out) (ha : s.phase ∈ allowed .gen)
    (hf : FreqWf s) (hs : TablesWf s) : TablesWf t := by
  obtain ⟨-, -, hst, hph⟩ := hs
  obtain ⟨hlen, rfl⟩ := genBody_done h
  have hp : s.phase = .tree := by simpa [allowed] using ha
  simp only [PhaseWf, hp] at hph
  obtain ⟨hft, -, tr, htree, htr⟩ := hph
  have hnone : s.stage = none := stage_none hst (by simp [hp]) (by simp [hp])
  have hne : generatedTable s ≠ [] := fun he => hft (by simpa [he] using (generatedTable_syms s).symm)
  exact ⟨generatedTable_wf hf htree htr hlen, .inl rfl, stageWf_none hnone, hne, rfl, hnone,
    .inl (generatedTable_syms s)⟩

/-! ### Decoding -/

/-- `d` can be the pending bits of a table (R24): none, or a proper beginning of some code. -/
def PendingIn (ct : List CodeEntry) (d : Bits) : Prop :=
  d = [] ∨ ∃ e ∈ ct, d <+: e.code ∧ d ≠ e.code

theorem dprefixWf_iff : DprefixWf s ↔ PendingIn s.ct s.dpre := Iff.rfl

theorem decodeBit_pending {ct : List CodeEntry} {d d' : Bits} {b : Bool}
    (h : decodeBit ct d b = some (d', out)) : PendingIn ct d' := by
  rcases decodeBit_cases ct d b with ⟨e, -, hd⟩ | ⟨-, he, hd⟩ | ⟨-, -, hd⟩ <;> rw [hd] at h <;>
    cases h
  · exact .inl rfl
  · exact .inr (extends_iff.mp he)

theorem decodeBits_pending {ct : List CodeEntry} {bits d d' : Bits}
    (hd : PendingIn ct d) (h : (decodeBits ct d bits).1 = some d') : PendingIn ct d' := by
  induction bits generalizing d with
  | nil => cases h; exact hd
  | cons b bs ih =>
    simp only [decodeBits] at h
    cases hb : decodeBit ct d b with
    | none => rw [hb] at h; cases h
    | some r =>
      rw [hb] at h
      exact ih (decodeBit_pending hb) h

theorem dbitBody_tablesWf {bits : Bits} (h : dbitBody bits s = .done t out)
    (hs : TablesWf s) : TablesWf t := by
  obtain ⟨htab, hdp, hst, hph⟩ := hs
  obtain ⟨d, hd, rfl⟩ := dbitBody_done h
  have hpend : PendingIn s.ct d := decodeBits_pending (dprefixWf_iff.mp hdp) hd
  exact ⟨htab, dprefixWf_iff.mpr hpend, hst, hph⟩

/-! ### Loading -/

theorem lsymBody_tablesWf {sym : Symbol} (h : lsymBody sym s = .done t out)
    (ha : s.phase ∈ allowed (.lsym sym)) (hs : TablesWf s) : TablesWf t := by
  obtain ⟨htab, hdp, -, hph⟩ := hs
  obtain rfl := lsymBody_done h
  refine ⟨htab, hdp, fun e he => ?_, ?_⟩
  · cases he
    exact ⟨Nat.zero_le _, .inl rfl⟩
  · have hp : s.phase = .idle ∨ s.phase = .loading := by simpa [allowed] using ha
    rcases hp with hp | hp <;> simp only [PhaseWf, hp] at hph
    · obtain ⟨hft, -, htot, -, htree⟩ := hph
      exact ⟨hft, htot, htree, by simp⟩
    · obtain ⟨hft, htot, htree, -⟩ := hph
      exact ⟨hft, htot, htree, by simp⟩

theorem lbitBody_tablesWf {bits : Bits} (h : lbitBody bits s = .done t out)
    (ha : s.phase ∈ allowed (.lbit bits)) (hs : TablesWf s) : TablesWf t := by
  obtain ⟨htab, hdp, -, hph⟩ := hs
  obtain ⟨e, -, hlen, rfl⟩ := lbitBody_done h
  have hp : s.phase = .loading := by simpa [allowed] using ha
  simp only [PhaseWf, hp] at hph
  obtain ⟨hft, htot, htree, -⟩ := hph
  refine ⟨htab, hdp, fun e' he' => ?_, ?_⟩
  · cases he'
    exact ⟨by simpa using hlen, .inl hp⟩
  · simp only [PhaseWf, hp]
    exact ⟨hft, htot, htree, by simp⟩

/-- An entry that passes the checks of R120 fits into the table. -/
theorem tableWf_append {p : Params} {ct : List CodeEntry} {e : CodeEntry} (h : TableWf p ct)
    (hne : e.code ≠ []) (hlen : e.code.length ≤ p.maxCodeLen) (hnew : e.sym ∉ ct.map CodeEntry.sym)
    (hfree : ∀ d ∈ ct, ¬ d.code <+: e.code ∧ ¬ e.code <+: d.code) (hroom : ct.length ≠ p.nSym) :
    TableWf p (ct ++ [e]) := by
  obtain ⟨hk, hn, hb, hpf, hcap⟩ := h
  refine ⟨?_, ?_, ?_, ?_, ?_⟩
  · rw [List.map_append, List.nodup_append]
    exact ⟨hk, by simp, fun a ha b hb hab => hnew (by simp_all)⟩
  · simpa [or_imp, forall_and, hne] using hn
  · simpa [or_imp, forall_and, hlen] using hb
  · unfold PrefixFree at hpf ⊢
    rw [List.map_append, List.pairwise_append]
    exact ⟨hpf, by simp, by simpa using hfree⟩
  · simp only [List.length_append, List.length_singleton]
    omega

theorem lcomBody_tablesWf (h : lcomBody s = .done t out) (ha : s.phase ∈ allowed .lcom)
    (hs : TablesWf s) : TablesWf t := by
  obtain ⟨htab, hdp, hst, hph⟩ := hs
  obtain ⟨e, he, hne, hnew, hfree, hroom, rfl⟩ := lcomBody_done h
  have hp : s.phase = .loading := by simpa [allowed] using ha
  simp only [PhaseWf, hp] at hph
  obtain ⟨hft, htot, htree, -⟩ := hph
  refine ⟨tableWf_append htab hne (hst e he).1 hnew hfree hroom, ?_, stageWf_none rfl, ?_⟩
  · rcases hdp with hd | ⟨e', he', hpre⟩
    · exact .inl hd
    · exact .inr ⟨e', List.mem_append_left _ he', hpre⟩
  · simp only [PhaseWf, hp]
    exact ⟨hft, htot, htree, by simp⟩

theorem lendBody_tablesWf (h : lendBody s = .done t out) (ha : s.phase ∈ allowed .lend)
    (hs : TablesWf s) : TablesWf t := by
  obtain ⟨htab, -, -, hph⟩ := hs
  obtain ⟨hnone, hct, rfl⟩ := lendBody_done h
  have hp : s.phase = .loading := by simpa [allowed] using ha
  simp only [PhaseWf, hp] at hph
  obtain ⟨hft, -, htree, -⟩ := hph
  exact ⟨htab, .inl rfl, stageWf_none hnone, hct, htree, hnone, .inr hft⟩

/-! ### The step -/

theorem bodyOf_tablesWf {i : Instr} (hc : i ≠ .clr) (ha : s.phase ∈ allowed i)
    (h : bodyOf i s = .done t out) (hf : FreqWf s) (hs : TablesWf s) : TablesWf t := by
  cases i with
  | clr => exact absurd rfl hc
  | cnt sym => exact cntBody_tablesWf h ha hs
  | bld => exact bldBody_tablesWf h ha hs
  | gen => exact genBody_tablesWf h ha hf hs
  | enc sym => exact encBody_done h ▸ hs
  | dbit bits => exact dbitBody_tablesWf h hs
  | dend => exact dendBody_done h ▸ hs
  | lsym sym => exact lsymBody_tablesWf h ha hs
  | lbit bits => exact lbitBody_tablesWf h ha hs
  | lcom => exact lcomBody_tablesWf h ha hs
  | lend => exact lendBody_tablesWf h ha hs
  | dump => exact dumpBody_done h ▸ hs
  | qfreq sym => exact qfreqBody_done h ▸ hs
  | sync tag => cases h; exact hs

theorem tablesWf_keptByParts : KeptByParts fun s => FreqWf s ∧ TablesWf s where
  same h := fun ⟨hf, htab, hdp, hst, hph⟩ =>
    ⟨freqWf_keptByParts.same h hf, by rw [h]; exact ⟨htab, hdp, hst, hph⟩⟩
  error h := fun ⟨hf, htab, hdp, hst, _⟩ => by
    refine ⟨freqWf_keptByParts.error h hf, ?_⟩
    rw [h.1]
    exact ⟨htab, hdp, fun e he => ⟨(hst e he).1, .inr rfl⟩, trivial⟩
  clear := fun {s} ⟨hf, _⟩ => ⟨freqWf_keptByParts.clear hf, tablesWf_clearAll s⟩
  body hc ha hb := fun ⟨hf, hs⟩ =>
    ⟨freqWf_keptByParts.body hc ha hb hf, bodyOf_tablesWf hc ha hb hf hs⟩

/-- Settles O45: each part of the invariant is kept, the tables together with FT, since GEN makes CT from FT. -/
theorem stepKeepsStatesWellFormed : Obligations.StepKeepsStatesWellFormed := by
  intro s t hs h
  obtain ⟨hpar, htab, herr, hq⟩ := inv_iff.mp hs
  refine inv_iff.mpr ⟨?_, tablesWf_keptByParts.step htab h, errorRegistersStayConsistent s t herr h,
    queuesStayWithinTheirCapacity s t hq h⟩
  rw [parametersNeverChange s t h]
  exact hpar

theorem inv_resetWith {p : Params} (hp : p.Wf) : Inv (State.resetWith p) :=
  inv_iff.mpr ⟨hp, ⟨freqWf_empty rfl rfl, tablesWf_clearAll (State.resetWith p)⟩,
    errorWf_clearAll (State.resetWith p), Nat.zero_le _, Nat.zero_le _⟩

/-- Settles O44: after reset every table and queue is empty, and the default parameters are in R6's ranges. -/
theorem resetStateIsWellFormed : Obligations.ResetStateIsWellFormed :=
  ⟨fun _ hp => inv_resetWith hp,
    inv_resetWith ⟨by decide, by decide, by decide, by decide, by decide⟩⟩

end Sys2Proof.Proofs

/-! ## The register window

What a HOST access of each register does, and the fields of the words it reads (R31 to R40). -/

namespace Sys2Proof.Proofs

open Sys2Proof.Machine Sys2Proof.Safety Sys2Proof.Laws

variable {s u : State} {off : Nat} {v : Word}

/-! ### Accesses -/

/-- The value a read returns is that of the state before the step. -/
theorem readValue_reads (h : Reads s off u) (o : Nat) : readValue o u = readValue o s := by
  obtain ⟨rest, -, rfl⟩ := h
  rfl

/-- A read of any register but RSP only gives the HOST its value. -/
theorem step_reads_value (h : Reads s off u) (hl : off < 64) (ha : off % 4 = 0) (hr : off ≠ 0x04) :
    step s = .next { u with busData := some (readValue off s) } := by
  rw [step_reads h hl ha, readReg, if_neg hr, readValue_reads h]

/-- A write of any register but CMD and CTRL is ignored. -/
theorem step_writes_ignored (h : Writes s off v u) (hl : off < 64) (ha : off % 4 = 0)
    (hc : off ≠ 0x00) (hr : off ≠ 0x20) : step s = .next u := by
  rw [step_writes h hl ha, writeReg, if_neg hc, if_neg hr]

/-- Settles O5: the write of CMD by `writeCmd_cases`. -/
theorem cmdWriteQueuesOrDropsTheWord : Obligations.CmdWriteQueuesOrDropsTheWord := by
  refine fun s u v => ⟨fun h => ?_, fun h => step_reads_value h (by decide) (by decide) (by decide)⟩
  rw [step_writes h (by decide) (by decide)]
  obtain ⟨rest, -, rfl⟩ := h
  rw [show writeReg 0x00 v { s with env := rest } = writeCmd v { s with env := rest } from rfl]
  rcases writeCmd_cases v { s with env := rest } with ⟨hroom, h⟩ | ⟨hroom, hp, h⟩ | ⟨hroom, hp, h⟩ <;>
    rw [h]
  · exact ⟨fun _ => rfl, fun hn => absurd hroom hn, fun hn => absurd hroom hn⟩
  · exact ⟨fun hn => absurd hn hroom, fun _ hn => absurd hp hn, fun _ _ => rfl⟩
  · exact ⟨fun hn => absurd hn hroom, fun _ _ => rfl, fun _ hn => absurd hn hp⟩

/-- Settles O6: RSPQ as it stands decides what a read of RSP takes. -/
theorem rspReadTakesTheOldestResponse : Obligations.RspReadTakesTheOldestResponse := by
  refine fun s u => ⟨fun h => ?_, fun v h =>
    step_writes_ignored h (by decide) (by decide) (by decide) (by decide)⟩
  rw [step_reads h (by decide) (by decide)]
  obtain ⟨rest, -, rfl⟩ := h
  refine ⟨fun w q hq => ?_, fun hq => ?_⟩ <;>
    simp [readReg, readValue, rspValue, hq]

/-! ### Fields -/

/-- The high part of a word put together of two. -/
theorem extractLsb'_append_high {m n : Nat} (x : BitVec m) (y : BitVec n) :
    (x ++ y).extractLsb' n m = x := by
  rw [BitVec.extractLsb'_append_eq_of_le (Nat.le_refl n), Nat.sub_self, BitVec.extractLsb'_eq_self]

/-- The low part of a word put together of two. -/
theorem extractLsb'_append_low {m n : Nat} (x : BitVec m) (y : BitVec n) :
    (x ++ y).extractLsb' 0 n = y := by
  rw [BitVec.extractLsb'_append_eq_of_add_le (by omega), BitVec.extractLsb'_eq_self]

/-- The bytes of a word. -/
theorem extractLsb'_bytes (a b c d : BitVec 8) :
    ((a ++ (b ++ (c ++ d)) : Word).extractLsb' 0 8 = d ∧
    (a ++ (b ++ (c ++ d)) : Word).extractLsb' 8 8 = c ∧
    (a ++ (b ++ (c ++ d)) : Word).extractLsb' 16 8 = b ∧
    (a ++ (b ++ (c ++ d)) : Word).extractLsb' 24 8 = a) := by
  refine ⟨?_, ?_, ?_, extractLsb'_append_high _ _⟩ <;>
    rw [BitVec.extractLsb'_append_eq_of_add_le (by decide)]
  · rw [BitVec.extractLsb'_append_eq_of_add_le (by decide), extractLsb'_append_low]
  · rw [BitVec.extractLsb'_append_eq_of_add_le (by decide), extractLsb'_append_high]
  · exact extractLsb'_append_high _ _

/-- The upper three bytes of STATUS (R33); the low byte holds PHASE and the flags. -/
theorem statusWord_counts (s : State) :
    (statusWord s).extractLsb' 8 8 = BitVec.ofNat 8 (cmdFree s) ∧
    (statusWord s).extractLsb' 16 8 = BitVec.ofNat 8 s.rspq.length ∧
    (statusWord s).extractLsb' 24 8 = 0x00#8 :=
  (extractLsb'_bytes _ _ _ _).2

theorem statusWord_phase (s : State) : (statusWord s).extractLsb' 0 3 = phaseNum s.phase := by
  unfold statusWord
  iterate 7 rw [BitVec.extractLsb'_append_eq_of_add_le (by decide)]
  exact extractLsb'_append_low _ _

theorem statusWord_flags (s : State) :
    (statusWord s).getLsbD 3 = flagBusy s ∧ (statusWord s).getLsbD 4 = flagErr s ∧
    (statusWord s).getLsbD 5 = flagOvf s ∧ (statusWord s).getLsbD 6 = flagDpend s ∧
    (statusWord s).getLsbD 7 = flagStageOpen s := by
  simp only [statusWord, BitVec.getLsbD_append]
  simp

theorem errinfoWord_fields (s : State) :
    (errinfoWord s).extractLsb' 0 4 = errNum s.errcode ∧
    (errinfoWord s).extractLsb' 4 4 = 0x0#4 ∧
    (errinfoWord s).extractLsb' 8 8 = s.errop ∧
    (errinfoWord s).extractLsb' 16 16 = 0x0000#16 := by
  unfold errinfoWord
  refine ⟨?_, ?_, ?_, extractLsb'_append_high _ _⟩ <;>
    rw [BitVec.extractLsb'_append_eq_of_add_le (by decide)]
  · rw [BitVec.extractLsb'_append_eq_of_add_le (by decide), extractLsb'_append_low]
  · rw [BitVec.extractLsb'_append_eq_of_add_le (by decide), extractLsb'_append_high]
  · exact extractLsb'_append_high _ _

/-- Settles O7: the fields of STATUS. -/
theorem statusShowsTheState : Obligations.StatusShowsTheState := by
  refine fun s u => ⟨fun h => ⟨statusWord s, ?_⟩, fun v h =>
    step_writes_ignored h (by decide) (by decide) (by decide) (by decide)⟩
  obtain ⟨hbusy, herr, hovf, hdpend, hstage⟩ := statusWord_flags s
  rw [statusWord_phase, hbusy, herr, hovf, hdpend, hstage]
  refine ⟨step_reads_value h (by decide) (by decide) (by decide), ?_, ?_, ?_, ?_, ?_, ?_, ?_, ?_, rfl,
    ?_, ?_, statusWord_counts s⟩
  iterate 6 exact fun hp => by rw [hp]; rfl
  · simp [flagBusy]
  · simp [flagErr]
  · simp [flagDpend]
  · simp [flagStageOpen, Option.isSome_iff_ne_none]

/-- Settles O8: the fields of ERRINFO, COUNTS and TOTAL. -/
theorem errinfoCountsAndTotalShowTheState : Obligations.ErrinfoCountsAndTotalShowTheState := by
  refine fun s u => ⟨fun h => ⟨errinfoWord s, ?_, errinfoWord_fields s⟩,
    fun h => ⟨countsWord s, ?_, extractLsb'_append_low _ _, extractLsb'_append_high _ _⟩,
    fun h => ?_, fun v off ho h => ?_⟩
  · exact step_reads_value h (by decide) (by decide) (by decide)
  · exact step_reads_value h (by decide) (by decide) (by decide)
  · exact step_reads_value h (by decide) (by decide) (by decide)
  · apply step_writes_ignored h <;> omega

/-- Settles O9: the fields of CFG0 and CFG1, and that no step changes the parameters. -/
theorem configurationRegistersShowTheParameters :
    Obligations.ConfigurationRegistersShowTheParameters := by
  refine fun s u => ⟨
    fun h => ⟨cfg0Word s.par, ?_, extractLsb'_append_low _ _, extractLsb'_append_high _ _⟩,
    fun h => ⟨cfg1Word s.par, ?_, extractLsb'_bytes _ _ _ _⟩, fun v off ho h => ?_, fun t h => ?_⟩
  · exact step_reads_value h (by decide) (by decide) (by decide)
  · exact step_reads_value h (by decide) (by decide) (by decide)
  · apply step_writes_ignored h <;> omega
  · rw [parametersNeverChange s t h]
    exact ⟨rfl, rfl⟩

/-! ### Reserved offsets, and the registers after reset -/

theorem readValue_reserved (h : 0x24 ≤ off) (s : State) : readValue off s = 0x00000000#32 := by
  unfold readValue
  iterate 7 rw [if_neg (by omega)]

/-- The data a read of a register other than RSP leaves with the HOST. -/
theorem busData_of_read {t : State} {w : Word} (h : Reads s off u) (hl : off < 64)
    (ha : off % 4 = 0) (hr : off ≠ 0x04) (ht : step s = .next t) (hw : t.busData = some w) :
    w = readValue off s := by
  rw [step_reads_value h hl ha hr] at ht
  cases ht
  exact (Option.some.inj hw).symm

/-- Settles O10: reserved offsets, and the reserved fields of STATUS and ERRINFO. -/
theorem reservedOffsetsAndFieldsReadZero : Obligations.ReservedOffsetsAndFieldsReadZero := by
  refine fun s u off => ⟨fun hlo hhi ha => ⟨fun h => ?_, fun v h => ?_⟩, fun h t w ht hw => ?_,
    fun h t w ht hw => ?_⟩
  · rw [step_reads_value h (by omega) ha (by omega), readValue_reserved hlo]
  · exact step_writes_ignored h (by omega) ha (by omega) (by omega)
  · obtain rfl := busData_of_read h (by decide) (by decide) (by decide) ht hw
    exact (statusWord_counts s).2.2
  · obtain rfl := busData_of_read h (by decide) (by decide) (by decide) ht hw
    obtain ⟨-, hlow, -, hhigh⟩ := errinfoWord_fields s
    exact ⟨hlow, hhigh⟩

/-- Settles O13: both resets are the reset action of R151. -/
theorem resetTakesEveryFieldToItsResetValue : Obligations.ResetTakesEveryFieldToItsResetValue := by
  refine fun s u => ⟨fun h => ⟨resetBlock u, step_resets h, ?_⟩, fun v h hv => ?_, fun h =>
    step_reads_value h (by decide) (by decide) (by decide)⟩
  · have hp : u.par = s.par := by rw [resets_sameData h]
    simp [hp]
  · rw [step_writes h (by decide) (by decide)]
    rw [writeReg, if_neg (by decide), if_pos rfl, writeCtrl, if_neg (by rw [hv]; decide)]

theorem zero_bytes_append (y : BitVec 16) : (0x00#8 ++ (0x00#8 ++ y) : Word) = 0x0000#16 ++ y := by
  apply BitVec.eq_of_toNat_eq
  rw [BitVec.toNat_append, BitVec.toNat_append, BitVec.toNat_append]
  simp

/-- Settles O14: the words of the empty state. -/
theorem registersReadTheirResetValues : Obligations.RegistersReadTheirResetValues := by
  refine ⟨fun p => ⟨?_, ?_, ?_, rfl⟩, by decide, by decide, by decide⟩
  · rw [← zero_bytes_append]
    simp [statusWord, phaseNum, flagBusy, flagErr, flagOvf, flagDpend, flagStageOpen, cmdFree]
  · exact (by decide : (0x0000#16 ++ (0x00#8 ++ (0x0#4 ++ 0x0#4)) : Word) = 0x00000000#32)
  · exact (by decide : (0x0000#16 ++ 0x0000#16 : Word) = 0x00000000#32)

end Sys2Proof.Proofs

/-! ## Faults, side effects and the order of the responses

Which steps fault (R49, R132), which accesses change the block (R53), and what a step does to the response words on
their way from PEND through RSPQ to the HOST (R55). -/

namespace Sys2Proof.Proofs

open Sys2Proof.Machine Sys2Proof.Safety Sys2Proof.Laws

variable {s t u : State}

/-! ### Faults -/

/-- The next move is a HOST access that the window does not admit. -/
def BadAccess (s : State) : Prop :=
  ∃ addr width rest, (s.env = .read addr width :: rest ∨ ∃ v, s.env = .write addr width v :: rest) ∧
    ¬ AccessOk addr width

theorem admitAccess_faults {addr : Nat} {width : Width} (h : ¬ AccessOk addr width) :
    ∃ f, admitAccess addr width = .error f := by
  cases ha : admitAccess addr width with
  | ok off => exact absurd ⟨off, admitAccess_ok ha⟩ h
  | error f => exact ⟨f, rfl⟩

theorem step_faults_of_badAccess (h : BadAccess s) : ∃ f, step s = .fault f := by
  obtain ⟨addr, width, rest, hm, hbad⟩ := h
  obtain ⟨f, hf⟩ := admitAccess_faults hbad
  rcases hm with he | ⟨v, he⟩
  · exact ⟨f, by simp [step, nextMove, he, takeMove, hostRead, hf]⟩
  · exact ⟨f, by simp [step, nextMove, he, takeMove, hostWrite, hf]⟩

theorem execute_answers_next (s : State) : ∃ t, execute s = .next t := by
  unfold execute
  split
  · exact ⟨_, rfl⟩
  · split
    · exact exec_answers_next _ _
    · exact ⟨_, rfl⟩

theorem coreStep_answers_next (s : State) : ∃ t, coreStep s = .next t := by
  unfold coreStep
  split
  · split
    · exact execute_answers_next s
    · exact ⟨_, rfl⟩
  · exact ⟨_, rfl⟩

/-- Every step but a bad access answers a next state. -/
theorem step_answers_next (h : ¬ BadAccess s) : ∃ t, step s = .next t := by
  have admitted : ∀ addr width rest,
      (s.env = .read addr width :: rest ∨ ∃ v, s.env = .write addr width v :: rest) →
        AccessOk addr width := fun addr width rest hm =>
    by_contra fun hbad => h ⟨addr, width, rest, hm, hbad⟩
  cases he : s.env with
  | nil => rw [step_coreTurn (.inl ⟨he, rfl⟩)]; exact coreStep_answers_next _
  | cons m rest =>
    cases m with
    | core => rw [step_coreTurn (.inr he)]; exact coreStep_answers_next _
    | read addr width =>
      obtain ⟨off, hl, ha, rfl, rfl⟩ := admitted addr width rest (.inl he)
      exact ⟨_, step_reads ⟨rest, he, rfl⟩ hl ha⟩
    | write addr width v =>
      obtain ⟨off, hl, ha, rfl, rfl⟩ := admitted addr width rest (.inr ⟨v, he⟩)
      exact ⟨_, step_writes ⟨rest, he, rfl⟩ hl ha⟩
    | rst => exact ⟨_, step_resets (.inl ⟨rest, he, rfl⟩)⟩

/-- Settles O12: a bad access faults, and every other step answers a next state. -/
theorem stepFaultsExactlyOnABadHostAccess : Obligations.StepFaultsExactlyOnABadHostAccess := by
  intro s
  by_cases hbad : BadAccess s
  · obtain ⟨f, hf⟩ := step_faults_of_badAccess hbad
    exact ⟨⟨fun _ => hbad, fun _ => ⟨f, hf⟩⟩, fun r hr => by simp [hf] at hr⟩
  · obtain ⟨t, ht⟩ := step_answers_next hbad
    exact ⟨⟨fun ⟨f, hf⟩ => by simp [ht] at hf, fun h => absurd h hbad⟩, fun r hr => by simp [ht] at hr⟩

/-! ### Side effects -/

theorem step_writes_ctrl_ignored {v : Word} (h : Writes s 0x20 v u) (hv : v.getLsbD 0 = false) :
    step s = .next u := by
  obtain ⟨-, hctrl, -⟩ := resetTakesEveryFieldToItsResetValue s u
  exact hctrl v h hv

/-- Settles O11: no register's value depends on what the HOST has read. -/
theorem onlyThreeAccessesHaveASideEffect : Obligations.OnlyThreeAccessesHaveASideEffect := by
  refine fun s u off hl ha => ⟨fun hr h => ⟨readValue off s, step_reads_value h hl ha hr, ?_⟩,
    fun v hc hctrl h => ?_⟩
  · intro u' h'
    have hsame : readValue off { u with busData := some (readValue off s) } = readValue off s :=
      readValue_reads h off
    have hu' : { u' with busData := some (readValue off s) } = u' := by
      obtain ⟨rest, -, rfl⟩ := h'
      rfl
    rw [step_reads_value h' hl ha hr, hsame, hu']
  · by_cases ho : off = 0x20
    · subst ho
      exact step_writes_ctrl_ignored h (hctrl rfl)
    · exact step_writes_ignored h hl ha hc ho

/-! ### The order of the responses -/

/-- The response words on their way to the HOST, oldest first (R26, R27). -/
def responses (s : State) : List Word := s.rspq ++ s.pend

@[simp] theorem writeCmd_responses (v : Word) (s : State) :
    responses (writeCmd v s) = responses s := by
  rcases writeCmd_cases v s with ⟨-, h⟩ | ⟨-, -, h⟩ | ⟨-, -, h⟩ <;> rw [h] <;> rfl

theorem executes_responses {w : Word} (hx : Executes s w u) (hr : t.rspq = u.rspq) :
    responses t = responses s ++ t.pend := by
  obtain ⟨q, rest, -, -, hp, -, rfl⟩ := hx
  simp [responses, hr, hp]

/-- DELIVER moves the head of PEND to the end of RSPQ, so the responses stay in order. -/
theorem deliver_responses {v : Word} {q : List Word} (hp : s.pend = v :: q) (rest : List Move) :
    responses (deliver v q { s with env := rest }) = responses s := by
  simp [responses, deliver, hp]

/-- A read takes nothing, or the oldest word of RSPQ, which the HOST then holds. -/
theorem reads_responses {off : Nat} (h : Reads s off u) :
    responses (readReg off u) = responses s ∨
      off = 0x04 ∧ ∃ w, w :: responses (readReg off u) = responses s ∧
        (readReg off u).busData = some w := by
  obtain ⟨rest, -, rfl⟩ := h
  by_cases ho : off = 0x04
  · subst ho
    cases hq : s.rspq with
    | nil => exact .inl (by simp [responses, readReg, hq])
    | cons w q =>
      exact .inr ⟨rfl, w, by simp [responses, readReg, hq], by simp [readReg, readValue, rspValue]⟩
  · exact .inl (by simp [responses, readReg, ho])

/-- Everything a step can do to the responses: nothing, EXECUTE appends its output, a read of RSP takes the oldest,
or a reset drops them. -/
theorem step_responses (h : step s = .next t) :
    responses t = responses s ∨
    (∃ w u, Executes s w u ∧ responses t = responses s ++ t.pend) ∨
    (∃ w u, Reads s 0x04 u ∧ w :: responses t = responses s ∧ t.busData = some w) ∨
    ∃ u, Resets s u := by
  rcases step_cases h with ⟨w, u, i, hx, -, he⟩ | ⟨w, u, e, hx, -, rfl⟩ |
    ⟨v, q, rest, -, -, hp, rfl⟩ | ⟨rest, -, -, rfl⟩ | ⟨off, u, hr, -, -, rfl⟩ |
    ⟨off, v, u, hw, -, -, rfl⟩ | ⟨u, hr, -⟩
  · obtain ⟨-, -, hrsp, -⟩ := commandsLeaveQueuesAndParametersAlone i u t he
    exact .inr (.inl ⟨w, u, hx, executes_responses hx hrsp⟩)
  · exact .inr (.inl ⟨w, u, hx, executes_responses hx (illegalCommand_rspq w u)⟩)
  · exact .inl (deliver_responses hp rest)
  · exact .inl rfl
  · rcases reads_responses hr with hsame | ⟨rfl, w, htaken, hw⟩
    · exact .inl hsame
    · exact .inr (.inr (.inl ⟨w, u, hr, htaken, hw⟩))
  · have hu : responses u = responses s := by
      obtain ⟨rest, -, rfl⟩ := hw
      rfl
    rcases writeReg_cases off v u with ⟨-, h⟩ | ⟨rfl, hv, -⟩ | h
    · exact .inl (by rw [h, writeCmd_responses, hu])
    · exact .inr (.inr (.inr ⟨u, .inr ⟨v, hv, hw⟩⟩))
    · exact .inl (by rw [h, hu])
  · exact .inr (.inr (.inr ⟨u, hr⟩))

/-- Settles O19, by `step_responses`. -/
theorem responsesAreNeitherLostNorReordered : Obligations.ResponsesAreNeitherLostNorReordered := by
  intro s t h hno
  rcases step_responses h with hsame | ⟨w, u, hx, hadd⟩ | ⟨w, u, hr, htaken, hw⟩ | ⟨u, hu⟩
  · exact ⟨[], [], by simpa [responses] using hsame, by simp, by simp⟩
  · exact ⟨[], t.pend, hadd, by simp, fun _ => ⟨w, u, hx, rfl⟩⟩
  · exact ⟨[w], [], by simpa [responses] using htaken, fun _ => ⟨u, w, hr, rfl, hw⟩, by simp⟩
  · exact absurd hu (hno u)

end Sys2Proof.Proofs

/-! ## Encoding and decoding

A command word is the concatenation of its opcode and its operand field, and the operand field that of the fields of
its form; so Decode, which compares and cuts out the same fields, answers a command exactly for the word that
encodes it. -/

namespace Sys2Proof.Proofs

open Sys2Proof.Machine Sys2Proof.Safety Sys2Proof.Laws

variable {w : Word} {i : Instr}

/-! ### The fields of a word -/

/-- A field of a word is `x ++ y` exactly if its high part is `x` and its low part `y`. -/
theorem append_eq_extractLsb' {m n k : Nat} (x : BitVec m) (y : BitVec n) (v : BitVec k) (p : Nat) :
    x ++ y = v.extractLsb' p (m + n) ↔ x = v.extractLsb' (p + n) m ∧ y = v.extractLsb' p n := by
  rw [← BitVec.extractLsb'_append_extractLsb'_eq_extractLsb' rfl]
  refine ⟨fun h => ⟨?_, ?_⟩, fun ⟨hx, hy⟩ => by rw [hx, hy]⟩
  · rw [← extractLsb'_append_high x y, h, extractLsb'_append_high]
  · rw [← extractLsb'_append_low x y, h, extractLsb'_append_low]

/-- The word of a command is that of its opcode and its operand field (R66). -/
theorem encode_eq_iff :
    encode i = w ↔ opcodeOf i = opcodeByte w ∧ operandOf i = w.extractLsb' 0 24 := by
  have hw : w.extractLsb' 0 (8 + 24) = w := BitVec.extractLsb'_eq_self
  have hparts := append_eq_extractLsb' (opcodeOf i) (operandOf i) w 0
  rw [hw] at hparts
  exact hparts

theorem operandS_eq_iff {sym : Symbol} :
    operandS sym = w.extractLsb' 0 24 ↔ w.extractLsb' 21 3 = 0#3 ∧ w.extractLsb' 0 21 = sym := by
  rw [operandS, append_eq_extractLsb' 0#3 sym w 0, eq_comm (a := 0#3), eq_comm (a := sym)]

theorem operandT_eq_iff {tag : BitVec 16} :
    operandT tag = w.extractLsb' 0 24 ↔ w.extractLsb' 16 8 = 0#8 ∧ w.extractLsb' 0 16 = tag := by
  rw [operandT, append_eq_extractLsb' 0#8 tag w 0, eq_comm (a := 0#8), eq_comm (a := tag)]

/-! ### The bits of form B -/

theorem unusedZero_iff {n : Nat} :
    unusedZero w n = true ↔ ∀ k, k + n < 16 → w.getLsbD k = false := by
  rw [unusedZero, decide_eq_true_iff]
  refine ⟨fun h k hk => ?_, fun h => BitVec.eq_of_getLsbD_eq fun k hk => ?_⟩
  · have hb := congrArg (BitVec.getLsbD · k) h
    simpa [show k < 16 - n by omega] using hb
  · simp [hk, h k (by omega)]

/-- The low half of a word packs the bits `b` exactly if they are its bit string and the bits below are 0 (R51). -/
theorem packBits_eq_iff {b : Bits} (hb : b.length ≤ 16) :
    packBits b = w.extractLsb' 0 16 ↔ unusedZero w b.length = true ∧ bitstr w b.length = b := by
  rw [unusedZero_iff]
  constructor
  · intro h
    have hlow : ∀ k ≤ 15, w.getLsbD k = (packBits b).getLsbD k := fun k hk => by
      simp [h, show k < 16 by omega]
    refine ⟨fun k hk => ?_, bitstr_packBits w b hb hlow⟩
    rw [hlow k (by omega), packBits_getLsbD b hb k (by omega), List.getElem?_eq_none (by omega)]
    rfl
  · rintro ⟨hzero, hstr⟩
    refine BitVec.eq_of_getLsbD_eq fun k hk => ?_
    rw [packBits_getLsbD b hb k (by omega), BitVec.getLsbD_extractLsb', Nat.zero_add, decide_eq_true hk,
      Bool.true_and]
    by_cases hin : 15 - k < b.length
    · have hget := bitstr_getElem? w b.length (15 - k) hin
      rw [hstr, show 15 - (15 - k) = k by omega] at hget
      rw [hget, Option.getD_some]
    · rw [List.getElem?_eq_none (by omega), hzero k (by omega)]
      rfl

theorem operandB_eq_iff {b : Bits} (hb : b.length ≤ 16) :
    operandB b = w.extractLsb' 0 24 ↔ w.extractLsb' 21 3 = 0#3 ∧ countB w = b.length ∧
      unusedZero w b.length = true ∧ bitstr w b.length = b := by
  have hcount : BitVec.ofNat 5 b.length = w.extractLsb' 16 5 ↔ countB w = b.length := by
    rw [countB, BitVec.toNat_eq, BitVec.toNat_ofNat, Nat.mod_eq_of_lt (by omega), eq_comm]
  rw [operandB_eq, append_eq_extractLsb' 0#3 _ w 0, append_eq_extractLsb' _ (packBits b) w 0,
    eq_comm (a := 0#3), Nat.zero_add, Nat.zero_add, hcount, packBits_eq_iff hb]

theorem bitsWf_iff {b : Bits} : bitsWf b = true ↔ 1 ≤ b.length ∧ b.length ≤ 16 :=
  decide_eq_true_iff

/-- Form B decodes to the bits whose operand field the word has (R68). -/
theorem decodeB_ok_iff {k : Bits → Instr} (hk : Function.Injective k) {b : Bits} :
    decodeB w k = .ok (k b) ↔ bitsWf b = true ∧ operandB b = w.extractLsb' 0 24 := by
  rw [decodeB_ok, hk.eq_iff, bitsWf_iff]
  constructor
  · rintro ⟨hres, hcount, hzero, hstr⟩
    have hlen : countB w = b.length := by rw [← hstr, bitstr_length]
    rw [hlen] at hcount hzero hstr
    exact ⟨hcount, (operandB_eq_iff hcount.2).mpr ⟨hres, hlen, hzero, hstr⟩⟩
  · rintro ⟨hb, hop⟩
    obtain ⟨hres, hlen, hzero, hstr⟩ := (operandB_eq_iff hb.2).mp hop
    rw [hlen]
    exact ⟨hres, hb, hzero, hstr⟩

/-! ### The row of a command -/

/-- The row of the opcode map (R72) that a command belongs to. -/
def decodeRow (i : Instr) (w : Word) : Except DecodeError Instr :=
  match i with
  | .clr => decodeZ w .clr
  | .cnt _ => decodeS w .cnt
  | .bld => decodeZ w .bld
  | .gen => decodeZ w .gen
  | .enc _ => decodeS w .enc
  | .dbit _ => decodeB w .dbit
  | .dend => decodeZ w .dend
  | .lsym _ => decodeS w .lsym
  | .lbit _ => decodeB w .lbit
  | .lcom => decodeZ w .lcom
  | .lend => decodeZ w .lend
  | .dump => decodeZ w .dump
  | .qfreq _ => decodeS w .qfreq
  | .sync _ => decodeT w .sync

/-- The opcode selects the row. -/
theorem decode_eq_row (h : opcodeByte w = opcodeOf i) : decode w = decodeRow i w := by
  unfold decode
  rw [h]
  cases i <;> rfl

/-- A word decodes only to a command of its opcode. -/
theorem decode_ok_opcode (h : decode w = .ok i) : opcodeByte w = opcodeOf i := by
  rcases decode_rows w with ⟨ho, hd⟩ | ⟨ho, hd⟩ | ⟨ho, hd⟩ | ⟨ho, hd⟩ | ⟨ho, hd⟩ | ⟨ho, hd⟩ |
    ⟨ho, hd⟩ | ⟨ho, hd⟩ | ⟨ho, hd⟩ | ⟨ho, hd⟩ | ⟨ho, hd⟩ | ⟨ho, hd⟩ | ⟨ho, hd⟩ | ⟨ho, hd⟩ |
    ⟨-, hd⟩ <;> rw [hd] at h
  · obtain ⟨-, rfl⟩ := decodeZ_ok.mp h; exact ho
  · obtain ⟨-, rfl⟩ := decodeS_ok.mp h; exact ho
  · obtain ⟨-, rfl⟩ := decodeZ_ok.mp h; exact ho
  · obtain ⟨-, rfl⟩ := decodeZ_ok.mp h; exact ho
  · obtain ⟨-, rfl⟩ := decodeS_ok.mp h; exact ho
  · obtain ⟨-, -, -, rfl⟩ := decodeB_ok.mp h; exact ho
  · obtain ⟨-, rfl⟩ := decodeZ_ok.mp h; exact ho
  · obtain ⟨-, rfl⟩ := decodeS_ok.mp h; exact ho
  · obtain ⟨-, -, -, rfl⟩ := decodeB_ok.mp h; exact ho
  · obtain ⟨-, rfl⟩ := decodeZ_ok.mp h; exact ho
  · obtain ⟨-, rfl⟩ := decodeZ_ok.mp h; exact ho
  · obtain ⟨-, rfl⟩ := decodeZ_ok.mp h; exact ho
  · obtain ⟨-, rfl⟩ := decodeS_ok.mp h; exact ho
  · obtain ⟨-, rfl⟩ := decodeT_ok.mp h; exact ho
  · cases h

/-- The row of a command accepts the words that carry its operand field, if it is well formed. -/
theorem decodeRow_ok_iff :
    decodeRow i w = .ok i ↔ i.wf = true ∧ operandOf i = w.extractLsb' 0 24 := by
  cases i with
  | clr | bld | gen | dend | lcom | lend | dump =>
    simp [decodeRow, decodeZ_ok, Instr.wf, operandOf, eq_comm (a := 0#24)]
  | cnt _ | enc _ | lsym _ | qfreq _ =>
    simp [decodeRow, decodeS_ok, Instr.wf, operandOf, operandS_eq_iff]
  | sync _ => simp [decodeRow, decodeT_ok, Instr.wf, operandOf, operandT_eq_iff]
  | dbit _ => exact decodeB_ok_iff fun _ _ => Instr.dbit.inj
  | lbit _ => exact decodeB_ok_iff fun _ _ => Instr.lbit.inj

/-- Decode inverts the encoder: a word decodes to the command, if any, that is well formed and has that word. -/
theorem decode_ok_iff : decode w = .ok i ↔ i.wf = true ∧ encode i = w := by
  rw [encode_eq_iff]
  constructor
  · intro h
    have ho := decode_ok_opcode h
    rw [decode_eq_row ho] at h
    obtain ⟨hwf, hop⟩ := decodeRow_ok_iff.mp h
    exact ⟨hwf, ho.symm, hop⟩
  · rintro ⟨hwf, ho, hop⟩
    rw [decode_eq_row ho.symm]
    exact decodeRow_ok_iff.mpr ⟨hwf, hop⟩

/-- Settles O1, by `decode_ok_iff` for the command's own word. -/
theorem encodeThenDecodeGivesTheCommand : Obligations.EncodeThenDecodeGivesTheCommand :=
  fun _ hwf => decode_ok_iff.mpr ⟨hwf, rfl⟩

/-- Settles O2, by `decode_ok_iff`. -/
theorem decodedCommandEncodesBack : Obligations.DecodedCommandEncodesBack :=
  fun _ _ => decode_ok_iff.mp

/-- Settles O4: the legal words encode their commands; Decode evaluates to the error on each of the others. -/
theorem exampleWordsDecode : Obligations.ExampleWordsDecode := by
  refine ⟨?_, ?_, ?_, ?_, ?_, ?_, ?_, ?_, ?_, ?_, ?_, ?_, ?_, ?_, rfl, rfl, rfl⟩ <;>
    exact decode_ok_iff.mpr ⟨rfl, rfl⟩

/-! ### Illegal words -/

/-- What decodes is legal (R92). -/
theorem legalWord_of_decode_ok (h : decode w = .ok i) : LegalWord w := by
  have ho := decode_ok_opcode h
  rw [decode_eq_row ho] at h
  unfold opcodeByte at ho
  unfold LegalWord
  rw [ho]
  cases i with
  | cnt _ | enc _ | lsym _ | qfreq _ =>
    exact .inl ⟨by simp [formS, opcodeOf], (decodeS_ok.mp h).1⟩
  | dbit _ | lbit _ =>
    obtain ⟨hres, ⟨hlo, hhi⟩, hzero, -⟩ := decodeB_ok.mp h
    exact .inr (.inl ⟨by simp [formB, opcodeOf], hres, hlo, hhi, unusedZero_iff.mp hzero⟩)
  | sync _ => exact .inr (.inr (.inl ⟨by simp [formT, opcodeOf], (decodeT_ok.mp h).1⟩))
  | clr | bld | gen | dend | lcom | lend | dump =>
    exact .inr (.inr (.inr ⟨by simp [formZ, opcodeOf], (decodeZ_ok.mp h).1⟩))

/-- EXECUTE of an illegal word (R89, R92). -/
theorem step_executes_illegal {s u : State} (hx : Executes s w u) (hw : ¬ LegalWord w) :
    step s = .next (illegalCommand w u) := by
  rw [step_executes hx]
  cases hd : decode w with
  | ok i => exact absurd (legalWord_of_decode_ok hd) hw
  | error e => rfl

/-- The ERR word of ILLEGAL_COMMAND (R81, R133). -/
theorem errWord_illegalCommand (op : Byte) :
    errWord op .illegalCommand = 0xEE#8 ++ (op ++ 0x0005#16) := by
  simp only [errWord, BitVec.append_assoc]
  rfl

/-- Nothing is pending when EXECUTE is enabled (R89), so a discarded word leaves the state as it is. -/
theorem executes_discard {s u : State} (hx : Executes s w u) : discard u = u := by
  obtain ⟨q, rest, -, -, hp, -, rfl⟩ := hx
  simp [Machine.discard, hp]

/-- Settles O16: `illegalCommand` raises ILLEGAL_COMMAND, or discards the word in phase ERROR. -/
theorem illegalWordsRaiseIllegalCommand : Obligations.IllegalWordsRaiseIllegalCommand := by
  intro s u w hx hw
  have hphase : u.phase = s.phase := by rw [executes_sameData hx]
  rw [step_executes_illegal hx hw, illegalCommand, hphase]
  refine ⟨fun hp => ?_, fun hp => ?_⟩
  · rw [if_neg hp, raise, errWord_illegalCommand]
    rfl
  · rw [if_pos hp, executes_discard hx]

end Sys2Proof.Proofs

/-! ## Chunks (R84)

Chunks cuts a code into pieces of 16 bits, the rest in the last, each in a BITS word; `chunks_induction` follows it. -/

namespace Sys2Proof.Proofs

open Sys2Proof.Machine Sys2Proof.Safety Sys2Proof.Laws

/-- Induction along Chunks: from the string without its first 16 bits to the string. -/
theorem chunks_induction {P : Bits → Prop} (nil : P [])
    (step : ∀ c, c ≠ [] → P (c.drop 16) → P c) (c : Bits) : P c := by
  by_cases hc : c = []
  · rw [hc]; exact nil
  · exact step c hc (chunks_induction nil step (c.drop 16))
termination_by c.length
decreasing_by
  have := List.length_pos_iff.mpr hc
  rw [List.length_drop]
  omega

theorem length_chunks (c : Bits) : (chunks c).length = (c.length + 15) / 16 := by
  induction c using chunks_induction with
  | nil => rfl
  | step c hc ih =>
    have := List.length_pos_iff.mpr hc
    rw [chunks_step hc, List.length_cons, ih, List.length_drop]
    omega

theorem flatMap_bitsOf_chunks (c : Bits) : (chunks c).flatMap bitsOf = c := by
  induction c using chunks_induction with
  | nil => rfl
  | step c hc ih =>
    rw [chunks_step hc, List.flatMap_cons, ih, bitsOf_bitsWord _ (List.length_take_le 16 c),
      List.take_append_drop]

/-- Every chunk is the BITS word of 1 to 16 bits. -/
theorem mem_chunks {c : Bits} {w : Word} (h : w ∈ chunks c) :
    ∃ b, bitsWf b = true ∧ w = bitsWord b := by
  induction c using chunks_induction with
  | nil => cases h
  | step c hc ih =>
    have := List.length_pos_iff.mpr hc
    rw [chunks_step hc] at h
    rcases List.mem_cons.mp h with rfl | h
    · exact ⟨c.take 16, by rw [bitsWf_iff, List.length_take]; omega, rfl⟩
    · exact ih h

/-- Every chunk but the last is full. -/
theorem mem_dropLast_chunks {c : Bits} {w : Word} (h : w ∈ (chunks c).dropLast) :
    (w.extractLsb' 16 5).toNat = 16 := by
  induction c using chunks_induction with
  | nil => cases h
  | step c hc ih =>
    rw [chunks_step hc] at h
    by_cases hrest : c.drop 16 = []
    · rw [hrest, chunks_nil] at h
      cases h
    · have hlong : 16 < c.length := by simpa using hrest
      rw [List.dropLast_cons_of_ne_nil (by simp [chunks_step hrest])] at h
      rcases List.mem_cons.mp h with rfl | h
      · rw [bitsWord_count _ (List.length_take_le 16 c), List.length_take]
        omega
      · exact ih h

/-- The fields of a BITS word (R75): its low 24 bits are those of form B. -/
theorem bitsWord_fields {b : Bits} (hb : bitsWf b = true) :
    (bitsWord b).extractLsb' 24 8 = 0x81#8 ∧ (bitsWord b).extractLsb' 21 3 = 0#3 ∧
    1 ≤ ((bitsWord b).extractLsb' 16 5).toNat ∧ ((bitsWord b).extractLsb' 16 5).toNat ≤ 16 ∧
    ∀ k, k + ((bitsWord b).extractLsb' 16 5).toNat < 16 → (bitsWord b).getLsbD k = false := by
  obtain ⟨hlo, hhi⟩ := bitsWf_iff.mp hb
  have hop : operandB b = (bitsWord b).extractLsb' 0 24 := (extractLsb'_append_low _ _).symm
  obtain ⟨hres, -, hzero, -⟩ := (operandB_eq_iff hhi).mp hop
  rw [bitsWord_count b hhi]
  exact ⟨extractLsb'_append_high _ _, hres, hlo, hhi, unusedZero_iff.mp hzero⟩

/-- Settles O22, each part by induction along Chunks. -/
theorem chunksCarryTheCode : Obligations.ChunksCarryTheCode := by
  refine fun c _ => ⟨length_chunks c, flatMap_bitsOf_chunks c, fun w hw => ?_,
    fun w => mem_dropLast_chunks⟩
  obtain ⟨b, hb, rfl⟩ := mem_chunks hw
  exact bitsWord_fields hb

end Sys2Proof.Proofs

/-! ## Decode is total (R92)

Every legal word carries the fields of a well-formed command of its opcode, so `decode_ok_iff` decodes it; with
`legalWord_of_decode_ok`, the legal words are exactly those that decode. -/

namespace Sys2Proof.Proofs

open Sys2Proof.Machine Sys2Proof.Safety Sys2Proof.Laws

variable {w : Word} {i : Instr} {op : Byte}

/-- A word decodes to the well-formed command whose opcode and operand field it carries. -/
theorem decode_ok_of_fields (hwf : i.wf = true) (ho : opcodeOf i = opcodeByte w)
    (hop : operandOf i = w.extractLsb' 0 24) : decode w = .ok i :=
  decode_ok_iff.mpr ⟨hwf, encode_eq_iff.mpr ⟨ho, hop⟩⟩

/-! ### A command for each opcode of a form -/

theorem formS_command (h : op ∈ formS) (sym : Symbol) :
    ∃ i : Instr, i.wf = true ∧ opcodeOf i = op ∧ operandOf i = operandS sym := by
  simp only [formS, List.mem_cons, List.not_mem_nil, or_false] at h
  rcases h with rfl | rfl | rfl | rfl
  exacts [⟨.cnt sym, rfl, rfl, rfl⟩, ⟨.enc sym, rfl, rfl, rfl⟩, ⟨.lsym sym, rfl, rfl, rfl⟩,
    ⟨.qfreq sym, rfl, rfl, rfl⟩]

theorem formB_command (h : op ∈ formB) {b : Bits} (hb : bitsWf b = true) :
    ∃ i : Instr, i.wf = true ∧ opcodeOf i = op ∧ operandOf i = operandB b := by
  simp only [formB, List.mem_cons, List.not_mem_nil, or_false] at h
  rcases h with rfl | rfl
  exacts [⟨.dbit b, hb, rfl, rfl⟩, ⟨.lbit b, hb, rfl, rfl⟩]

theorem formT_command (h : op ∈ formT) (tag : BitVec 16) :
    ∃ i : Instr, i.wf = true ∧ opcodeOf i = op ∧ operandOf i = operandT tag := by
  obtain rfl := List.mem_singleton.mp h
  exact ⟨.sync tag, rfl, rfl, rfl⟩

theorem formZ_command (h : op ∈ formZ) :
    ∃ i : Instr, i.wf = true ∧ opcodeOf i = op ∧ operandOf i = 0#24 := by
  simp only [formZ, List.mem_cons, List.not_mem_nil, or_false] at h
  rcases h with rfl | rfl | rfl | rfl | rfl | rfl | rfl
  exacts [⟨.clr, rfl, rfl, rfl⟩, ⟨.bld, rfl, rfl, rfl⟩, ⟨.gen, rfl, rfl, rfl⟩,
    ⟨.dend, rfl, rfl, rfl⟩, ⟨.lcom, rfl, rfl, rfl⟩, ⟨.lend, rfl, rfl, rfl⟩, ⟨.dump, rfl, rfl, rfl⟩]

/-- A word that passes the checks of form B has the operand field of its own bit string (R68). -/
theorem operandB_bitsOf (hres : w.extractLsb' 21 3 = 0#3) (hhi : countB w ≤ 16)
    (hzero : unusedZero w (countB w) = true) : operandB (bitsOf w) = w.extractLsb' 0 24 := by
  have hlen : (bitsOf w).length = countB w := bitstr_length w _
  rw [operandB_eq_iff (hlen ▸ hhi), hlen]
  exact ⟨hres, rfl, hzero, rfl⟩

/-! ### Legal words -/

/-- A legal word carries the opcode and the operand field of a well-formed command. -/
theorem exists_command_of_legalWord (h : LegalWord w) :
    ∃ i : Instr, i.wf = true ∧ opcodeOf i = opcodeByte w ∧ operandOf i = w.extractLsb' 0 24 := by
  rcases h with ⟨ho, hres⟩ | ⟨ho, hres, hlo, hhi, hzero⟩ | ⟨ho, hres⟩ | ⟨ho, hres⟩
  · rw [← operandS_eq_iff.mpr ⟨hres, rfl⟩]
    exact formS_command ho _
  · have hwf : bitsWf (bitsOf w) = true := by
      rw [bitsWf_iff, bitsOf, bitstr_length]
      exact ⟨hlo, hhi⟩
    rw [← operandB_bitsOf hres hhi (unusedZero_iff.mpr hzero)]
    exact formB_command ho hwf
  · rw [← operandT_eq_iff.mpr ⟨hres, rfl⟩]
    exact formT_command ho _
  · rw [hres]
    exact formZ_command ho

/-- What is legal decodes, to a command of its opcode (R92). -/
theorem decode_ok_of_legalWord (h : LegalWord w) :
    ∃ i, decode w = .ok i ∧ opcodeOf i = opcodeByte w := by
  obtain ⟨i, hwf, ho, hop⟩ := exists_command_of_legalWord h
  exact ⟨i, decode_ok_of_fields hwf ho hop, ho⟩

theorem not_legalWord_of_decode_error {e : DecodeError} (h : decode w = .error e) : ¬ LegalWord w := by
  intro hl
  obtain ⟨i, hd, -⟩ := decode_ok_of_legalWord hl
  rw [h] at hd
  cases hd

/-- Settles O3: a legal word decodes by `decode_ok_of_legalWord`, and only legal words do. -/
theorem decodeAcceptsExactlyTheLegalWords : Obligations.DecodeAcceptsExactlyTheLegalWords := by
  refine fun w => ⟨decode_ok_of_legalWord, fun hw => ?_⟩
  cases hd : decode w with
  | ok i => exact absurd (legalWord_of_decode_ok hd) hw
  | error e => exact ⟨e, rfl⟩

end Sys2Proof.Proofs

/-! ## The CORE's turn and the phases

What the CORE's turn does (R89, R90), when a command raises PHASE_ERROR, and which transitions of PHASE a command
and a step make (R91). -/

namespace Sys2Proof.Proofs

open Sys2Proof.Machine Sys2Proof.Safety Sys2Proof.Laws

variable {i : Instr} {s t u : State} {out : List Word}

/-! ### EXECUTE and DELIVER -/

/-- Settles O15, by the model's law of EXECUTE. -/
theorem stepRunsTheDecodedCommand : Obligations.StepRunsTheDecodedCommand := by
  intro s u w i hx hd
  rw [step_executes hx, hd]

/-- DELIVER, on the CORE's turn with a word in PEND and room in RSPQ (R90). -/
theorem step_delivers {rest : List Move} {v : Word} {q : List Word} (hc : CoreTurn s rest)
    (hr : s.rspq.length < s.par.rspqDepth) (hp : s.pend = v :: q) :
    step s = .next (deliver v q { s with env := rest }) := by
  rw [step_coreTurn hc, coreStep, if_pos hr, hp]

/-- With no work the CORE's turn changes nothing, whether or not RSPQ has room (R149). -/
theorem step_idles {rest : List Move} (hc : CoreTurn s rest) (hp : s.pend = []) (hq : s.cmdq = []) :
    step s = .next { s with env := rest } := by
  by_cases hr : s.rspq.length < s.par.rspqDepth
  · rw [step_coreTurn hc, coreStep, if_pos hr, hp]
    simp only [execute, hq]
  · exact step_holds hc hr

/-- Settles O18: the CORE delivers, holds or idles. -/
theorem deliverMovesOneWordOrTheCoreHolds : Obligations.DeliverMovesOneWordOrTheCoreHolds :=
  fun _ _ hc => ⟨fun _ _ hp hr => step_delivers hc hr hp, step_holds hc, step_idles hc⟩

/-! ### PHASE_ERROR -/

/-- Outside ERROR, the phases the table of R91 marks `-` are those the model does not allow. -/
theorem mem_refusedPhases_iff {p : Phase} (hp : p ≠ .error) : p ∈ refusedPhases i ↔ p ∉ allowed i := by
  cases p with
  | error => exact absurd rfl hp
  | idle | counting | tree | codes | loading => cases i <;> simp [refusedPhases, allowed]

/-- PHASE_ERROR is raised by the common checks only. -/
theorem bodyOf_ne_phaseError : bodyOf i s ≠ .raised .phaseError out := by
  intro h
  cases i with
  | clr | dump | qfreq _ | sync _ => cases h
  | bld | gen | enc _ | dbit _ | dend | lsym _ =>
    simp only [bodyOf, bldBody, genBody, encBody, dbitBody, dendBody, lsymBody] at h
    split at h <;> cases h
  | cnt sym =>
    simp only [bodyOf, cntBody] at h
    split at h
    · cases h
    · split at h
      · split at h <;> cases h
      · cases h
  | lbit bits =>
    simp only [bodyOf, lbitBody] at h
    split at h
    · cases h
    · split at h <;> cases h
  | lcom =>
    simp only [bodyOf, lcomBody] at h
    split at h
    · cases h
    · split_ifs at h <;> cases h
  | lend => simp only [bodyOf, lendBody] at h; split_ifs at h <;> cases h

/-- A command that has passed the common checks does not raise PHASE_ERROR: its body raises another error, or commits
without entering phase ERROR. -/
theorem commit_not_phaseError (hc : i ≠ .clr) (hp : s.phase ≠ .error) :
    ¬ ((commit (opcodeOf i) s (bodyOf i s)).phase = .error ∧
      (commit (opcodeOf i) s (bodyOf i s)).errcode = .phaseError) := by
  rintro ⟨hphase, hcode⟩
  cases hb : bodyOf i s with
  | done u out =>
    obtain ⟨-, -, hu, -⟩ := bodyOf_frame hc hb
    rw [hb] at hphase
    exact hp (hu hphase)
  | raised e out =>
    rw [hb] at hcode
    obtain rfl : e = .phaseError := hcode
    exact bodyOf_ne_phaseError hb

/-- Settles O24: of the outcomes of a command, only the phase check raises PHASE_ERROR. -/
theorem commandsRaisePhaseErrorExactlyOutOfPhase :
    Obligations.CommandsRaisePhaseErrorExactlyOutOfPhase := by
  intro i s t h hp
  rcases exec_cases h with ⟨rfl, rfl⟩ | ⟨tag, rfl, rfl⟩ | ⟨hc, -, hrest⟩
  · simp [refusedPhases]
  · simp [refusedPhases, hp]
  rw [mem_refusedPhases_iff hp]
  rcases hrest with ⟨he, -⟩ | ⟨-, ha, rfl⟩ | ⟨ha, -, rfl⟩ | ⟨ha, -, rfl⟩
  · exact absurd he hp
  · simp [ha]
  · simp [ha]
  · exact iff_of_false (commit_not_phaseError hc hp) (not_not_intro ha)

/-! ### The transitions of a command -/

/-- With a symbol in FT, BLD runs in COUNTING only. -/
theorem counting_of_allowed_bld (hs : PhaseWf s) (ha : s.phase ∈ allowed .bld) (hft : s.ft ≠ []) :
    s.phase = .counting := by
  simp only [allowed, List.mem_cons, List.not_mem_nil, or_false] at ha
  rcases ha with hp | hp
  · simp only [PhaseWf, hp] at hs
    exact absurd hs.1 hft
  · exact hp

/-- A body that commits makes the transition of its command. -/
theorem bodyOf_successStep (hs : PhaseWf s) (ha : s.phase ∈ allowed i) (h : bodyOf i s = .done t out) :
    SuccessStep i s.phase t.phase := by
  cases i with
  | clr => cases h; rfl
  | cnt sym =>
    obtain ⟨-, ft, rfl, -⟩ := cntBody_done h
    exact ⟨by simpa [allowed] using ha, rfl⟩
  | bld =>
    obtain ⟨hft, rfl⟩ := bldBody_done h
    exact ⟨counting_of_allowed_bld hs ha hft, rfl⟩
  | gen =>
    obtain ⟨-, rfl⟩ := genBody_done h
    exact ⟨by simpa [allowed] using ha, rfl⟩
  | enc sym => obtain rfl := encBody_done h; rfl
  | dbit bits => obtain ⟨d, -, rfl⟩ := dbitBody_done h; rfl
  | dend => obtain rfl := dendBody_done h; rfl
  | lsym sym =>
    obtain rfl := lsymBody_done h
    exact ⟨by simpa [allowed] using ha, rfl⟩
  | lbit bits => obtain ⟨e, -, -, rfl⟩ := lbitBody_done h; rfl
  | lcom => obtain ⟨e, -, -, -, -, -, rfl⟩ := lcomBody_done h; rfl
  | lend =>
    obtain ⟨-, -, rfl⟩ := lendBody_done h
    exact ⟨by simpa [allowed] using ha, rfl⟩
  | dump => obtain rfl := dumpBody_done h; rfl
  | qfreq sym => obtain rfl := qfreqBody_done h; rfl
  | sync tag => cases h; rfl

/-- A command succeeds, or, if it is neither CLR nor SYNC, ends in phase ERROR. -/
theorem exec_phaseStep (hs : PhaseWf s) (h : exec i s = .next t) : PhaseStep i s.phase t.phase := by
  rcases exec_cases h with ⟨rfl, rfl⟩ | ⟨tag, rfl, rfl⟩ | ⟨hc, hsync, hrest⟩
  · exact .inl rfl
  · exact .inl rfl
  rcases hrest with ⟨he, rfl⟩ | ⟨-, -, rfl⟩ | ⟨-, -, rfl⟩ | ⟨ha, -, rfl⟩
  · exact .inr ⟨hc, hsync, he⟩
  · exact .inr ⟨hc, hsync, rfl⟩
  · exact .inr ⟨hc, hsync, rfl⟩
  · cases hb : bodyOf i s with
    | done u out =>
      have hu : SuccessStep i s.phase u.phase := bodyOf_successStep hs ha hb
      exact .inl hu
    | raised e out => exact .inr ⟨hc, hsync, rfl⟩

/-! ### The transitions of a step -/

theorem sameData_phase (h : SameData s t) : t.phase = s.phase := by rw [h]

theorem phaseWf_of_sameData (h : SameData s t) (hs : PhaseWf s) : PhaseWf t := by
  rw [h]
  exact hs

/-- An illegal word ends in phase ERROR, raised or discarded there. -/
@[simp] theorem illegalCommand_phase (w : Word) (s : State) : (illegalCommand w s).phase = .error := by
  unfold illegalCommand
  split
  · assumption
  · rfl

theorem writeCmd_phase (v : Word) (s : State) :
    (writeCmd v s).phase = s.phase ∨ (writeCmd v s).phase = .error := by
  rcases writeCmd_cases v s with ⟨-, h⟩ | ⟨-, -, h⟩ | ⟨-, -, h⟩ <;> rw [h]
  exacts [.inl rfl, .inl rfl, .inr rfl]

/-- Settles O25: the commands by `exec_phaseStep`; DELIVER, a read and an ignored write leave PHASE. -/
theorem phaseChangesOnlyAsTheTableSays : Obligations.PhaseChangesOnlyAsTheTableSays := by
  refine ⟨fun i s t => exec_phaseStep, fun s t hs h hne => ?_⟩
  rcases step_cases h with ⟨w, u, i, hx, hd, he⟩ | ⟨w, u, e, hx, hd, rfl⟩ |
    ⟨v, q, rest, -, -, -, rfl⟩ | ⟨rest, -, -, rfl⟩ | ⟨off, u, hr, -, -, rfl⟩ |
    ⟨off, v, u, hw, -, -, rfl⟩ | ⟨u, hr, rfl⟩
  · have hu := executes_sameData hx
    refine .inl ⟨w, u, i, hx, hd, ?_⟩
    rw [← sameData_phase hu]
    exact exec_phaseStep (phaseWf_of_sameData hu hs) he
  · exact .inr (.inl ⟨w, u, hx, not_legalWord_of_decode_error hd, illegalCommand_phase w u⟩)
  · exact absurd rfl hne
  · exact absurd rfl hne
  · exact absurd (sameData_phase (reads_sameData hr)) hne
  · have hu : u.phase = s.phase := sameData_phase (writes_sameData hw)
    rcases writeReg_cases off v u with ⟨rfl, h⟩ | ⟨rfl, hv, h⟩ | h
    · rw [h, ← hu] at hne
      exact .inr (.inr (.inl ⟨v, u, hw, by rw [h]; exact (writeCmd_phase v u).resolve_left hne⟩))
    · exact .inr (.inr (.inr ⟨u, .inr ⟨v, hv, hw⟩, by rw [h]; rfl⟩))
    · rw [h] at hne
      exact absurd hu hne
  · exact .inr (.inr (.inr ⟨u, hr, rfl⟩))

end Sys2Proof.Proofs

/-! ## The checks before a command's body

The first line of every command's statement, for all of them at once (R89, R91, R134), and what a command that
passes the checks does. -/

namespace Sys2Proof.Proofs

open Sys2Proof.Machine Sys2Proof.Safety Sys2Proof.Laws

variable {i : Instr} {s t : State} {sym : Symbol} {out : List Word}

/-- An illegal word with the opcode of a command raises ILLEGAL_COMMAND, or is discarded in phase ERROR. -/
theorem illegalOperands (i : Instr) : IllegalOperands i := by
  intro s u w hx ho hw
  have hphase : u.phase = s.phase := sameData_phase (executes_sameData hx)
  have hop : opcodeByte w = opcodeOf i := ho
  rw [step_executes_illegal hx hw, illegalCommand, hphase, hop]
  exact ⟨fun hp => by rw [if_neg hp], fun hp => by rw [if_pos hp, executes_discard hx]⟩

theorem error_not_mem_refusedPhases (i : Instr) : Phase.error ∉ refusedPhases i := by
  cases i <;> simp [refusedPhases]

theorem symbolOk_of_symbolOf (h : symbolOf i = some sym) : symbolOk i = isScalar sym := by
  simp [symbolOk, h]

/-- Every command but CLR and SYNC goes through the common checks. -/
theorem commonChecks (hc : i ≠ .clr) (hs : ∀ tag, i ≠ .sync tag) : CommonChecks i := by
  refine ⟨illegalOperands i, fun s => ?_⟩
  rw [exec_eq_runCommand i hc hs]
  refine ⟨fun he => ?_, fun hr => ?_, fun sym hsym hne hr hbad => ?_⟩
  · rw [runCommand_discards he]
    rfl
  · have hne : s.phase ≠ .error := fun he => error_not_mem_refusedPhases i (he ▸ hr)
    rw [runCommand_outOfPhase hne ((mem_refusedPhases_iff hne).mp hr)]
  · have ha : s.phase ∈ allowed i := not_not.mp (mt (mem_refusedPhases_iff hne).mpr hr)
    rw [runCommand_badSymbol hne ha (by rw [symbolOk_of_symbolOf hsym, hbad])]

/-- A command that passes the common checks and whose body succeeds. -/
theorem exec_of_done (hc : i ≠ .clr) (hs : ∀ tag, i ≠ .sync tag) (ha : s.phase ∈ allowed i)
    (hok : symbolOk i = true) (hb : bodyOf i s = .done t out) :
    exec i s = .next { t with pend := out } := by
  rw [exec_eq_runCommand i hc hs, runCommand_body ha hok, hb]
  rfl

/-- A command that passes the common checks and whose body raises an error. -/
theorem exec_of_raised {e : ErrCode} (hc : i ≠ .clr) (hs : ∀ tag, i ≠ .sync tag)
    (ha : s.phase ∈ allowed i) (hok : symbolOk i = true) (hb : bodyOf i s = .raised e out) :
    exec i s = .next (raise (opcodeOf i) e out s) := by
  rw [exec_eq_runCommand i hc hs, runCommand_body ha hok, hb]
  rfl

/-! ### Runs of commands -/

@[simp] theorem runAll_nil (s : State) : runAll [] s = some (s, []) := rfl

theorem runAll_cons_of_next {is : List Instr} (h : exec i s = .next t) :
    runAll (i :: is) s = (runAll is t).map fun r => (r.1, t.pend ++ r.2) := by
  rw [runAll, h]

/-- The commands `js` run from where `is` ended, and their responses follow. -/
theorem runAll_append_of_some {is js : List Instr} (h : runAll is s = some (t, out)) :
    runAll (is ++ js) s = (runAll js t).map fun r => (r.1, out ++ r.2) := by
  induction is generalizing s out with
  | nil =>
    obtain ⟨rfl, rfl⟩ : s = t ∧ [] = out := by simpa using h
    simp
  | cons i is ih =>
    obtain ⟨u, hu⟩ := exec_answers_next i s
    rw [runAll_cons_of_next hu] at h
    obtain ⟨⟨t', out'⟩, hrun, heq⟩ := Option.map_eq_some_iff.mp h
    obtain ⟨rfl, rfl⟩ : t' = t ∧ u.pend ++ out' = out := by simpa using heq
    rw [List.cons_append, runAll_cons_of_next hu, ih hrun, Option.map_map]
    simp [Function.comp_def]

end Sys2Proof.Proofs

/-! ## The frequency counter

CNT and QFREQ (R101, R102), and the counting law (R103). -/

namespace Sys2Proof.Proofs

open Sys2Proof.Machine Sys2Proof.Safety Sys2Proof.Laws

variable {s : State} {sym : Symbol}

/-! ### The body of CNT -/

theorem cntBody_overflow (ht : s.total = maxCount s.par) :
    cntBody sym s = .raised .countOverflow [] := by
  rw [cntBody, if_pos ht]

theorem cntBody_full (ht : s.total ≠ maxCount s.par) (hnew : sym ∉ s.ft.map FreqEntry.sym)
    (hfull : s.ft.length = s.par.nSym) : cntBody sym s = .raised .tableFull [] := by
  rw [cntBody, if_neg ht, findF_none.mpr hnew]
  exact if_pos hfull

theorem cntBody_new (ht : s.total ≠ maxCount s.par) (hnew : sym ∉ s.ft.map FreqEntry.sym)
    (hroom : s.ft.length ≠ s.par.nSym) :
    cntBody sym s = .done
      { s with ft := s.ft ++ [⟨sym, 1⟩], total := s.total + 1, phase := .counting } [] := by
  rw [cntBody, if_neg ht, findF_none.mpr hnew]
  exact if_neg hroom

theorem cntBody_known {before after : List FreqEntry} {n : Nat} (ht : s.total ≠ maxCount s.par)
    (hft : s.ft = before ++ ⟨sym, n⟩ :: after) (hb : sym ∉ before.map FreqEntry.sym) :
    cntBody sym s = .done
      { s with ft := before ++ ⟨sym, n + 1⟩ :: after, total := s.total + 1, phase := .counting } [] := by
  have hf : findF s.ft sym = some before.length := by rw [hft, findF_split hb]
  have hbump : s.ft.modify before.length bump = before ++ ⟨sym, n + 1⟩ :: after := by
    rw [hft, bump_split]
  rw [cntBody, if_neg ht, hf, ← hbump]

/-! ### CNT and QFREQ -/

theorem mem_allowed_cnt : s.phase ∈ allowed (.cnt sym) ↔ s.phase = .idle ∨ s.phase = .counting := by
  simp [allowed]

theorem mem_allowed_qfreq (h : s.phase ≠ .error) : s.phase ∈ allowed (.qfreq sym) :=
  not_not.mp (mt (mem_refusedPhases_iff h).mpr (by simp [refusedPhases]))

/-- Settles O29: the common checks, then the four ends of CNT's body. -/
theorem cntCountsOneOccurrence : Obligations.CntCountsOneOccurrence := by
  intro sym
  refine ⟨rfl, commonChecks (by simp) (by simp), decide_eq_true_iff, fun s hp hsc => ?_⟩
  have ha := mem_allowed_cnt (sym := sym).mpr hp
  refine ⟨fun ht => ?_, fun ht hnew hfull => ?_, fun ht hnew hroom => ?_,
    fun before n after ht hft hb => ?_⟩
  · exact exec_of_raised (by simp) (by simp) ha hsc (cntBody_overflow ht)
  · exact exec_of_raised (by simp) (by simp) ha hsc (cntBody_full ht hnew hfull)
  · exact exec_of_done (by simp) (by simp) ha hsc (cntBody_new ht hnew hroom)
  · exact exec_of_done (by simp) (by simp) ha hsc (cntBody_known ht hft hb)

/-- QFREQ pushes the FREQ word and the count. -/
theorem exec_qfreq (hp : s.phase ≠ .error) (hsc : isScalar sym = true) :
    exec (.qfreq sym) s = .next { s with pend := [freqWord sym, countWord (countOf s.ft sym)] } :=
  exec_of_done (by simp) (by simp) (mem_allowed_qfreq hp) hsc rfl

/-- Settles O30: the common checks, then the count of an absent symbol or of one with a slot. -/
theorem qfreqReportsTheCount : Obligations.QfreqReportsTheCount := by
  intro sym
  refine ⟨rfl, commonChecks (by simp) (by simp), fun s hp hsc => ?_⟩
  rw [exec_qfreq hp hsc]
  refine ⟨fun hnew => ?_, fun before n after hft hb => ?_⟩
  · rw [countOf_absent hnew]
    rfl
  · rw [hft, countOf_split hb]
    rfl

/-! ### The distinct symbols of a text -/

variable {text : List Symbol} {a : Symbol}

@[simp] theorem mem_distinct : a ∈ distinct text ↔ a ∈ text := by
  induction text with
  | nil => simp [distinct]
  | cons b bs ih =>
    by_cases h : a = b <;> simp [distinct, ih, h]

theorem nodup_distinct (text : List Symbol) : (distinct text).Nodup := by
  induction text with
  | nil => simp [distinct]
  | cons b bs ih => exact List.nodup_cons.mpr ⟨by simp, ih.filter _⟩

/-- A symbol already in the text leaves the distinct symbols as they are; a new one becomes the last. -/
theorem distinct_concat (text : List Symbol) (a : Symbol) :
    distinct (text ++ [a]) = if a ∈ text then distinct text else distinct text ++ [a] := by
  induction text with
  | nil => simp [distinct]
  | cons b bs ih =>
    rw [List.cons_append, distinct, ih, distinct]
    rcases eq_or_ne a b with rfl | hb
    · by_cases hm : a ∈ bs <;> simp [hm]
    · by_cases hm : a ∈ bs <;> simp [hb, hm]

theorem length_distinct_le_append (x y : List Symbol) :
    (distinct x).length ≤ (distinct (x ++ y)).length :=
  have hsub : distinct x ⊆ distinct (x ++ y) := fun _ ha =>
    mem_distinct.mpr (List.mem_append_left y (mem_distinct.mp ha))
  (List.subperm_of_subset (nodup_distinct x) hsub).length_le

/-! ### The frequency table of a text -/

theorem counted_syms (text : List Symbol) : (counted text).map FreqEntry.sym = distinct text := by
  simp [counted, Function.comp_def]

theorem length_counted (text : List Symbol) : (counted text).length = (distinct text).length := by
  simp [counted]

/-- Entries of other symbols do not see one more occurrence of `a`. -/
theorem map_count_concat_of_notMem {l : List Symbol} (h : a ∉ l) :
    l.map (fun b => (⟨b, (text ++ [a]).count b⟩ : FreqEntry)) = l.map fun b => ⟨b, text.count b⟩ := by
  refine List.map_congr_left fun b hb => ?_
  have hne : a ≠ b := fun e => h (e ▸ hb)
  simp [hne]

/-- A new symbol gets the next slot, with count 1. -/
theorem counted_concat_new (h : a ∉ text) : counted (text ++ [a]) = counted text ++ [⟨a, 1⟩] := by
  rw [counted, distinct_concat, if_neg h, List.map_append,
    map_count_concat_of_notMem (by simpa using h), counted]
  simp [List.count_eq_zero.mpr h]

/-- The slot of a known symbol counts one more occurrence. -/
theorem counted_concat_known (h : a ∈ text) :
    ∃ before n after, counted text = before ++ ⟨a, n⟩ :: after ∧ a ∉ before.map FreqEntry.sym ∧
      counted (text ++ [a]) = before ++ ⟨a, n + 1⟩ :: after := by
  obtain ⟨x, y, hxy⟩ := List.append_of_mem (mem_distinct.mpr h)
  have hnodup : (x ++ a :: y).Nodup := hxy ▸ nodup_distinct text
  obtain ⟨hx, hy⟩ : a ∉ x ∧ a ∉ y := by
    simpa [not_or] using (List.nodup_cons.mp (List.nodup_middle.mp hnodup)).1
  refine ⟨x.map fun b => ⟨b, text.count b⟩, text.count a, y.map fun b => ⟨b, text.count b⟩, ?_, ?_, ?_⟩
  · simp [counted, hxy]
  · simpa using hx
  · rw [counted, distinct_concat, if_pos h, hxy, List.map_append, List.map_cons,
      map_count_concat_of_notMem hx, map_count_concat_of_notMem hy]
    simp

/-! ### The counting law -/

/-- The state after counting `text`, from a state with an empty FT (R103). -/
def afterCounting (s : State) (text : List Symbol) : State :=
  { s with
    ft := counted text, total := text.length,
    phase := if text = [] then .idle else .counting }

/-- One more CNT, with the text and its distinct symbols still within their bounds. -/
theorem exec_cnt_afterCounting (hpend : s.pend = []) (hsc : isScalar a = true)
    (hlen : (text ++ [a]).length < 2 ^ s.par.wCnt)
    (hcap : (distinct (text ++ [a])).length ≤ s.par.nSym) :
    exec (.cnt a) (afterCounting s text) = .next (afterCounting s (text ++ [a])) := by
  obtain ⟨-, -, -, hcnt⟩ := cntCountsOneOccurrence a
  have hphase : (afterCounting s text).phase = .idle ∨ (afterCounting s text).phase = .counting := by
    by_cases ht : text = [] <;> simp [afterCounting, ht]
  obtain ⟨-, -, hnew, hknown⟩ := hcnt (afterCounting s text) hphase hsc
  have htotal : text.length ≠ 2 ^ s.par.wCnt - 1 := by
    simp only [List.length_append, List.length_singleton] at hlen
    omega
  by_cases h : a ∈ text
  · obtain ⟨before, n, after, hft, hb, hft'⟩ := counted_concat_known h
    rw [hknown before n after htotal hft hb]
    simp [afterCounting, hft', hpend]
  · rw [distinct_concat, if_neg h, List.length_append, List.length_singleton] at hcap
    rw [hnew htotal]
    · simp [afterCounting, counted_concat_new h, hpend]
    · simpa [afterCounting, counted_syms] using h
    · simp only [afterCounting, length_counted]
      omega

/-- Counting a text symbol by symbol, by induction from its end. -/
theorem runAll_cntsOf (hpend : s.pend = []) (hstart : afterCounting s [] = s)
    (hsc : ∀ a ∈ text, isScalar a = true) (hlen : text.length < 2 ^ s.par.wCnt)
    (hcap : (distinct text).length ≤ s.par.nSym) :
    runAll (cntsOf text) s = some (afterCounting s text, []) := by
  induction text using List.reverseRecOn with
  | nil => rw [hstart]; rfl
  | append_singleton text a ih =>
    have hrun := ih (fun b hb => hsc b (by simp [hb])) (Nat.lt_of_le_of_lt (by simp) hlen)
      ((length_distinct_le_append text [a]).trans hcap)
    have hstep := exec_cnt_afterCounting hpend (hsc a (by simp)) hlen hcap
    have hcnts : cntsOf (text ++ [a]) = cntsOf text ++ [.cnt a] := by simp [cntsOf]
    rw [hcnts, runAll_append_of_some hrun, runAll_cons_of_next hstep]
    simp [afterCounting, hpend]

/-- Settles O50, by `runAll_cntsOf` from a state that has counted nothing. -/
theorem countingATextGivesItsFrequencyTable : Obligations.CountingATextGivesItsFrequencyTable := by
  intro s text hphase hft htotal hpend hsc hlen hcap
  have hstart : afterCounting s [] = s := by
    cases s
    simp_all [afterCounting, counted, distinct]
  exact runAll_cntsOf hpend hstart hsc hlen hcap

end Sys2Proof.Proofs

/-! ## The tree builder

BLD (R105), and the builder's draws against the relation of R106 (R107). -/

namespace Sys2Proof.Proofs

open Sys2Proof.Machine Sys2Proof.Safety Sys2Proof.Laws

variable {ft : List FreqEntry} {nodes : List Node} {live : List Nat} {t : HTree} {s : State}
  {draw draw' : Nat → Nat}

/-! ### BLD -/

theorem mem_allowed_bld : s.phase ∈ allowed .bld ↔ s.phase = .idle ∨ s.phase = .counting := by
  simp [allowed]

theorem bldBody_empty (h : s.ft = []) : bldBody draw s = .raised .emptyInput [] := by
  rw [bldBody, if_pos (by simp [h])]

theorem bldBody_built (h : s.ft ≠ []) :
    bldBody draw s = .done { s with
      tree := some (buildTree draw s.draws s.ft), draws := s.draws + drawsOf s.ft, phase := .tree } [] := by
  rw [bldBody, if_neg (by simpa using h)]

/-- Settles O31: the common checks, then the two ends of BLD's body; the builder's tree is one R106 admits. -/
theorem bldBuildsAnAdmissibleTree : Obligations.BldBuildsAnAdmissibleTree := by
  refine ⟨rfl, commonChecks (by simp) (by simp), fun s hp => ?_⟩
  have ha := mem_allowed_bld.mpr hp
  refine ⟨fun hft => ?_, fun hft => ⟨buildTree Config.tieDraw s.draws s.ft, s.draws + drawsOf s.ft,
    buildTree_built _ _ hft, ?_⟩⟩
  · exact exec_of_raised (by simp) (by simp) ha rfl (bldBody_empty hft)
  · exact exec_of_done (by simp) (by simp) ha rfl (bldBody_built hft)

/-! ### Draws and tie choices -/

/-- While two nodes are live, the loop merges the two that the next two draws pick. -/
theorem mergeLoop_merges_once {fuel d a b : Nat} (hlen : 2 ≤ live.length)
    (ha : extract (draw d) nodes live = a) (hb : extract (draw (d + 1)) nodes (live.erase a) = b) :
    mergeLoop draw (fuel + 1) d nodes live =
      mergeLoop draw fuel (d + 2) (nodes ++ [.internal a b (freqAt nodes a + freqAt nodes b)])
        ((live.erase a).erase b ++ [nodes.length]) := by
  subst ha hb
  match live, hlen with
  | _ :: _ :: _, _ => rfl

theorem mergeLoop_lone (fuel d x : Nat) : mergeLoop draw fuel d nodes [x] = (nodes, [x]) := by
  cases fuel <;> rfl

/-- The loop looks at no draw before the number it starts from. -/
theorem mergeLoop_congr {fuel d : Nat} (h : ∀ n, d ≤ n → draw n = draw' n) :
    mergeLoop draw fuel d nodes live = mergeLoop draw' fuel d nodes live := by
  induction fuel generalizing d nodes live with
  | zero => rfl
  | succ fuel ih =>
    match live with
    | [] | [_] => rfl
    | x :: y :: rest =>
      rw [mergeLoop_merges_once (by simp) rfl rfl, mergeLoop_merges_once (draw := draw') (by simp) rfl rfl,
        h d le_rfl, h (d + 1) (Nat.le_succ d)]
      exact ih fun n hn => h n (by omega)

theorem two_le_length_of_minimalIn {a b : Nat} (ha : MinimalIn nodes live a)
    (hb : MinimalIn nodes (live.erase a) b) : 2 ≤ live.length := by
  have hlen := List.length_erase_of_mem ha.1
  have hpos := List.length_pos_of_mem hb.1
  omega

/-- Each tie choice of R106 is made by some draw, and later choices read later draws. -/
theorem merges_exists_draw (h : Merges nodes live t) (fuel d : Nat) (hf : live.length ≤ fuel + 1) :
    ∃ draw : Nat → Nat, (⟨(mergeLoop draw fuel d nodes live).1,
      (mergeLoop draw fuel d nodes live).2.headD 0⟩ : HTree) = t := by
  induction h generalizing fuel d with
  | root nodes x => exact ⟨id, by rw [mergeLoop_lone]; rfl⟩
  | merge nodes live a b t first second _ ih =>
    have htwo := two_le_length_of_minimalIn first second
    have hlen := List.length_erase_of_mem first.1
    have hlen' := List.length_erase_of_mem second.1
    obtain ⟨fuel, rfl⟩ : ∃ n, fuel = n + 1 := ⟨fuel - 1, by omega⟩
    obtain ⟨draw, hdraw⟩ := ih fuel (d + 2) (by simp; omega)
    obtain ⟨ra, hra⟩ := exists_extract first
    obtain ⟨rb, hrb⟩ := exists_extract second
    refine ⟨Function.update (Function.update draw (d + 1) rb) d ra, ?_⟩
    have hlater : ∀ n, d + 2 ≤ n → Function.update (Function.update draw (d + 1) rb) d ra n = draw n :=
      fun n hn => by rw [Function.update_of_ne (by omega), Function.update_of_ne (by omega)]
    rw [mergeLoop_merges_once htwo (a := a) (b := b), mergeLoop_congr hlater, hdraw]
    · rw [Function.update_self, hra]
    · rw [Function.update_of_ne (Nat.succ_ne_self d), Function.update_self, hrb]

/-- Settles O51: an admitted tree by `merges_exists_draw`, the builder's tree by `buildTree_built`. -/
theorem builderMakesExactlyTheAdmissibleTrees : Obligations.BuilderMakesExactlyTheAdmissibleTrees :=
  fun ft _ d hft =>
    ⟨fun h => merges_exists_draw h ft.length d (by simp), fun ⟨draw, h⟩ => h ▸ buildTree_built draw d hft⟩

/-- Settles O52, by the loop invariant `Forest`. -/
theorem everyAdmissibleTreeIsAStrictHuffmanTree : Obligations.EveryAdmissibleTreeIsAStrictHuffmanTree :=
  fun _ _ _ h => built_treeWf h

end Sys2Proof.Proofs

/-! ## Codes free of prefixes, and their lengths

Kraft's inequality for the codes of R94, and what it says of lengths that satisfy it. -/

namespace Sys2Proof.Proofs

open Sys2Proof.Machine Sys2Proof.Safety

variable {codes : List Bits} {c d : Bits} {ns ms : List Nat} {m n : Nat}

/-! ### Kraft's inequality -/

/-- Kraft's sum of a list of code lengths. -/
noncomputable def kraftSum (ns : List Nat) : ℝ := (ns.map fun n => (1 / 2 : ℝ) ^ n).sum

@[simp] theorem kraftSum_nil : kraftSum [] = 0 := rfl

@[simp] theorem kraftSum_cons (n : Nat) (ns : List Nat) : kraftSum (n :: ns) = (1 / 2) ^ n + kraftSum ns := rfl

theorem kraftSum_perm (h : ns.Perm ms) : kraftSum ns = kraftSum ms := (h.map _).sum_eq

/-- No code is a beginning of a code at another place. -/
theorem prefixFree_eq (h : PrefixFree codes) (hc : c ∈ codes) (hd : d ∈ codes) (hp : c <+: d) : c = d := by
  obtain ⟨i, hi, rfl⟩ := List.getElem_of_mem hc
  obtain ⟨j, hj, rfl⟩ := List.getElem_of_mem hd
  rcases lt_trichotomy i j with hlt | rfl | hlt
  · exact absurd hp (List.pairwise_iff_getElem.mp h i j hi hj hlt).1
  · rfl
  · exact absurd hp (List.pairwise_iff_getElem.mp h j i hj hi hlt).2

theorem prefixFree_nodup (h : PrefixFree codes) : codes.Nodup :=
  List.Pairwise.imp (fun hcd he => hcd.1 (by rw [he])) h

/-- The empty string begins every code, so it is no code beside another. -/
theorem prefixFree_nil_notMem (h : PrefixFree codes) (hlen : 2 ≤ codes.length) : [] ∉ codes := by
  intro hnil
  have hall : codes ⊆ [[]] := fun c hc => by simp [← prefixFree_eq h hnil hc List.nil_prefix]
  have := (List.subperm_of_subset (prefixFree_nodup h) hall).length_le
  simp only [List.length_singleton] at this
  omega

/-- PrefixFree codes are uniquely decodable: two equal concatenations start with the same code. -/
theorem prefixFree_uniquelyDecodable (h : PrefixFree codes) (hnil : [] ∉ codes) :
    InformationTheory.UniquelyDecodable {c | c ∈ codes} := by
  intro xs
  induction xs with
  | nil =>
    intro ys _ hys he
    cases ys with
    | nil => rfl
    | cons d ys =>
      obtain ⟨rfl, -⟩ : d = [] ∧ _ := List.append_eq_nil_iff.mp he.symm
      exact absurd (hys [] (by simp)) hnil
  | cons c xs ih =>
    intro ys hxs hys he
    cases ys with
    | nil =>
      obtain ⟨rfl, -⟩ : c = [] ∧ _ := List.append_eq_nil_iff.mp he
      exact absurd (hxs [] (by simp)) hnil
    | cons d ys =>
      rw [List.flatten_cons, List.flatten_cons] at he
      have hc : c ∈ codes := hxs c (by simp)
      have hd : d ∈ codes := hys d (by simp)
      have hcd : c = d := by
        rcases List.prefix_or_prefix_of_prefix (List.prefix_append c xs.flatten)
          (he ▸ List.prefix_append d ys.flatten) with hp | hp
        · exact prefixFree_eq h hc hd hp
        · exact (prefixFree_eq h hd hc hp).symm
      subst hcd
      rw [ih ys (fun w hw => hxs w (by simp [hw])) (fun w hw => hys w (by simp [hw]))
        (List.append_cancel_left he)]

/-- Kraft's inequality, from Mathlib's for uniquely decodable codes. -/
theorem prefixFree_kraftSum_le (h : PrefixFree codes) (hlen : 2 ≤ codes.length) :
    kraftSum (codes.map List.length) ≤ 1 := by
  have hud := prefixFree_uniquelyDecodable h (prefixFree_nil_notMem h hlen)
  have hkraft := InformationTheory.kraft_mcmillan_inequality (S := codes.toFinset) (by simpa using hud)
  rw [List.sum_toFinset _ (prefixFree_nodup h), Fintype.card_bool] at hkraft
  simpa [kraftSum, Function.comp_def] using hkraft

/-! ### Joining the two longest codes -/

/-- Lengths of at most `m` fill a whole number of the `2 ^ m` places at depth `m`. -/
theorem kraftSum_eq_mul (h : ∀ n ∈ ns, n ≤ m) : ∃ k : Nat, kraftSum ns = k * (1 / 2) ^ m := by
  induction ns with
  | nil => exact ⟨0, by simp⟩
  | cons n ns ih =>
    obtain ⟨k, hk⟩ := ih fun x hx => h x (by simp [hx])
    obtain ⟨j, rfl⟩ := Nat.exists_eq_add_of_le (h n (by simp))
    have hpow : (2 : ℝ) ^ j * (1 / 2) ^ (n + j) = (1 / 2) ^ n := by
      rw [pow_add, mul_left_comm, ← mul_pow]
      norm_num
    refine ⟨2 ^ j + k, ?_⟩
    rw [kraftSum_cons, hk]
    push_cast
    rw [add_mul, hpow]

/-- The longest length takes some room, so there is room for two codes of the second longest length, or for one
that is a bit shorter. -/
theorem kraftSum_join {l : Nat} (hm : ∀ n ∈ ns, n ≤ m) (h : kraftSum (l :: m :: ns) ≤ 1) :
    ∃ j, m = j + 1 ∧ kraftSum (j :: ns) ≤ 1 := by
  obtain ⟨k, hk⟩ := kraftSum_eq_mul hm
  have hroom : ((k + 1 : Nat) : ℝ) * (1 / 2) ^ m < 1 := by
    have hpos : (0 : ℝ) < (1 / 2) ^ l := by positivity
    rw [kraftSum_cons, kraftSum_cons, hk] at h
    push_cast
    linarith
  have hplaces : k + 2 ≤ 2 ^ m := by
    rw [one_div_pow, mul_one_div, div_lt_one (by positivity)] at hroom
    exact_mod_cast hroom
  obtain ⟨j, rfl⟩ : ∃ j, m = j + 1 := ⟨m - 1, by rcases m with _ | m <;> simp at hplaces ⊢⟩
  refine ⟨j, rfl, ?_⟩
  have hfull : ((k + 2 : Nat) : ℝ) * (1 / 2) ^ (j + 1) ≤ 1 := by
    rw [one_div_pow, mul_one_div, div_le_one (by positivity)]
    exact_mod_cast hplaces
  calc kraftSum (j :: ns) = ((k + 2 : Nat) : ℝ) * (1 / 2) ^ (j + 1) := by
        rw [kraftSum_cons, hk]
        push_cast
        ring
    _ ≤ 1 := hfull

end Sys2Proof.Proofs

/-! ## Lengths and weights

A code's cost as a sum of weight times length (R110), and the exchange that gives the two lightest nodes the two
longest codes. -/

namespace Sys2Proof.Proofs

open Sys2Proof.Machine Sys2Proof.Safety

variable {w w' l l' : Nat → Nat} {xs ys : List Nat} {x y a b : Nat}

/-- The sum over `xs` of weight times length. -/
def weightedLength (w l : Nat → Nat) (xs : List Nat) : Nat := (xs.map fun x => w x * l x).sum

@[simp] theorem weightedLength_nil : weightedLength w l [] = 0 := rfl

@[simp] theorem weightedLength_cons :
    weightedLength w l (x :: xs) = w x * l x + weightedLength w l xs := by
  simp [weightedLength]

theorem weightedLength_append : weightedLength w l (xs ++ ys) = weightedLength w l xs + weightedLength w l ys := by
  simp [weightedLength]

theorem weightedLength_perm (h : xs.Perm ys) : weightedLength w l xs = weightedLength w l ys :=
  (h.map _).sum_eq

theorem weightedLength_congr (hw : ∀ x ∈ xs, w x = w' x) (hl : ∀ x ∈ xs, l x = l' x) :
    weightedLength w l xs = weightedLength w' l' xs :=
  congrArg List.sum (List.map_congr_left fun x hx => by rw [hw x hx, hl x hx])

/-- The two members first, then the others. -/
theorem perm_cons_cons_erase (hx : x ∈ xs) (hy : y ∈ xs.erase x) :
    xs.Perm (x :: y :: (xs.erase x).erase y) :=
  (List.perm_cons_erase hx).trans ((List.perm_cons_erase hy).cons x)

/-- The swap of two members only changes the order of the members. -/
theorem map_swap_perm (hn : xs.Nodup) (hx : x ∈ xs) (hy : y ∈ xs) : (xs.map (Equiv.swap x y)).Perm xs := by
  refine (List.perm_ext_iff_of_nodup (hn.map (Equiv.injective _)) hn).mpr fun z => ?_
  have hmem : ∀ v ∈ xs, Equiv.swap x y v ∈ xs := fun v hv => by
    rw [Equiv.swap_apply_def]
    split_ifs
    exacts [hy, hx, hv]
  constructor
  · intro hz
    obtain ⟨v, hv, rfl⟩ := List.mem_map.mp hz
    exact hmem v hv
  · intro hz
    exact List.mem_map.mpr ⟨_, hmem z hz, Equiv.swap_apply_self x y z⟩

/-- What the swap of two lengths does to the sum. -/
theorem weightedLength_swap (hn : xs.Nodup) (hx : x ∈ xs) (hy : y ∈ xs) (hne : x ≠ y) :
    weightedLength w (l ∘ Equiv.swap x y) xs + (w x * l x + w y * l y) =
      weightedLength w l xs + (w x * l y + w y * l x) := by
  have hperm := perm_cons_cons_erase hx ((List.mem_erase_of_ne hne.symm).mpr hy)
  have hrest : weightedLength w (l ∘ Equiv.swap x y) ((xs.erase x).erase y) =
      weightedLength w l ((xs.erase x).erase y) := by
    refine weightedLength_congr (fun _ _ => rfl) fun z hz => ?_
    obtain ⟨hzy, hz⟩ := (hn.erase x).mem_erase_iff.mp hz
    obtain ⟨hzx, -⟩ := hn.mem_erase_iff.mp hz
    rw [Function.comp_apply, Equiv.swap_apply_of_ne_of_ne hzx hzy]
  rw [weightedLength_perm hperm, weightedLength_perm hperm]
  simp only [weightedLength_cons, hrest, Function.comp_apply, Equiv.swap_apply_left, Equiv.swap_apply_right]
  ring

/-- A lightest member can have the greatest length, with the same lengths in all and no greater sum. -/
theorem exists_lightest_longest (hn : xs.Nodup) (l : Nat → Nat) (hx : x ∈ xs) (hmin : ∀ y ∈ xs, w x ≤ w y) :
    ∃ l' : Nat → Nat, (xs.map l').Perm (xs.map l) ∧ (∀ y ∈ xs, l' y ≤ l' x) ∧
      weightedLength w l' xs ≤ weightedLength w l xs ∧ ∀ y ∉ xs, l' y = l y := by
  obtain ⟨p, hp, hmax⟩ := xs.toFinset.exists_max_image l ⟨x, by simpa using hx⟩
  simp only [List.mem_toFinset] at hp hmax
  have hperm := map_swap_perm hn hx hp
  refine ⟨l ∘ Equiv.swap x p, by simpa using hperm.map l, fun y hy => ?_, ?_, fun y hy => ?_⟩
  · rw [Function.comp_apply, Function.comp_apply, Equiv.swap_apply_left]
    exact hmax _ (hperm.mem_iff.mp (List.mem_map_of_mem hy))
  · rcases eq_or_ne x p with rfl | hne
    · simp
    · have hswap := weightedLength_swap (w := w) (l := l) hn hx hp hne
      have hexchange := mul_add_mul_le_mul_add_mul (hmin p hp) (hmax x hx)
      omega
  · have hyx : y ≠ x := fun h => hy (h ▸ hx)
    have hyp : y ≠ p := fun h => hy (h ▸ hp)
    rw [Function.comp_apply, Equiv.swap_apply_of_ne_of_ne hyx hyp]

/-- Two lightest members can have the two greatest lengths. -/
theorem exists_lightest_pair_longest (hn : xs.Nodup) (l : Nat → Nat) (ha : a ∈ xs) (hb : b ∈ xs.erase a)
    (hmina : ∀ y ∈ xs, w a ≤ w y) (hminb : ∀ y ∈ xs.erase a, w b ≤ w y) :
    ∃ l' : Nat → Nat, (xs.map l').Perm (xs.map l) ∧ l' b ≤ l' a ∧ (∀ y ∈ (xs.erase a).erase b, l' y ≤ l' b) ∧
      weightedLength w l' xs ≤ weightedLength w l xs := by
  obtain ⟨l₁, hperm₁, hmax₁, hsum₁, -⟩ := exists_lightest_longest hn l ha hmina
  obtain ⟨l₂, hperm₂, hmax₂, hsum₂, hsame⟩ := exists_lightest_longest (hn.erase a) l₁ hb hminb
  have hla : l₂ a = l₁ a := hsame a hn.not_mem_erase
  have hxs := List.perm_cons_erase ha
  refine ⟨l₂, ?_, ?_, fun y hy => hmax₂ y (List.mem_of_mem_erase hy), ?_⟩
  · calc List.Perm (xs.map l₂) (l₂ a :: (xs.erase a).map l₂) := hxs.map l₂
      List.Perm _ (l₁ a :: (xs.erase a).map l₁) := hla ▸ hperm₂.cons _
      List.Perm _ (xs.map l₁) := (hxs.map l₁).symm
      List.Perm _ (xs.map l) := hperm₁
  · obtain ⟨y, hy, hyb⟩ := List.mem_map.mp (hperm₂.mem_iff.mp (List.mem_map_of_mem hb))
    rw [hla, ← hyb]
    exact hmax₁ y (List.mem_of_mem_erase hy)
  · rw [weightedLength_perm hxs, weightedLength_cons] at hsum₁ ⊢
    rw [hla]
    omega

end Sys2Proof.Proofs

/-! ## The optimality of the generated codes

The lengths of the generated codes are the depths of the leaves, and by induction over the merges no lengths that
satisfy Kraft's inequality have a smaller sum (R110). -/

namespace Sys2Proof.Proofs

open Sys2Proof.Machine Sys2Proof.Safety Sys2Proof.Laws

variable {ft : List FreqEntry} {nodes : List Node} {live : List Nat} {t : HTree} {d : Nat → Nat}
  {i j n x : Nat} {c : Bits}

/-! ### Depths -/

/-- `d` is 0 at the root, and one more at the children of each internal node from index `n` on than at that node. -/
structure DepthsFrom (n : Nat) (t : HTree) (d : Nat → Nat) : Prop where
  root : d t.root = 0
  child : ∀ (k l r f : Nat), n ≤ k → t.nodes[k]? = some (.internal l r f) → d l = d k + 1 ∧ d r = d k + 1

theorem treeWf_strict_nodup (h : TreeWf ft t) : (t.root :: children t.nodes).Nodup :=
  h.strict.nodup_iff.mpr List.nodup_range

/-- A node has one parent (R20). -/
theorem treeWf_parent_unique (h : TreeWf ft t) {k l r f k' l' r' f' : Nat}
    (hk : t.nodes[k]? = some (.internal l r f)) (hk' : t.nodes[k']? = some (.internal l' r' f'))
    (hx : x = l ∨ x = r) (hx' : x = l' ∨ x = r') : k = k' := by
  have hn : (children t.nodes).Nodup := (treeWf_strict_nodup h).of_cons
  have hdisj := List.pairwise_iff_getElem.mp (List.nodup_flatMap.mp hn).2
  obtain ⟨hkl, hke⟩ := List.getElem?_eq_some_iff.mp hk
  obtain ⟨hkl', hke'⟩ := List.getElem?_eq_some_iff.mp hk'
  have hxk : x ∈ childrenOf t.nodes[k] := by simpa [hke, childrenOf] using hx
  have hxk' : x ∈ childrenOf t.nodes[k'] := by simpa [hke', childrenOf] using hx'
  rcases lt_trichotomy k k' with hlt | he | hlt
  · exact absurd hxk' (hdisj k k' hkl hkl' hlt hxk)
  · exact he
  · exact absurd hxk (hdisj k' k hkl' hkl hlt hxk')

theorem treeWf_root_not_child (h : TreeWf ft t) {k l r f : Nat} (hk : t.nodes[k]? = some (.internal l r f)) :
    l ≠ t.root ∧ r ≠ t.root := by
  have hroot : t.root ∉ children t.nodes := (treeWf_strict_nodup h).notMem
  exact ⟨fun he => hroot (mem_children.mpr ⟨k, l, r, f, hk, .inl he.symm⟩),
    fun he => hroot (mem_children.mpr ⟨k, l, r, f, hk, .inr he.symm⟩)⟩

theorem treeWf_internal_ge (h : TreeWf ft t) {k l r f : Nat} (hk : t.nodes[k]? = some (.internal l r f)) :
    ft.length ≤ k := by
  by_contra hlt
  have := h.leaves k _ (List.getElem?_eq_getElem (Nat.lt_of_not_le hlt))
  rw [hk] at this
  cases this

/-- The merges only add to the arena. -/
theorem merges_prefix (h : Merges nodes live t) : nodes <+: t.nodes := by
  induction h with
  | root nodes x => exact List.prefix_rfl
  | merge nodes live a b t first second rest ih => exact (List.prefix_append _ _).trans ih

/-- The node of a merge, where the tree has it. -/
theorem merges_getElem?_length {m : Node} (h : Merges (nodes ++ [m]) live t) :
    t.nodes[nodes.length]? = some m := by
  obtain ⟨rest, hrest⟩ := merges_prefix h
  simp [← hrest]

/-- Depths, found from the root down: the last merge's node first. -/
theorem merges_exists_depths (h : Merges nodes live t) (hwf : TreeWf ft t) :
    ∃ d, DepthsFrom nodes.length t d := by
  induction h with
  | root nodes x =>
    refine ⟨fun _ => 0, rfl, fun k l r f hle hk => ?_⟩
    rw [List.getElem?_eq_none hle] at hk
    cases hk
  | merge nodes live a b t first second rest ih =>
    obtain ⟨d, hroot, hchild⟩ := ih hwf
    have hnew := merges_getElem?_length rest
    obtain ⟨hna, hnb⟩ := treeWf_children_lt hwf hnew
    obtain ⟨hra, hrb⟩ := treeWf_root_not_child hwf hnew
    refine ⟨fun x => if x = a ∨ x = b then d nodes.length + 1 else d x, ?_, fun k l r f hle hk => ?_⟩
    · simp [hra.symm, hrb.symm, hroot]
    · have hkab : ¬ (k = a ∨ k = b) := by omega
      simp only [if_neg hkab]
      rcases hle.eq_or_lt with rfl | hlt
      · rw [hnew] at hk
        cases hk
        simp
      · have hother : ∀ x, x = l ∨ x = r → ¬ (x = a ∨ x = b) := fun x hx hx' =>
          hlt.ne (treeWf_parent_unique hwf hnew hk hx' hx)
        rw [if_neg (hother l (.inl rfl)), if_neg (hother r (.inr rfl))]
        exact hchild k l r f (by simpa using hlt) hk

/-- A path goes one deeper with each bit. -/
theorem pathTo_depth (hwf : TreeWf ft t) (hd : DepthsFrom ft.length t d) (hp : PathTo t.nodes i x c) :
    d i = d x + c.length := by
  induction hp with
  | here => rfl
  | left x l r f c hx _ ih =>
    obtain ⟨hl, -⟩ := hd.child x l r f (treeWf_internal_ge hwf hx) hx
    rw [ih, hl, List.length_cons]
    omega
  | right x l r f c hx _ ih =>
    obtain ⟨-, hr⟩ := hd.child x l r f (treeWf_internal_ge hwf hx) hx
    rw [ih, hr, List.length_cons]
    omega

/-- With two or more symbols the code of a slot is as long as its leaf is deep. -/
theorem length_codeOf (hwf : TreeWf ft t) (hd : DepthsFrom ft.length t d) (hft : 2 ≤ ft.length)
    (hi : i < ft.length) : (codeOf t i).length = d i := by
  have hcode := codeOf_isCode hwf hi
  have hcount := hwf.node_count
  rw [IsCode, if_neg (by omega)] at hcode
  rw [pathTo_depth hwf hd hcode, hd.root, Nat.zero_add]

/-! ### The induction over the merges -/

theorem Forest.live_nodup (f : Forest ft nodes live) : live.Nodup :=
  (f.strict.nodup_iff.mpr List.nodup_range).of_append_left

/-- The sum after a merge: the merged node weighs as much as its two children. -/
theorem weightedLength_merged {a b : Nat} {l : Nat → Nat} {rest : List Nat}
    (hrest : ∀ x ∈ rest, x < nodes.length) :
    weightedLength (freqAt (nodes ++ [.internal a b (freqAt nodes a + freqAt nodes b)])) l
      (rest ++ [nodes.length]) =
    weightedLength (freqAt nodes) l rest + (freqAt nodes a + freqAt nodes b) * l nodes.length := by
  rw [weightedLength_append, weightedLength_congr (fun x hx => freqAt_append_left (hrest x hx)) fun _ _ => rfl,
    weightedLength_cons, weightedLength_nil, freqAt_append_last]
  rfl

/-- Huffman's theorem, for the nodes still live: their depths in the tree have the least sum of frequency times
length among all lengths that satisfy Kraft's inequality. Given such lengths, exchange them so that the two merged
nodes have the longest; the lengths with one bit less for the new node satisfy it after the merge. -/
theorem merges_depths_least (h : Merges nodes live t) (f : Forest ft nodes live) (hd : DepthsFrom ft.length t d)
    (l : Nat → Nat) (hl : kraftSum (live.map l) ≤ 1) :
    weightedLength (freqAt nodes) d live ≤ weightedLength (freqAt nodes) l live := by
  induction h generalizing l with
  | root nodes x => simp [hd.root]
  | merge nodes live a b t first second rest ih =>
    obtain ⟨l', hperm, hab, hmax, hle⟩ :=
      exists_lightest_pair_longest f.live_nodup l first.1 second.1 first.2 second.2
    have hlive := perm_cons_cons_erase first.1 second.1
    have hlt : ∀ x ∈ (live.erase a).erase b, x < nodes.length := fun x hx =>
      f.lt_length (List.mem_of_mem_erase (List.mem_of_mem_erase hx))
    rw [← kraftSum_perm hperm, kraftSum_perm (hlive.map l')] at hl
    obtain ⟨m, hm, hjoin⟩ := kraftSum_join (by simpa using hmax) hl
    have hold : ∀ x ∈ (live.erase a).erase b, Function.update l' nodes.length m x = l' x := fun x hx =>
      Function.update_of_ne (hlt x hx).ne _ _
    have hmerged := ih (f.merge first second) hd (Function.update l' nodes.length m) (by
      rw [kraftSum_perm ((List.perm_append_comm).map _), List.singleton_append, List.map_cons,
        Function.update_self, List.map_congr_left hold]
      exact hjoin)
    rw [weightedLength_merged hlt, weightedLength_merged hlt, Function.update_self,
      weightedLength_congr (fun _ _ => rfl) hold] at hmerged
    obtain ⟨hda, hdb⟩ := hd.child _ _ _ _ f.leaf_count (merges_getElem?_length rest)
    refine le_trans ?_ hle
    rw [weightedLength_perm hlive, weightedLength_perm hlive]
    simp only [weightedLength_cons, hda, hdb, hm]
    have hla : freqAt nodes a * (m + 1) ≤ freqAt nodes a * l' a := Nat.mul_le_mul_left _ (hm ▸ hab)
    linarith

/-! ### The generated codes -/

theorem freqAt_leaf {e : FreqEntry} (h : ft[i]? = some e) : freqAt (ft.map leafOf) i = e.cnt := by
  simp [freqAt, h, leafOf, Node.freq]

/-- The cost of the codes `c i` of the slots. -/
theorem cost_eq_weightedLength (ft : List FreqEntry) (c : Nat → Bits) :
    cost ft ((List.range ft.length).map c) =
      weightedLength (freqAt (ft.map leafOf)) (fun i => (c i).length) (List.range ft.length) := by
  refine congrArg List.sum (List.ext_getElem (by simp) fun k hk _ => ?_)
  have hk : k < ft.length := by simpa using hk
  simp [freqAt_leaf (List.getElem?_eq_getElem hk)]

/-- Every tie choice gives the least sum of count times length among all lengths that satisfy Kraft's inequality. -/
theorem built_codeOf_least (h : Built ft t) (hft : 2 ≤ ft.length) (l : Nat → Nat)
    (hl : kraftSum ((List.range ft.length).map l) ≤ 1) :
    weightedLength (freqAt (ft.map leafOf)) (fun i => (codeOf t i).length) (List.range ft.length) ≤
      weightedLength (freqAt (ft.map leafOf)) l (List.range ft.length) := by
  have hwf := built_treeWf h
  obtain ⟨d, hd⟩ := merges_exists_depths h hwf
  rw [List.length_map] at hd
  rw [weightedLength_congr (fun _ _ => rfl) fun i hi => length_codeOf hwf hd hft (List.mem_range.mp hi)]
  exact merges_depths_least h (forest_leaves ft) hd l hl

/-- Settles O56: PrefixFree codes satisfy Kraft's inequality, and `built_codeOf_least`. -/
theorem generatedCodesHaveTheLeastCost : Obligations.GeneratedCodesHaveTheLeastCost := by
  intro ft t hft h codes hlen hpf
  have hcodes : (List.range ft.length).map (fun i => codes.getD i []) = codes :=
    List.ext_getElem (by simp [hlen]) fun k _ hk => by simp [hk]
  have hkraft := prefixFree_kraftSum_le hpf (hlen ▸ hft)
  rw [← hcodes, List.map_map] at hkraft
  rw [← hcodes, cost_eq_weightedLength, cost_eq_weightedLength]
  exact built_codeOf_least h hft _ hkraft

/-- The exchange of the codes of two slots does not lower the cost. -/
theorem built_codeOf_swap (h : Built ft t) (hi : i < ft.length) (hj : j < ft.length) (hne : i ≠ j) :
    freqAt (ft.map leafOf) i * (codeOf t i).length + freqAt (ft.map leafOf) j * (codeOf t j).length ≤
      freqAt (ft.map leafOf) i * (codeOf t j).length + freqAt (ft.map leafOf) j * (codeOf t i).length := by
  have hft : 2 ≤ ft.length := by omega
  have himem := List.mem_range.mpr hi
  have hjmem := List.mem_range.mpr hj
  have hkraft := prefixFree_kraftSum_le (codeOf_prefixFree (built_treeWf h)) (by simpa using hft)
  rw [List.map_map] at hkraft
  have hperm := map_swap_perm List.nodup_range himem hjmem
  rw [← kraftSum_perm (hperm.map _), List.map_map] at hkraft
  have hleast := built_codeOf_least h hft _ hkraft
  have hswap := weightedLength_swap (w := freqAt (ft.map leafOf)) (l := fun i => (codeOf t i).length)
    List.nodup_range himem hjmem hne
  simp only [Function.comp_def] at hleast hswap
  omega

/-- Settles O55: were the code of the more frequent symbol longer, the exchange of the two codes would lower the
cost. -/
theorem moreFrequentSymbolsHaveNoLongerCodes : Obligations.MoreFrequentSymbolsHaveNoLongerCodes := by
  intro ft t h i j e f he hf hlt
  obtain ⟨hi, -⟩ := List.getElem?_eq_some_iff.mp he
  obtain ⟨hj, -⟩ := List.getElem?_eq_some_iff.mp hf
  have hne : i ≠ j := by
    rintro rfl
    obtain rfl : e = f := Option.some.inj (he.symm.trans hf)
    exact hlt.false
  have hswap := built_codeOf_swap h hi hj hne
  rw [freqAt_leaf he, freqAt_leaf hf] at hswap
  by_contra hlong
  have := mul_add_mul_lt_mul_add_mul hlt (Nat.lt_of_not_le hlong)
  omega

end Sys2Proof.Proofs

/-! ## The codes of a tree that R20 admits

The path from the root to a leaf is the only one (R112), and every bit string follows the path to some leaf as far
as the shorter of the two goes (R114). -/

namespace Sys2Proof.Proofs

open Sys2Proof.Machine Sys2Proof.Safety Sys2Proof.Laws

variable {ft : List FreqEntry} {nodes : List Node} {t : HTree} {i x y : Nat} {b : Bool} {c d : Bits}

/-! ### The first edge of a path -/

theorem pathTo_nil_iff : PathTo nodes i x [] ↔ x = i ∧ ∃ sym f, nodes[i]? = some (.leaf sym f) := by
  constructor
  · rintro ⟨sym, f, h⟩
    exact ⟨rfl, sym, f, h⟩
  · rintro ⟨rfl, sym, f, h⟩
    exact .here sym f h

theorem pathTo_cons_iff : PathTo nodes i x (b :: c) ↔
    ∃ l r f, nodes[x]? = some (.internal l r f) ∧ PathTo nodes i (cond b r l) c := by
  constructor
  · intro h
    cases h with
    | left _ l r f _ h rest | right _ l r f _ h rest => exact ⟨l, r, f, h, rest⟩
  · rintro ⟨l, r, f, h, rest⟩
    cases b with
    | false => exact .left x l r f c h rest
    | true => exact .right x l r f c h rest

/-! ### One path to each leaf -/

theorem cond_eq_left_or_right (b : Bool) (l r : Nat) : cond b r l = l ∨ cond b r l = r := by
  cases b <;> simp

/-- The two children of a node differ (R20). -/
theorem treeWf_children_ne (h : TreeWf ft t) {k l r f : Nat} (hk : t.nodes[k]? = some (.internal l r f)) :
    l ≠ r := by
  have hn : (children t.nodes).Nodup := (treeWf_strict_nodup h).of_cons
  have hlr := (List.nodup_flatMap.mp hn).1 _ (List.mem_of_getElem? hk)
  simpa [childrenOf] using hlr

/-- A node is the end of one edge: its parent and its side are determined. -/
theorem treeWf_edge_unique (h : TreeWf ft t) {k l r f k' l' r' f' : Nat} {b b' : Bool}
    (hk : t.nodes[k]? = some (.internal l r f)) (hk' : t.nodes[k']? = some (.internal l' r' f'))
    (he : cond b r l = cond b' r' l') : k = k' ∧ b = b' := by
  obtain rfl := treeWf_parent_unique h hk hk' (cond_eq_left_or_right b l r) (he ▸ cond_eq_left_or_right b' l' r')
  obtain ⟨rfl, rfl, rfl⟩ : l = l' ∧ r = r' ∧ f = f' := by simpa [hk] using hk'
  have hne := treeWf_children_ne h hk
  refine ⟨rfl, ?_⟩
  match b, b', he with
  | false, false, _ | true, true, _ => rfl
  | false, true, he => exact absurd he hne
  | true, false, he => exact absurd he.symm hne

/-- Equally long paths to one leaf are the same path. -/
theorem pathTo_unique_of_length (h : TreeWf ft t) (hc : PathTo t.nodes i x c) (hd : PathTo t.nodes i y d)
    (hlen : c.length = d.length) : x = y ∧ c = d := by
  induction c generalizing x y d with
  | nil =>
    obtain rfl := List.length_eq_zero_iff.mp hlen.symm
    exact ⟨(pathTo_nil_iff.mp hc).1.trans (pathTo_nil_iff.mp hd).1.symm, rfl⟩
  | cons b c ih =>
    cases d with
    | nil => simp at hlen
    | cons b' d =>
      obtain ⟨l, r, f, hx, hc⟩ := pathTo_cons_iff.mp hc
      obtain ⟨l', r', f', hy, hd⟩ := pathTo_cons_iff.mp hd
      obtain ⟨hchild, rfl⟩ := ih hc hd (by simpa using hlen)
      obtain ⟨rfl, rfl⟩ := treeWf_edge_unique h hx hy hchild
      exact ⟨rfl, rfl⟩

/-- No path to a leaf is longer than one from the root: the root is no node's child. -/
theorem pathTo_length_le_of_root (h : TreeWf ft t) (hc : PathTo t.nodes i t.root c)
    (hd : PathTo t.nodes i y d) : d.length ≤ c.length := by
  induction d generalizing y with
  | nil => simp
  | cons b d ih =>
    obtain ⟨l, r, f, hy, hd⟩ := pathTo_cons_iff.mp hd
    have hne : d.length ≠ c.length := by
      intro hlen
      obtain ⟨hroot, -⟩ := pathTo_unique_of_length h hd hc hlen
      obtain ⟨hl, hr⟩ := treeWf_root_not_child h hy
      rcases cond_eq_left_or_right b l r with he | he
      · exact hl (he.symm.trans hroot)
      · exact hr (he.symm.trans hroot)
    have := ih hd
    simp only [List.length_cons]
    omega

theorem pathTo_root_unique (h : TreeWf ft t) (hc : PathTo t.nodes i t.root c)
    (hd : PathTo t.nodes i t.root d) : c = d :=
  (pathTo_unique_of_length h hc hd
    ((pathTo_length_le_of_root h hd hc).antisymm (pathTo_length_le_of_root h hc hd))).2

/-- A leaf has one code. -/
theorem isCode_unique (h : TreeWf ft t) (hc : IsCode t i c) (hd : IsCode t i d) : c = d := by
  unfold IsCode at hc hd
  split at hc
  next hn => rw [if_pos hn] at hd; exact hc.trans hd.symm
  next hn => rw [if_neg hn] at hd; exact pathTo_root_unique h hc hd

theorem isCode_iff (h : TreeWf ft t) (hi : i < ft.length) : IsCode t i c ↔ c = codeOf t i :=
  ⟨fun hc => isCode_unique h hc (codeOf_isCode h hi), fun hc => hc ▸ codeOf_isCode h hi⟩

/-- Settles O53: `codeOf` gives a code of the leaf, and the leaf has no other, as its path from the root is the only
one. -/
theorem codesAreThePathsFromTheRoot : Obligations.CodesAreThePathsFromTheRoot :=
  fun _ _ h _ hi _ => isCode_iff h hi

/-! ### Every bit string leads to a leaf -/

theorem treeWf_leaf_lt (h : TreeWf ft t) {sym : Symbol} {f : Nat} (hk : t.nodes[x]? = some (.leaf sym f)) :
    x < ft.length := by
  by_contra hle
  obtain ⟨l, r, hn, -⟩ := h.internals x _ hk (Nat.le_of_not_lt hle)
  cases hn

/-- From any node the bits of `c` lead down until a leaf is met or the bits end above one. -/
theorem treeWf_exists_pathTo (h : TreeWf ft t) (x : Nat) (hx : x < t.nodes.length) (c : Bits) :
    ∃ i < ft.length, ∃ p, PathTo t.nodes i x p ∧ (p <+: c ∨ c <+: p) := by
  have hget := List.getElem?_eq_getElem hx
  cases hn : t.nodes[x] with
  | leaf sym f =>
    rw [hn] at hget
    exact ⟨x, treeWf_leaf_lt h hget, [], .here sym f hget, .inl c.nil_prefix⟩
  | internal l r f =>
    rw [hn] at hget
    obtain ⟨hl, hr⟩ := treeWf_children_lt h hget
    cases c with
    | nil =>
      obtain ⟨i, hi, p, hp, -⟩ := treeWf_exists_pathTo h l (hl.trans hx) []
      exact ⟨i, hi, false :: p, .left x l r f p hget hp, .inr List.nil_prefix⟩
    | cons b c =>
      have hchild : cond b r l < x := by cases b <;> assumption
      obtain ⟨i, hi, p, hp, hpre⟩ := treeWf_exists_pathTo h (cond b r l) (hchild.trans hx) c
      exact ⟨i, hi, b :: p, pathTo_cons_iff.mpr ⟨l, r, f, hget, hp⟩, by simpa using hpre⟩
termination_by x

/-- With two or more symbols every bit string starts with a code or is a beginning of one (R114). -/
theorem codeOf_complete (h : TreeWf ft t) (hft : 2 ≤ ft.length) (c : Bits) :
    ∃ i < ft.length, codeOf t i <+: c ∨ c <+: codeOf t i := by
  obtain ⟨i, hi, p, hp, hpre⟩ := treeWf_exists_pathTo h t.root (treeWf_root_lt h) c
  have hcount := h.node_count
  have hcode : IsCode t i p := by rwa [IsCode, if_neg (by omega)]
  exact ⟨i, hi, (isCode_iff h hi).mp hcode ▸ hpre⟩

/-- Settles O54: the three properties of R114, each a lemma of its own. -/
theorem generatedCodesArePrefixFreeAndComplete : Obligations.GeneratedCodesArePrefixFreeAndComplete :=
  fun _ _ h => ⟨fun _ hi => codeOf_ne_nil h hi, codeOf_prefixFree h, codeOf_complete h⟩

end Sys2Proof.Proofs

/-! ## The code generator

GEN (R111) and DUMP (R115). -/

namespace Sys2Proof.Proofs

open Sys2Proof.Machine Sys2Proof.Safety Sys2Proof.Laws

variable {s : State} {t : HTree}

/-! ### GEN -/

theorem mem_allowed_gen : s.phase ∈ allowed .gen ↔ s.phase = .tree := by
  simp [allowed]

theorem generatedCodes_of_tree (h : s.tree = some t) :
    generatedCodes s = (List.range s.ft.length).map (codeOf t) := by
  simp [generatedCodes, treeOf, h]

theorem generatedTable_of_tree (h : s.tree = some t) :
    generatedTable s = List.zipWith (fun e i => ⟨e.sym, codeOf t i⟩) s.ft (List.range s.ft.length) := by
  rw [generatedTable, generatedCodes_of_tree h, List.zipWith_map_right]

theorem genBody_tooLong (h : s.tree = some t)
    (hlong : ∃ i < s.ft.length, s.par.maxCodeLen < (codeOf t i).length) :
    genBody s = .raised .codeTooLong [] := by
  rw [genBody, if_pos (by simpa [generatedCodes_of_tree h] using hlong)]

theorem genBody_table (h : s.tree = some t)
    (hfits : ∀ i < s.ft.length, (codeOf t i).length ≤ s.par.maxCodeLen) :
    genBody s = .done { s with ct := generatedTable s, tree := none, dpre := [], phase := .codes } [] := by
  rw [genBody, if_neg (by simpa [generatedCodes_of_tree h] using hfits)]

/-- Settles O32: the common checks, then the two ends of GEN's body. -/
theorem genWritesTheCodeTable : Obligations.GenWritesTheCodeTable := by
  refine ⟨rfl, commonChecks (by simp) (by simp), fun s t hp ht => ?_⟩
  have ha := mem_allowed_gen.mpr hp
  refine ⟨fun hlong => ?_, fun hfits => ?_⟩
  · exact exec_of_raised (by simp) (by simp) ha rfl (genBody_tooLong ht hlong)
  · rw [exec_of_done (by simp) (by simp) ha rfl (genBody_table ht hfits), generatedTable_of_tree ht]

/-! ### DUMP -/

theorem mem_allowed_dump : s.phase ∈ allowed .dump ↔ s.phase = .codes := by
  simp [allowed]

theorem doneWord_dump : doneWord (opcodeOf .dump) = 0x850C0000#32 := rfl

/-- Settles O33: the common checks, then DUMP's body, which only pushes words. -/
theorem dumpReadsOutTheCodeTable : Obligations.DumpReadsOutTheCodeTable := by
  refine ⟨rfl, commonChecks (by simp) (by simp), fun s hp => ?_⟩
  rw [exec_of_done (by simp) (by simp) (mem_allowed_dump.mpr hp) rfl rfl, dumpWords, doneWord_dump]
  rfl

end Sys2Proof.Proofs

/-! ## The encoder

ENC (R116), and the encoding law (R117). -/

namespace Sys2Proof.Proofs

open Sys2Proof.Machine Sys2Proof.Safety Sys2Proof.Laws

variable {s : State} {sym : Symbol} {e : CodeEntry}

/-! ### ENC -/

theorem mem_allowed_enc : s.phase ∈ allowed (.enc sym) ↔ s.phase = .codes := by
  simp [allowed]

theorem encBody_missing (h : sym ∉ s.ct.map CodeEntry.sym) :
    encBody sym s = .raised .missingSymbol [] := by
  rw [encBody, findC_none.mpr h]

theorem encBody_found (h : findC s.ct sym = some e) : encBody sym s = .done s (chunks e.code) := by
  rw [encBody, h]

/-- ENC of a symbol with a slot in CT pushes the chunks of the slot's code and changes nothing else. -/
theorem exec_enc (hp : s.phase = .codes) (hsc : isScalar sym = true) (h : findC s.ct sym = some e) :
    exec (.enc sym) s = .next { s with pend := chunks e.code } :=
  exec_of_done (by simp) (by simp) (mem_allowed_enc.mpr hp) hsc (encBody_found h)

/-- Settles O34: the common checks, then the two ends of ENC's body. -/
theorem encEmitsTheCode : Obligations.EncEmitsTheCode := by
  intro sym
  refine ⟨rfl, commonChecks (by simp) (by simp), fun s hp hsc => ?_⟩
  refine ⟨fun hnew => ?_, fun before c after hct hb => ?_⟩
  · exact exec_of_raised (by simp) (by simp) (mem_allowed_enc.mpr hp) hsc (encBody_missing hnew)
  · exact exec_enc hp hsc (hct ▸ findC_split hb)

/-! ### The encoding law -/

/-- The codes of the entries `es` in order, each cut into BITS words of its own. -/
def chunksOf (es : List CodeEntry) : List Word := es.flatMap fun e => chunks e.code

theorem chunksOf_cons (e : CodeEntry) (es : List CodeEntry) :
    chunksOf (e :: es) = chunks e.code ++ chunksOf es := rfl

theorem flatMap_bitsOf_chunksOf (es : List CodeEntry) :
    (chunksOf es).flatMap bitsOf = (es.map CodeEntry.code).flatten := by
  rw [chunksOf, List.flatMap_assoc, ← List.flatMap_def]
  simp only [flatMap_bitsOf_chunks]

theorem tag_of_mem_chunksOf {es : List CodeEntry} {w : Word} (h : w ∈ chunksOf es) :
    w.extractLsb' 24 8 = 0x81#8 := by
  obtain ⟨e, -, hw⟩ := List.mem_flatMap.mp h
  obtain ⟨b, hb, rfl⟩ := mem_chunks hw
  exact (bitsWord_fields hb).1

/-- Encoding symbol by symbol: the responses are the chunks of the symbols' codes, and the run ends in the state
it began in but for PEND, so that the next symbol finds the same table. -/
theorem runAll_encsOf {es : List CodeEntry} (hp : s.phase = .codes)
    (hes : ∀ e ∈ es, findC s.ct e.sym = some e ∧ isScalar e.sym = true) :
    ∃ last, runAll (encsOf (es.map CodeEntry.sym)) s = some ({ s with pend := last }, chunksOf es) := by
  induction es generalizing s with
  | nil => exact ⟨s.pend, rfl⟩
  | cons e es ih =>
    obtain ⟨⟨hfind, hsc⟩, hrest⟩ := List.forall_mem_cons.mp hes
    obtain ⟨last, hrun⟩ := ih (s := { s with pend := chunks e.code }) hp hrest
    have hcons : encsOf ((e :: es).map CodeEntry.sym) = .enc e.sym :: encsOf (es.map CodeEntry.sym) := rfl
    exact ⟨last, by rw [hcons, runAll_cons_of_next (exec_enc hp hsc hfind), hrun, chunksOf_cons]; rfl⟩

/-- Settles O57: each entry is the one CT gives its symbol, so `runAll_encsOf` has the run. -/
theorem encodingConcatenatesTheCodes : Obligations.EncodingConcatenatesTheCodes := by
  intro s es hp hwf _ hes
  obtain ⟨last, hrun⟩ := runAll_encsOf hp fun e he =>
    ⟨findC_mem hwf.keys_unique (hes e he).1, (hes e he).2⟩
  exact ⟨_, _, hrun, rfl, flatMap_bitsOf_chunksOf es, fun _ => tag_of_mem_chunksOf⟩

end Sys2Proof.Proofs

/-! ## The code-table loader

LSYM, LBIT, LCOM and LEND (R118 to R121), and the loading law (R122). -/

namespace Sys2Proof.Proofs

open Sys2Proof.Machine Sys2Proof.Safety Sys2Proof.Laws

variable {p : Params} {s : State} {sym : Symbol} {e : CodeEntry} {ct : List CodeEntry} {c bits : Bits}
  {ps : List Bits}

/-! ### LSYM -/

theorem mem_allowed_lsym : s.phase ∈ allowed (.lsym sym) ↔ s.phase = .idle ∨ s.phase = .loading := by
  simp [allowed]

theorem lsymBody_open (hp : s.phase = .loading) (hst : s.stage ≠ none) :
    lsymBody sym s = .raised .malformedTable [] := by
  rw [lsymBody, if_pos ⟨hp, Option.isSome_iff_ne_none.mpr hst⟩]

theorem lsymBody_closed (h : s.phase = .idle ∨ (s.phase = .loading ∧ s.stage = none)) :
    lsymBody sym s = .done { s with stage := some ⟨sym, []⟩, phase := .loading } [] := by
  rw [lsymBody, if_neg]
  rintro ⟨hp, hst⟩
  rcases h with hidle | ⟨-, hnone⟩
  · cases hp.symm.trans hidle
  · simp [hnone] at hst

/-- LSYM of a scalar symbol opens an entry where none is open. -/
theorem exec_lsym (hsc : isScalar sym = true)
    (h : s.phase = .idle ∨ (s.phase = .loading ∧ s.stage = none)) :
    exec (.lsym sym) s = .next { s with stage := some ⟨sym, []⟩, phase := .loading, pend := [] } :=
  exec_of_done (by simp) (by simp) (mem_allowed_lsym.mpr (h.imp_right And.left)) hsc (lsymBody_closed h)

/-- Settles O35: the common checks, then the two ends of LSYM's body. -/
theorem lsymOpensAnEntry : Obligations.LsymOpensAnEntry := by
  intro sym
  refine ⟨rfl, commonChecks (by simp) (by simp), fun s hsc => ⟨fun hp hst => ?_, exec_lsym hsc⟩⟩
  exact exec_of_raised (by simp) (by simp) (mem_allowed_lsym.mpr (.inr hp)) hsc (lsymBody_open hp hst)

/-! ### LBIT -/

theorem mem_allowed_lbit : s.phase ∈ allowed (.lbit bits) ↔ s.phase = .loading := by
  simp [allowed]

theorem lbitBody_closed (hst : s.stage = none) : lbitBody bits s = .raised .malformedTable [] := by
  rw [lbitBody, hst]

theorem lbitBody_tooLong (hst : s.stage = some ⟨sym, c⟩)
    (hlong : s.par.maxCodeLen < c.length + bits.length) :
    lbitBody bits s = .raised .codeTooLong [] := by
  simp [lbitBody, hst, hlong]

theorem lbitBody_fits (hst : s.stage = some ⟨sym, c⟩)
    (hfits : c.length + bits.length ≤ s.par.maxCodeLen) :
    lbitBody bits s = .done { s with stage := some ⟨sym, c ++ bits⟩ } [] := by
  simp [lbitBody, hst, hfits]

/-- LBIT appends its bits to the open entry's code where the bound admits them. -/
theorem exec_lbit (hp : s.phase = .loading) (hst : s.stage = some ⟨sym, c⟩)
    (hfits : c.length + bits.length ≤ s.par.maxCodeLen) :
    exec (.lbit bits) s = .next { s with stage := some ⟨sym, c ++ bits⟩, pend := [] } :=
  exec_of_done (by simp) (by simp) (mem_allowed_lbit.mpr hp) rfl (lbitBody_fits hst hfits)

/-- Settles O36: the common checks, then the three ends of LBIT's body. -/
theorem lbitAppendsToTheOpenEntry : Obligations.LbitAppendsToTheOpenEntry := by
  intro bits
  refine ⟨rfl, commonChecks (by simp) (by simp), fun s hp => ?_⟩
  have ha : s.phase ∈ allowed (.lbit bits) := mem_allowed_lbit.mpr hp
  refine ⟨fun hst => ?_, fun sym c hst hlong => ?_, fun sym c => exec_lbit hp⟩
  · exact exec_of_raised (by simp) (by simp) ha rfl (lbitBody_closed hst)
  · exact exec_of_raised (by simp) (by simp) ha rfl (lbitBody_tooLong hst hlong)

/-! ### LCOM -/

theorem mem_allowed_lcom : s.phase ∈ allowed .lcom ↔ s.phase = .loading := by
  simp [allowed]

theorem findC_isSome : (findC ct sym).isSome = true ↔ sym ∈ ct.map CodeEntry.sym := by
  rw [← not_iff_not, ← findC_none]
  simp

theorem clashes_eq_false_iff :
    clashes ct c = false ↔ ∀ d ∈ ct, ¬ d.code <+: c ∧ ¬ c <+: d.code := by
  simp [← Bool.not_eq_true, clashes_iff]

theorem lcomBody_closed (hst : s.stage = none) : lcomBody s = .raised .malformedTable [] := by
  rw [lcomBody, hst]

theorem lcomBody_emptyCode (hst : s.stage = some e) (hempty : e.code = []) :
    lcomBody s = .raised .malformedTable [] := by
  simp [lcomBody, hst, hempty]

theorem lcomBody_knownSymbol (hst : s.stage = some e) (hne : e.code ≠ [])
    (hknown : e.sym ∈ s.ct.map CodeEntry.sym) : lcomBody s = .raised .malformedTable [] := by
  simp only [lcomBody, hst, if_neg hne, if_pos (findC_isSome.mpr hknown)]

theorem lcomBody_clash (hst : s.stage = some e) (hne : e.code ≠ [])
    (hnew : e.sym ∉ s.ct.map CodeEntry.sym) (hclash : ∃ d ∈ s.ct, d.code <+: e.code ∨ e.code <+: d.code) :
    lcomBody s = .raised .malformedTable [] := by
  simp only [lcomBody, hst, if_neg hne, if_neg (mt findC_isSome.mp hnew), if_pos (clashes_iff.mpr hclash)]

/-- An entry that passes the table's checks: only CT's capacity is left. -/
theorem lcomBody_checked (hst : s.stage = some e) (hne : e.code ≠ [])
    (hnew : e.sym ∉ s.ct.map CodeEntry.sym)
    (hfree : ∀ d ∈ s.ct, ¬ d.code <+: e.code ∧ ¬ e.code <+: d.code) :
    lcomBody s = if s.ct.length = s.par.nSym then .raised .tableFull []
      else .done { s with ct := s.ct ++ [e], stage := none } [] := by
  simp [lcomBody, hst, hne, findC_none.mpr hnew, clashes_eq_false_iff.mpr hfree]

/-- LCOM commits an open entry that passes the five checks of R120. -/
theorem exec_lcom (hp : s.phase = .loading) (hst : s.stage = some e) (hne : e.code ≠ [])
    (hnew : e.sym ∉ s.ct.map CodeEntry.sym)
    (hfree : ∀ d ∈ s.ct, ¬ d.code <+: e.code ∧ ¬ e.code <+: d.code)
    (hroom : s.ct.length ≠ s.par.nSym) :
    exec .lcom s = .next { s with ct := s.ct ++ [e], stage := none, pend := [] } :=
  exec_of_done (by simp) (by simp) (mem_allowed_lcom.mpr hp) rfl
    ((lcomBody_checked hst hne hnew hfree).trans (if_neg hroom))

/-- Settles O37: the common checks, then LCOM's body at each of its checks in their order. -/
theorem lcomCommitsTheOpenEntry : Obligations.LcomCommitsTheOpenEntry := by
  refine ⟨rfl, commonChecks (by simp) (by simp), fun s hp => ?_⟩
  have hraised {e : ErrCode} (hb : lcomBody s = .raised e []) : exec .lcom s = .next (raise 0x0A#8 e [] s) :=
    exec_of_raised (by simp) (by simp) (mem_allowed_lcom.mpr hp) rfl hb
  refine ⟨fun hst => hraised (lcomBody_closed hst), fun e hst => ⟨?_, ?_, ?_, ?_, exec_lcom hp hst⟩⟩
  · exact fun hempty => hraised (lcomBody_emptyCode hst hempty)
  · exact fun hne hknown => hraised (lcomBody_knownSymbol hst hne hknown)
  · exact fun hne hnew hclash => hraised (lcomBody_clash hst hne hnew hclash)
  · exact fun hne hnew hfree hfull =>
      hraised ((lcomBody_checked hst hne hnew hfree).trans (if_pos hfull))

/-! ### LEND -/

theorem mem_allowed_lend : s.phase ∈ allowed .lend ↔ s.phase = .loading := by
  simp [allowed]

theorem lendBody_malformed (h : s.stage ≠ none ∨ s.ct = []) :
    lendBody s = .raised .malformedTable [] := by
  rcases h with hst | hct
  · rw [lendBody, if_pos (Option.isSome_iff_ne_none.mpr hst)]
  · simp [lendBody, hct]

theorem lendBody_complete (hst : s.stage = none) (hct : s.ct ≠ []) :
    lendBody s = .done { s with dpre := [], phase := .codes } [] := by
  simp [lendBody, hst, hct]

/-- LEND ends the loading of a table that is not empty, no entry being open. -/
theorem exec_lend (hp : s.phase = .loading) (hst : s.stage = none) (hct : s.ct ≠ []) :
    exec .lend s = .next { s with dpre := [], phase := .codes, pend := [] } :=
  exec_of_done (by simp) (by simp) (mem_allowed_lend.mpr hp) rfl (lendBody_complete hst hct)

/-- Settles O38: the common checks, then the two ends of LEND's body. -/
theorem lendCompletesTheTable : Obligations.LendCompletesTheTable := by
  refine ⟨rfl, commonChecks (by simp) (by simp), fun s hp => ⟨fun h => ?_, exec_lend hp⟩⟩
  exact exec_of_raised (by simp) (by simp) (mem_allowed_lend.mpr hp) rfl (lendBody_malformed h)

/-! ### The loading law -/

/-- `s` while it loads a table: `ct` is committed, and `stage` is the entry still open, if one is. -/
def whileLoading (s : State) (ct : List CodeEntry) (stage : Option CodeEntry) : State :=
  { s with ct := ct, stage := stage, phase := .loading, pend := [] }

/-- An entry of a table that R22 admits passes LBIT's bound and LCOM's checks against the entries before it. -/
theorem tableWf_append_cons_checks {es : List CodeEntry} (h : TableWf p (ct ++ e :: es)) :
    e.code ≠ [] ∧ e.code.length ≤ p.maxCodeLen ∧ e.sym ∉ ct.map CodeEntry.sym ∧
      (∀ d ∈ ct, ¬ d.code <+: e.code ∧ ¬ e.code <+: d.code) ∧ ct.length ≠ p.nSym := by
  obtain ⟨hkeys, hne, hlen, hfree, hcap⟩ := h
  rw [List.map_append, List.nodup_append] at hkeys
  rw [PrefixFree, List.map_append, List.pairwise_append] at hfree
  obtain ⟨-, -, hdisjoint⟩ := hkeys
  obtain ⟨-, -, hacross⟩ := hfree
  refine ⟨hne e (by simp), hlen e (by simp), fun hm => hdisjoint _ hm _ (by simp) rfl, fun d hd => ?_, ?_⟩
  · exact hacross _ (List.mem_map_of_mem hd) _ (by simp)
  · simp only [List.length_append, List.length_cons] at hcap
    omega

/-- The pieces of a code, one LBIT each, extend the open entry by the whole code. -/
theorem runAll_lbits (hlen : (c ++ ps.flatten).length ≤ s.par.maxCodeLen) :
    runAll (ps.map .lbit) (whileLoading s ct (some ⟨sym, c⟩)) =
      some (whileLoading s ct (some ⟨sym, c ++ ps.flatten⟩), []) := by
  induction ps generalizing c with
  | nil => simp
  | cons b ps ih =>
    rw [List.flatten_cons, ← List.append_assoc] at hlen ⊢
    have hfits : c.length + b.length ≤ s.par.maxCodeLen := by
      simp only [List.length_append] at hlen
      omega
    have hstep : exec (.lbit b) (whileLoading s ct (some ⟨sym, c⟩)) =
        .next (whileLoading s ct (some ⟨sym, c ++ b⟩)) := exec_lbit rfl rfl hfits
    rw [List.map_cons, runAll_cons_of_next hstep, ih hlen]
    rfl

/-- `LOAD` of one entry appends it to CT, where LSYM can open it and it fits the table. -/
theorem runAll_loadOf {es : List CodeEntry} (hopen : s.phase = .idle ∨ (s.phase = .loading ∧ s.stage = none))
    (hsc : isScalar e.sym = true) (hps : ps.flatten = e.code) (hwf : TableWf s.par (s.ct ++ e :: es)) :
    runAll (loadOf e.sym ps) s = some (whileLoading s (s.ct ++ [e]) none, []) := by
  obtain ⟨hne, hlen, hnew, hfree, hroom⟩ := tableWf_append_cons_checks hwf
  have hlsym : exec (.lsym e.sym) s = .next (whileLoading s s.ct (some ⟨e.sym, []⟩)) :=
    exec_lsym hsc hopen
  have hlbits : runAll (ps.map .lbit) (whileLoading s s.ct (some ⟨e.sym, []⟩)) =
      some (whileLoading s s.ct (some e), []) := by
    rw [runAll_lbits (by simpa [hps] using hlen), List.nil_append, hps]
  have hlcom : exec .lcom (whileLoading s s.ct (some e)) = .next (whileLoading s (s.ct ++ [e]) none) :=
    exec_lcom rfl rfl hne hnew hfree hroom
  rw [loadOf, runAll_cons_of_next hlsym, runAll_append_of_some hlbits, runAll_cons_of_next hlcom]
  rfl

/-- From a table begun, `LOAD` of the remaining entries and LEND complete it. -/
theorem runAll_loads_lend {es : List (CodeEntry × List Bits)} (hct : ct ≠ [])
    (hes : ∀ x ∈ es, isScalar x.1.sym = true ∧ x.2.flatten = x.1.code)
    (hwf : TableWf s.par (ct ++ es.map Prod.fst)) :
    runAll ((es.flatMap fun x => loadOf x.1.sym x.2) ++ [.lend]) (whileLoading s ct none) =
      some ({ s with
        ct := ct ++ es.map Prod.fst, stage := none, dpre := [], phase := .codes, pend := [] }, []) := by
  induction es generalizing ct with
  | nil =>
    have hlend := exec_lend (s := whileLoading s ct none) rfl rfl hct
    rw [List.flatMap_nil, List.nil_append, runAll_cons_of_next hlend]
    simp [whileLoading]
  | cons x es ih =>
    obtain ⟨⟨hsc, hps⟩, hrest⟩ := List.forall_mem_cons.mp hes
    rw [List.map_cons] at hwf
    have hload : runAll (loadOf x.1.sym x.2) (whileLoading s ct none) =
        some (whileLoading s (ct ++ [x.1]) none, []) := runAll_loadOf (.inr ⟨rfl, rfl⟩) hsc hps hwf
    have hrun := ih (ct := ct ++ [x.1]) (by simp) hrest (by simpa using hwf)
    rw [List.flatMap_cons, List.append_assoc, runAll_append_of_some hload, hrun]
    simp

/-- In IDLE, CT, STAGE and DPREFIX are empty. -/
theorem idle_tables_empty (hs : Inv s) (hp : s.phase = .idle) : s.ct = [] ∧ s.stage = none ∧ s.dpre = [] := by
  have hph := hs.phase
  simp only [PhaseWf, hp] at hph
  obtain ⟨-, hct, -, hst, -⟩ := hph
  exact ⟨hct, hst, by simpa [DprefixWf, hct] using hs.dprefix⟩

/-- Settles O58: the first entry is loaded from IDLE, the others and LEND from LOADING. -/
theorem loadingATableGivesThatTable : Obligations.LoadingATableGivesThatTable := by
  intro s es hs hp hne hes hwf
  obtain ⟨x, es, rfl⟩ := List.exists_cons_of_ne_nil hne
  obtain ⟨hct, hst, hdpre⟩ := idle_tables_empty hs hp
  have hcodes : ∀ y ∈ x :: es, isScalar y.1.sym = true ∧ y.2.flatten = y.1.code :=
    fun y hy => (hes y hy).imp_right And.left
  obtain ⟨⟨hsc, hps⟩, hrest⟩ := List.forall_mem_cons.mp hcodes
  have hfirst : runAll (loadOf x.1.sym x.2) s = some (whileLoading s [x.1] none, []) := by
    simpa [hct] using runAll_loadOf (.inl hp) hsc hps (by simpa [hct] using hwf)
  have hothers := runAll_loads_lend (s := s) (ct := [x.1]) (by simp) hrest (by simpa using hwf)
  rw [List.flatMap_cons, List.append_assoc, runAll_append_of_some hfirst, hothers]
  simp [hst, hdpre]

end Sys2Proof.Proofs

/-! ## The decoder

DBIT and DEND (R123 to R125), the greedy equivalence of R126 and the round trip of R127. -/

namespace Sys2Proof.Proofs

open Sys2Proof.Machine Sys2Proof.Safety Sys2Proof.Laws

variable {p : Params} {s t : State} {ct : List CodeEntry} {e : CodeEntry} {d d' bits : Bits} {b : Bool}
  {syms : List Symbol} {out : List Word} {ps : List Bits}

/-! ### One bit -/

theorem tableWf_codes_nodup (h : TableWf p ct) : (ct.map CodeEntry.code).Nodup :=
  prefixFree_nodup h.codes_prefixFree

theorem decodeBit_emit (h : TableWf p ct) (he : e ∈ ct) (hc : e.code = d ++ [b]) :
    decodeBit ct d b = some ([], [symWord e.sym]) := by
  rw [decodeBit, ← hc, matchC_mem (tableWf_codes_nodup h) he]

theorem decodeBit_keep (hno : ∀ e ∈ ct, e.code ≠ d ++ [b])
    (hin : ∃ e ∈ ct, (d ++ [b]) <+: e.code ∧ d ++ [b] ≠ e.code) :
    decodeBit ct d b = some (d ++ [b], []) := by
  rw [decodeBit, matchC_none.mpr hno]
  exact if_pos (extends_iff.mpr hin)

theorem decodeBit_deadEnd (h : DeadEnd ct (d ++ [b])) : decodeBit ct d b = none := by
  have hno : ∀ e ∈ ct, e.code ≠ d ++ [b] := fun e he hc => h e he (by rw [hc])
  rw [decodeBit, matchC_none.mpr hno]
  refine if_neg fun hext => ?_
  obtain ⟨e, he, hpre, -⟩ := extends_iff.mp hext
  exact h e he hpre

/-! ### The bits of one command -/

theorem decodeBits_cons_of_some {bs : Bits} (h : decodeBit ct d b = some (d', out)) :
    decodeBits ct d (b :: bs) = ((decodeBits ct d' bs).1, out ++ (decodeBits ct d' bs).2) := by
  simp [decodeBits, h]

theorem decodeBits_of_decodes (h : TableWf p ct) (hd : Decodes ct d bits syms d') :
    decodeBits ct d bits = (some d', syms.map symWord) := by
  induction hd with
  | done d => rfl
  | emit d b bs e syms d' mem code _ ih =>
    rw [decodeBits_cons_of_some (decodeBit_emit h mem code), ih]
    rfl
  | keep d b bs syms d' noCode inside _ ih =>
    rw [decodeBits_cons_of_some (decodeBit_keep noCode inside), ih]
    rfl

theorem decodeBits_deadEnd {first rest : Bits} (h : TableWf p ct) (hd : Decodes ct d first syms d')
    (hdead : DeadEnd ct (d' ++ [b])) :
    decodeBits ct d (first ++ b :: rest) = (none, syms.map symWord) := by
  rw [decodeBits_append, decodeBits_of_decodes h hd]
  simp [decodeBits, decodeBit_deadEnd hdead]

/-! ### DBIT and DEND -/

theorem mem_allowed_dbit : s.phase ∈ allowed (.dbit bits) ↔ s.phase = .codes := by
  simp [allowed]

/-- DBIT of bits that decode. -/
theorem exec_dbit_of_some (hp : s.phase = .codes) (h : decodeBits s.ct s.dpre bits = (some d, out)) :
    exec (.dbit bits) s = .next { s with dpre := d, pend := out } :=
  exec_of_done (by simp) (by simp) (mem_allowed_dbit.mpr hp) rfl
    (show dbitBody bits s = .done { s with dpre := d } out by rw [dbitBody, h])

/-- DBIT of bits with one that fails. -/
theorem exec_dbit_of_none (hp : s.phase = .codes) (h : decodeBits s.ct s.dpre bits = (none, out)) :
    exec (.dbit bits) s = .next (raise 0x06#8 .unmatchedBits out s) :=
  exec_of_raised (by simp) (by simp) (mem_allowed_dbit.mpr hp) rfl
    (show dbitBody bits s = .raised .unmatchedBits out by rw [dbitBody, h])

/-- Settles O39: the common checks, then the two ends of the loop over the bits. -/
theorem dbitDecodesItsBits : Obligations.DbitDecodesItsBits := by
  refine fun bits => ⟨rfl, commonChecks (by simp) (by simp), fun s hp hwf => ⟨fun syms d hd => ?_, ?_⟩⟩
  · exact exec_dbit_of_some hp (decodeBits_of_decodes hwf hd)
  · rintro first b rest syms d rfl hd hdead
    exact exec_dbit_of_none hp (decodeBits_deadEnd hwf hd hdead)

theorem mem_allowed_dend : s.phase ∈ allowed .dend ↔ s.phase = .codes := by
  simp [allowed]

/-- DEND with bits left over. -/
theorem exec_dend_leftover (hp : s.phase = .codes) (hd : s.dpre ≠ []) :
    exec .dend s = .next (raise 0x07#8 .unmatchedBits [] s) :=
  exec_of_raised (by simp) (by simp) (mem_allowed_dend.mpr hp) rfl
    (show dendBody s = .raised .unmatchedBits [] from if_pos hd)

/-- DEND at the end of a code. -/
theorem exec_dend_done (hp : s.phase = .codes) (hd : s.dpre = []) :
    exec .dend s = .next { s with pend := [0x85070000#32] } :=
  exec_of_done (by simp) (by simp) (mem_allowed_dend.mpr hp) rfl
    (show dendBody s = .done s [doneWord (opcodeOf .dend)] from if_neg (not_not.mpr hd))

/-- Settles O40: the common checks, then the two ends of DEND's body. -/
theorem dendEndsTheBitString : Obligations.DendEndsTheBitString :=
  ⟨rfl, commonChecks (by simp) (by simp), fun _ hp => ⟨exec_dend_leftover hp, exec_dend_done hp⟩⟩

/-! ### The bits of several commands -/

/-- In phase ERROR every command but CLR and SYNC is discarded, so the error stays. -/
theorem runAll_error {is : List Instr} (hs : s.phase = .error)
    (his : ∀ i ∈ is, i ≠ .clr ∧ ∀ tag, i ≠ .sync tag) :
    ∃ t out, runAll is s = some (t, out) ∧ t.phase = .error ∧ t.errcode = s.errcode := by
  induction is generalizing s with
  | nil => exact ⟨s, [], rfl, hs, rfl⟩
  | cons i is ih =>
    obtain ⟨⟨hclr, hsync⟩, hrest⟩ := List.forall_mem_cons.mp his
    obtain ⟨t, out, hrun, hphase, herr⟩ := ih (s := { s with pend := [] }) hs hrest
    obtain ⟨-, hchecks⟩ := commonChecks hclr hsync
    obtain ⟨hdiscard, -⟩ := hchecks s
    exact ⟨t, out, by rw [runAll_cons_of_next (hdiscard hs), hrun]; rfl, hphase, herr⟩

/-- DBITs whose bits decode, however they are cut, do what their concatenation does. -/
theorem runAll_dbits_of_some (hp : s.phase = .codes)
    (h : decodeBits s.ct s.dpre ps.flatten = (some d, out)) :
    ∃ last, runAll (ps.map .dbit) s = some ({ s with dpre := d, pend := last }, out) := by
  induction ps generalizing s out with
  | nil =>
    cases h
    exact ⟨s.pend, rfl⟩
  | cons x ps ih =>
    rw [List.flatten_cons, decodeBits_append] at h
    rcases hx : decodeBits s.ct s.dpre x with ⟨_ | d₁, words⟩ <;> rw [hx] at h
    · cases h
    · obtain ⟨hd, rfl⟩ := Prod.mk.inj h
      obtain ⟨last, hrun⟩ := ih (s := { s with dpre := d₁, pend := words }) hp (Prod.ext hd rfl)
      exact ⟨last, by rw [List.map_cons, runAll_cons_of_next (exec_dbit_of_some hp hx), hrun]; rfl⟩

/-- DBITs with a bit that fails end in phase ERROR, whatever commands but CLR and SYNC follow. -/
theorem runAll_dbits_of_none {is : List Instr} (hp : s.phase = .codes)
    (his : ∀ i ∈ is, i ≠ .clr ∧ ∀ tag, i ≠ .sync tag)
    (h : (decodeBits s.ct s.dpre ps.flatten).1 = none) :
    ∃ t out, runAll (ps.map .dbit ++ is) s = some (t, out) ∧
      t.phase = .error ∧ t.errcode = .unmatchedBits := by
  induction ps generalizing s with
  | nil => cases h
  | cons x ps ih =>
    rw [List.flatten_cons, decodeBits_append] at h
    rw [List.map_cons, List.cons_append]
    rcases hx : decodeBits s.ct s.dpre x with ⟨_ | d₁, words⟩
    · rw [runAll_cons_of_next (exec_dbit_of_none hp hx)]
      obtain ⟨t, out, hrun, ht⟩ := runAll_error (s := raise 0x06#8 .unmatchedBits words s)
        (is := ps.map .dbit ++ is) rfl (by simpa [or_imp, forall_and] using his)
      exact ⟨t, _, by rw [hrun]; rfl, ht⟩
    · rw [hx] at h
      rw [runAll_cons_of_next (exec_dbit_of_some hp hx)]
      obtain ⟨t, out, hrun, ht⟩ := ih (s := { s with dpre := d₁, pend := words }) hp h
      exact ⟨t, _, by rw [hrun]; rfl, ht⟩

/-! ### The greedy equivalence -/

/-- The rest `c` of a code with pending bits `d` decodes to its symbol: no shorter string is a code (R94). -/
theorem decodes_code {c bs : Bits} (h : TableWf p ct) (he : e ∈ ct) (hc : e.code = d ++ c) (hne : c ≠ [])
    (hrest : Decodes ct [] bs syms d') : Decodes ct d (c ++ bs) (e.sym :: syms) d' := by
  induction c generalizing d with
  | nil => exact absurd rfl hne
  | cons b c ih =>
    cases c with
    | nil => exact .emit d b bs e syms d' he hc hrest
    | cons b' c =>
      have hpre : (d ++ [b]) <+: e.code := ⟨b' :: c, by simp [hc]⟩
      have hproper : d ++ [b] ≠ e.code := by simp [hc]
      refine .keep d b _ _ d' (fun x hx hcode => hproper ?_) ⟨e, he, hpre, hproper⟩
        (ih (by simp [hc]) (by simp))
      rw [← hcode] at hpre ⊢
      exact prefixFree_eq h.codes_prefixFree (List.mem_map_of_mem hx) (List.mem_map_of_mem he) hpre

/-- A concatenation of codes decodes to their symbols. -/
theorem decodes_codes {es : List CodeEntry} (h : TableWf p ct) (hes : ∀ e ∈ es, e ∈ ct) :
    Decodes ct [] (es.map CodeEntry.code).flatten (es.map CodeEntry.sym) [] := by
  induction es with
  | nil => exact .done []
  | cons e es ih =>
    obtain ⟨he, hrest⟩ := List.forall_mem_cons.mp hes
    exact decodes_code h he rfl (h.codes_nonempty e he) (ih hrest)

/-- What decodes without an error is a concatenation of codes and the bits left over. -/
theorem exists_codes_of_decodeBits (h : (decodeBits ct d bits).1 = some d') :
    ∃ es : List CodeEntry, (∀ e ∈ es, e ∈ ct) ∧ d ++ bits = (es.map CodeEntry.code).flatten ++ d' := by
  induction bits generalizing d with
  | nil =>
    cases h
    exact ⟨[], by simp, by simp⟩
  | cons b bs ih =>
    rcases decodeBit_cases ct d b with ⟨e, hm, hb⟩ | ⟨-, -, hb⟩ | ⟨-, -, hb⟩
    · rw [decodeBits_cons_of_some hb] at h
      obtain ⟨es, hes, heq⟩ := ih h
      have he : e ∈ ct := List.mem_of_find?_eq_some hm
      have hcode : e.code = d ++ [b] := by simpa using List.find?_some hm
      exact ⟨e :: es, List.forall_mem_cons.mpr ⟨he, hes⟩, by simpa [hcode] using heq⟩
    · rw [decodeBits_cons_of_some hb] at h
      obtain ⟨es, hes, heq⟩ := ih h
      exact ⟨es, hes, by simpa using heq⟩
    · simp [decodeBits, hb] at h

/-- The DBITs of a concatenation of codes, then DEND: the SYM words of the codes' symbols, and DONE. -/
theorem runAll_decode_codes {es : List CodeEntry} (hp : s.phase = .codes) (hwf : TableWf s.par s.ct)
    (hd : s.dpre = []) (hes : ∀ e ∈ es, e ∈ s.ct) (hps : ps.flatten = (es.map CodeEntry.code).flatten) :
    runAll (ps.map .dbit ++ [.dend]) s =
      some ({ s with pend := [0x85070000#32] }, (es.map fun e => symWord e.sym) ++ [0x85070000#32]) := by
  have hbits : decodeBits s.ct s.dpre ps.flatten = (some [], (es.map CodeEntry.sym).map symWord) := by
    rw [hd, hps]
    exact decodeBits_of_decodes hwf (decodes_codes hwf hes)
  obtain ⟨last, hrun⟩ := runAll_dbits_of_some hp hbits
  have hdend := exec_dend_done (s := { s with dpre := [], pend := last }) hp rfl
  rw [runAll_append_of_some hrun, runAll_cons_of_next hdend, ← hd]
  simp

/-- The DBITs of any other bit string, then DEND: a bit fails, or DEND finds bits left over. -/
theorem runAll_decode_unmatched (hp : s.phase = .codes) (hd : s.dpre = [])
    (hx : ∀ es : List CodeEntry, (∀ e ∈ es, e ∈ s.ct) → ps.flatten ≠ (es.map CodeEntry.code).flatten) :
    ∃ t out, runAll (ps.map .dbit ++ [.dend]) s = some (t, out) ∧
      t.phase = .error ∧ t.errcode = .unmatchedBits := by
  rcases hbits : decodeBits s.ct s.dpre ps.flatten with ⟨_ | d, out⟩
  · exact runAll_dbits_of_none hp (by simp) (by rw [hbits])
  · obtain ⟨es, hes, heq⟩ := exists_codes_of_decodeBits (congrArg Prod.fst hbits)
    have hleft : d ≠ [] := fun hnil => hx es hes (by simpa [hd, hnil] using heq)
    obtain ⟨last, hrun⟩ := runAll_dbits_of_some hp hbits
    have hdend := exec_dend_leftover (s := { s with dpre := d, pend := last }) hp hleft
    exact ⟨_, _, by rw [runAll_append_of_some hrun, runAll_cons_of_next hdend]; rfl, rfl, rfl⟩

/-- Settles O59: a concatenation of codes decodes, and what decodes with no bits left over is one. -/
theorem decodingInvertsConcatenation : Obligations.DecodingInvertsConcatenation := by
  rintro s _ ps hp hwf hd ⟨rfl, -⟩
  exact ⟨fun es hes hx => runAll_decode_codes hp hwf hd hes hx, runAll_decode_unmatched hp hd⟩

end Sys2Proof.Proofs

/-! ## The round trip

Counting, building, generating, encoding and decoding one after another (R127): each law of the units at the state
where the one before it ends. -/

namespace Sys2Proof.Proofs

open Sys2Proof.Machine Sys2Proof.Safety Sys2Proof.Laws

variable {s t : State} {text : List Symbol} {out : List Word} {tree : HTree}

/-! ### What a run keeps -/

/-- A property that each part of a step keeps is kept by every run of commands. -/
theorem KeptByParts.runAll {P : State → Prop} {is : List Instr} (k : KeptByParts P) (hs : P s)
    (h : Safety.runAll is s = some (t, out)) : P t := by
  induction is generalizing s out with
  | nil =>
    cases h
    exact hs
  | cons i is ih =>
    obtain ⟨u, hu⟩ := exec_answers_next i s
    rw [runAll_cons_of_next hu] at h
    obtain ⟨⟨t', out'⟩, hrun, heq⟩ := Option.map_eq_some_iff.mp h
    cases heq
    refine ih ?_ hrun
    rcases exec_parts hu with hpart | hpart | hpart | ⟨hc, ha, v, pushed, hb, hpart⟩
    · exact k.same hpart hs
    · exact k.error hpart hs
    · exact k.same hpart (k.clear hs)
    · exact k.same hpart (k.body hc ha hb hs)

/-- In IDLE, FT and TOTAL are empty too. -/
theorem idle_counts_empty (hs : PhaseWf s) (hp : s.phase = .idle) : s.ft = [] ∧ s.total = 0 := by
  simp only [PhaseWf, hp] at hs
  obtain ⟨hft, -, htotal, -⟩ := hs
  exact ⟨hft, htotal⟩

/-! ### Counting and building -/

/-- CNT does not read PEND. -/
theorem exec_cnt_pend (a : Symbol) (words : List Word) (s : State) :
    exec (.cnt a) { s with pend := words } = exec (.cnt a) s := by
  have hbody : commit (opcodeOf (.cnt a)) { s with pend := words } (cntBody a { s with pend := words }) =
      commit (opcodeOf (.cnt a)) s (cntBody a s) := by
    unfold cntBody
    dsimp only
    split
    · rfl
    · split
      · split <;> rfl
      · rfl
  simp only [exec, execCnt, runCommand, hbody]
  rfl

/-- So a run that begins with CNT starts from PEND empty as well. -/
theorem runAll_cntsOf_pend (hne : text ≠ []) :
    runAll (cntsOf text) s = runAll (cntsOf text) { s with pend := [] } := by
  obtain ⟨a, text, rfl⟩ := List.exists_cons_of_ne_nil hne
  obtain ⟨u, hu⟩ := exec_answers_next (.cnt a) s
  rw [cntsOf, List.map_cons, runAll_cons_of_next hu, runAll_cons_of_next ((exec_cnt_pend a [] s).trans hu)]

/-- Counting a text and BLD: the run pushes nothing, and ends with the text's symbols in FT and their tree. -/
theorem runAll_cntsOf_bld (hs : PhaseWf s) (hp : s.phase = .idle) (hne : text ≠ [])
    (hsc : ∀ a ∈ text, isScalar a = true) (hlen : text.length < 2 ^ s.par.wCnt)
    (hcap : (distinct text).length ≤ s.par.nSym) :
    ∃ built tree, runAll (cntsOf text ++ [.bld]) s = some (built, []) ∧
      built.phase = .tree ∧ built.tree = some tree ∧ built.ft = counted text := by
  obtain ⟨hft, htotal⟩ := idle_counts_empty hs hp
  have hcount : runAll (cntsOf text) s = some (afterCounting { s with pend := [] } text, []) :=
    (runAll_cntsOf_pend hne).trans
      (countingATextGivesItsFrequencyTable { s with pend := [] } text hp hft htotal rfl hsc hlen hcap)
  have hcounted : counted text ≠ [] := fun h => by
    obtain ⟨a, rest, rfl⟩ := List.exists_cons_of_ne_nil hne
    simp [counted, distinct] at h
  have hphase : (afterCounting { s with pend := [] } text).phase = .counting := if_neg hne
  obtain ⟨-, -, hbld⟩ := bldBuildsAnAdmissibleTree
  obtain ⟨tree, draws, -, hexec⟩ := (hbld _ (.inr hphase)).2 hcounted
  exact ⟨_, tree, by rw [runAll_append_of_some hcount, runAll_cons_of_next hexec]; rfl, rfl, rfl, rfl⟩

/-! ### Generating and encoding -/

/-- The state after GEN, from one whose tree has codes that fit (R111). -/
def afterGen (s : State) : State :=
  { s with ct := generatedTable s, tree := none, dpre := [], phase := .codes, pend := [] }

theorem exec_gen (hp : s.phase = .tree) (ht : s.tree = some tree)
    (hfits : ∀ i < s.ft.length, (codeOf tree i).length ≤ s.par.maxCodeLen) :
    exec .gen s = .next (afterGen s) :=
  exec_of_done (by simp) (by simp) (mem_allowed_gen.mpr hp) rfl (genBody_table ht hfits)

/-- Each symbol of a text over a table's symbols is that of an entry. -/
theorem exists_entries {ct : List CodeEntry} (h : ∀ a ∈ text, a ∈ ct.map CodeEntry.sym) :
    ∃ es : List CodeEntry, (∀ e ∈ es, e ∈ ct) ∧ es.map CodeEntry.sym = text := by
  induction text with
  | nil => exact ⟨[], by simp, rfl⟩
  | cons a text ih =>
    obtain ⟨ha, hrest⟩ := List.forall_mem_cons.mp h
    obtain ⟨e, he, rfl⟩ := List.mem_map.mp ha
    obtain ⟨es, hes, rfl⟩ := ih hrest
    exact ⟨e :: es, List.forall_mem_cons.mpr ⟨he, hes⟩, rfl⟩

/-- GEN and ENC of a text over FT's symbols: the bits pushed are the codes, in the new CT, of entries with the
text's symbols, and the run ends where decoding can begin. -/
theorem runAll_gen_encsOf (hp : s.phase = .tree) (ht : s.tree = some tree)
    (hfits : ∀ i < s.ft.length, (codeOf tree i).length ≤ s.par.maxCodeLen)
    (hs : FreqWf s ∧ TablesWf s) (hsc : ∀ a ∈ text, isScalar a = true)
    (hft : ∀ a ∈ text, a ∈ s.ft.map FreqEntry.sym) :
    ∃ t out, ∃ es : List CodeEntry, runAll (.gen :: encsOf text) s = some (t, out) ∧
      t.phase = .codes ∧ TableWf t.par t.ct ∧ t.dpre = [] ∧ (∀ e ∈ es, e ∈ t.ct) ∧
      es.map CodeEntry.sym = text ∧ out.flatMap bitsOf = (es.map CodeEntry.code).flatten := by
  obtain ⟨hfreq, htables⟩ := hs
  have hwf : TableWf s.par (generatedTable s) :=
    (genBody_tablesWf (genBody_table ht hfits) (mem_allowed_gen.mpr hp) hfreq htables).table
  rw [← generatedTable_syms] at hft
  obtain ⟨es, hes, rfl⟩ := exists_entries hft
  obtain ⟨last, hencs⟩ := runAll_encsOf (s := afterGen s) rfl fun e he =>
    ⟨findC_mem hwf.keys_unique (hes e he), hsc _ (List.mem_map_of_mem he)⟩
  have hrun : runAll (.gen :: encsOf (es.map CodeEntry.sym)) s =
      some ({ afterGen s with pend := last }, chunksOf es) := by
    rw [runAll_cons_of_next (exec_gen hp ht hfits), hencs]
    rfl
  exact ⟨_, _, es, hrun, rfl, hwf, rfl, hes, rfl, flatMap_bitsOf_chunksOf es⟩

/-- Settles O60: counting and building, then generating and encoding, then R126 for the codes of the text. -/
theorem compressThenDecodeGivesTheText : Obligations.CompressThenDecodeGivesTheText := by
  intro s text hs hp hne hsc hlen hcap
  obtain ⟨built, tree, hbuilt, hphase, htree, hft⟩ := runAll_cntsOf_bld hs.phase hp hne hsc hlen hcap
  have hwf : FreqWf built ∧ TablesWf built :=
    tablesWf_keptByParts.runAll ⟨hs.freq, hs.table, hs.dprefix, hs.stage, hs.phase⟩ hbuilt
  have hsyms : ∀ a ∈ text, a ∈ built.ft.map FreqEntry.sym := fun a ha => by
    rw [hft, counted_syms]
    exact mem_distinct.mpr ha
  refine ⟨built, hbuilt, fun hfits => ?_⟩
  have htreeOf : treeOf built = tree := by simp [treeOf, htree]
  rw [htreeOf] at hfits
  have hpar : built.par = s.par := (par_keptByParts s.par).runAll rfl hbuilt
  obtain ⟨t, out, es, hcodes, htp, htwf, htd, hes, rfl, hbits⟩ :=
    runAll_gen_encsOf hphase htree (hpar ▸ hfits) hwf hsc hsyms
  refine ⟨t, out, hcodes, fun ps ⟨hps, _⟩ => ⟨{ t with pend := [0x85070000#32] }, ?_, htp⟩⟩
  rw [runAll_decode_codes htp htwf htd hes (hps.trans hbits), List.map_map]
  rfl

end Sys2Proof.Proofs

/-! ## The control commands (R129, R130)

CLR and SYNC act in every phase, so of the common checks only the first one, for illegal operands, is theirs; their
bodies are the laws `exec_clr` and `exec_sync`. -/

namespace Sys2Proof.Proofs

open Sys2Proof.Machine Sys2Proof.Safety Sys2Proof.Laws

/-- Settles O28: an illegal word raises as for every command, and CLR clears and pushes nothing. -/
theorem clrClearsDataAndErrorState : Obligations.ClrClearsDataAndErrorState :=
  ⟨rfl, illegalOperands .clr, exec_clr⟩

variable {s : State} {tag : BitVec 16}

/-- SYNC's word (R130): the reserved byte of form T is 0. -/
theorem encode_sync (tag : BitVec 16) : encode (.sync tag) = 0x0E00#16 ++ tag :=
  (BitVec.append_assoc (x₁ := 0x0E#8) (x₂ := 0#8) (x₃ := tag)).symm

/-- The SYNC word (R80) of a phase other than ERROR. -/
theorem syncWord_false (tag : BitVec 16) : syncWord false tag = 0x8600#16 ++ tag :=
  (BitVec.append_assoc (x₁ := 0x86#8) (x₂ := 0x00#8) (x₃ := tag)).symm

/-- The SYNC word (R80) of phase ERROR: bit 16 is 1. -/
theorem syncWord_true (tag : BitVec 16) : syncWord true tag = 0x8601#16 ++ tag :=
  (BitVec.append_assoc (x₁ := 0x86#8) (x₂ := 0x01#8) (x₃ := tag)).symm

/-- SYNC outside phase ERROR. -/
theorem exec_sync_of_ne_error (hp : s.phase ≠ .error) :
    exec (.sync tag) s = .next { s with pend := [0x8600#16 ++ tag] } := by
  rw [exec_sync, decide_eq_false hp, syncWord_false]

/-- SYNC in phase ERROR is still answered. -/
theorem exec_sync_of_error (hp : s.phase = .error) :
    exec (.sync tag) s = .next { s with pend := [0x8601#16 ++ tag] } := by
  rw [exec_sync, decide_eq_true hp, syncWord_true]

/-- Settles O41: an illegal word raises as for every command, and bit 16 of the SYNC word shows phase ERROR. -/
theorem syncReportsTheErrorPhase : Obligations.SyncReportsTheErrorPhase :=
  fun tag => ⟨encode_sync tag, illegalOperands (.sync tag), fun _ => ⟨exec_sync_of_ne_error, exec_sync_of_error⟩⟩

end Sys2Proof.Proofs

/-! ## The response words (R74 to R81)

Each word is its tag and two or three fields below it; `extractLsb'_three` and `extractLsb'_four` read them back. -/

namespace Sys2Proof.Proofs

open Sys2Proof.Machine Sys2Proof.Safety Sys2Proof.Laws

section

variable {a b c d : Nat} (x : BitVec a) (y : BitVec b) (z : BitVec c) (v : BitVec d)

/-- The fields of a word put together of three. -/
theorem extractLsb'_three :
    (x ++ (y ++ z)).extractLsb' (b + c) a = x ∧ (x ++ (y ++ z)).extractLsb' c b = y ∧
    (x ++ (y ++ z)).extractLsb' 0 c = z := by
  refine ⟨extractLsb'_append_high _ _, ?_, ?_⟩ <;>
    rw [BitVec.extractLsb'_append_eq_of_add_le (by omega)]
  · exact extractLsb'_append_high _ _
  · exact extractLsb'_append_low _ _

/-- The fields of a word put together of four. -/
theorem extractLsb'_four :
    (x ++ (y ++ (z ++ v))).extractLsb' (b + (c + d)) a = x ∧
    (x ++ (y ++ (z ++ v))).extractLsb' (c + d) b = y ∧
    (x ++ (y ++ (z ++ v))).extractLsb' d c = z ∧ (x ++ (y ++ (z ++ v))).extractLsb' 0 d = v := by
  obtain ⟨hx, hy, -⟩ := extractLsb'_three x y (z ++ v)
  refine ⟨hx, hy, ?_, ?_⟩ <;>
    rw [BitVec.extractLsb'_append_eq_of_add_le (by omega),
      BitVec.extractLsb'_append_eq_of_add_le (by omega)]
  · exact extractLsb'_append_high _ _
  · exact extractLsb'_append_low _ _

end

/-- The ERR word (R81), its fields from the left. -/
theorem errWord_eq (op : Byte) (e : ErrCode) :
    errWord op e = 0xEE#8 ++ (op ++ (0x000#12 ++ errNum e)) :=
  congrArg (0xEE#8 ++ ·) BitVec.append_assoc

/-- The SYNC word (R80), its fields from the left. -/
theorem syncWord_eq (inError : Bool) (tag : BitVec 16) :
    syncWord inError tag = 0x86#8 ++ (0#7 ++ (BitVec.ofBool inError ++ tag)) :=
  congrArg (0x86#8 ++ ·) BitVec.append_assoc

theorem syncWord_fields (inError : Bool) (tag : BitVec 16) :
    (syncWord inError tag).extractLsb' 24 8 = 0x86#8 ∧ (syncWord inError tag).extractLsb' 17 7 = 0#7 ∧
    (syncWord inError tag).getLsbD 16 = inError ∧ (syncWord inError tag).extractLsb' 0 16 = tag := by
  rw [syncWord_eq]
  obtain ⟨htag, hzero, hbit, hecho⟩ := extractLsb'_four 0x86#8 0#7 (BitVec.ofBool inError) tag
  exact ⟨htag, hzero, by simpa using congrArg (BitVec.getLsbD · 0) hbit, hecho⟩

/-- Settles O21: SYM, FREQ, ENTRY and DONE have three fields, SYNC and ERR four. -/
theorem responseWordsCarryTheirFields : Obligations.ResponseWordsCarryTheirFields := by
  refine ⟨⟨rfl, rfl, rfl, rfl, rfl, rfl, rfl, rfl, rfl, rfl, rfl, rfl⟩, fun sym => ?_,
    fun op => extractLsb'_three _ _ _, syncWord_fields, fun op e => ?_⟩
  · obtain ⟨hsymTag, hsymZero, hsym⟩ := extractLsb'_three 0x82#8 0#3 sym
    obtain ⟨hfreqTag, hfreqZero, hfreq⟩ := extractLsb'_three 0x83#8 0#3 sym
    exact ⟨hsymTag, hsymZero, hsym, hfreqTag, hfreqZero, hfreq, extractLsb'_three 0x84#8 0#3 sym⟩
  · rw [errWord_eq]
    exact extractLsb'_four _ _ _ _

end Sys2Proof.Proofs

/-! ## Phase ERROR (R135 to R139)

How a command enters phase ERROR (`exec_entersError`), and everything a step can do in it (`step_inError`). -/

namespace Sys2Proof.Proofs

open Sys2Proof.Machine Sys2Proof.Safety Sys2Proof.Laws

variable {i : Instr} {s t u : State} {w : Word} {out : List Word}

/-! ### The error entry -/

/-- Only DBIT pushes words before it raises (R135). -/
theorem bodyOf_raised_nil {e : ErrCode} (hi : ∀ b, i ≠ .dbit b) (h : bodyOf i s = .raised e out) :
    out = [] := by
  cases i with
  | dbit bits => exact absurd rfl (hi bits)
  | clr | dump | qfreq _ | sync _ => cases h
  | bld | gen | enc _ | dend | lsym _ =>
    simp only [bodyOf, bldBody, genBody, encBody, dendBody, lsymBody] at h
    split at h <;> cases h
    rfl
  | cnt sym =>
    simp only [bodyOf, cntBody] at h
    split at h
    · cases h; rfl
    · split at h
      · split at h <;> cases h
        rfl
      · cases h
  | lbit bits =>
    simp only [bodyOf, lbitBody] at h
    split at h
    · cases h; rfl
    · split at h <;> cases h
      rfl
  | lcom =>
    simp only [bodyOf, lcomBody] at h
    split at h
    · cases h; rfl
    · split_ifs at h <;> cases h <;> rfl
  | lend =>
    simp only [bodyOf, lendBody] at h
    split_ifs at h <;> cases h <;> rfl

/-- A command enters phase ERROR only by a raise from the state before it: by one of the common checks, which push
nothing, or by its body. -/
theorem exec_entersError (h : exec i s = .next t) (hs : s.phase ≠ .error) (ht : t.phase = .error) :
    ∃ e ∈ errorsOf i, ∃ out, t = raise (opcodeOf i) e out s ∧ (out ≠ [] → ∃ b, i = .dbit b) := by
  rcases exec_cases h with ⟨-, rfl⟩ | ⟨tag, -, rfl⟩ | ⟨hc, -, hrest⟩
  · cases ht
  · exact absurd ht hs
  rcases hrest with ⟨he, -⟩ | ⟨-, ha, rfl⟩ | ⟨-, hbad, rfl⟩ | ⟨-, -, rfl⟩
  · exact absurd he hs
  · exact ⟨_, phaseError_mem_errorsOf hs ha, [], rfl, absurd rfl⟩
  · exact ⟨_, illegalSymbol_mem_errorsOf hbad, [], rfl, absurd rfl⟩
  · cases hb : bodyOf i s with
    | done u out =>
      obtain ⟨-, -, hu, -⟩ := bodyOf_frame hc hb
      rw [hb] at ht
      exact absurd (hu ht) hs
    | raised e out =>
      refine ⟨e, bodyOf_raised hb, out, rfl, fun hout => ?_⟩
      by_contra hi
      exact hout (bodyOf_raised_nil (not_exists.mp hi) hb)

/-- Settles O23: the raise of `exec_entersError`, with its ERR word written out. -/
theorem errorEntryIsPrecise : Obligations.ErrorEntryIsPrecise := by
  intro i s t h hs ht
  obtain ⟨e, he, out, rfl, hout⟩ := exec_entersError h hs ht
  exact ⟨e, out, he, by rw [← errWord_eq, raise], hout⟩

/-! ### The words of phase ERROR -/

theorem decode_clr_iff : decode w = .ok .clr ↔ w = 0x01000000#32 := by
  rw [decode_ok_iff, eq_comm (a := w)]
  exact and_iff_right rfl

theorem decode_sync_iff {tag : BitVec 16} : decode w = .ok (.sync tag) ↔
    w.extractLsb' 24 8 = 0x0E#8 ∧ w.extractLsb' 16 8 = 0x00#8 ∧ w.extractLsb' 0 16 = tag := by
  rw [decode_ok_iff, encode_eq_iff]
  exact (and_iff_right rfl).trans (and_congr eq_comm operandT_eq_iff)

theorem exec_discards (hs : s.phase = .error) (hclr : i ≠ .clr) (hsync : ∀ tag, i ≠ .sync tag) :
    exec i s = .next (discard s) := by
  rw [exec_eq_runCommand i hclr hsync, runCommand_discards hs]

theorem illegalCommand_discards (w : Word) (hs : s.phase = .error) :
    illegalCommand w s = discard s := if_pos hs

theorem executes_phase (hx : Executes s w u) : u.phase = s.phase := sameData_phase (executes_sameData hx)

/-- A word that is neither that of CLR nor one of SYNC is discarded in phase ERROR, legal or not (R137). -/
theorem step_executes_discards (hx : Executes s w u) (hs : s.phase = .error)
    (hclr : decode w ≠ .ok .clr) (hsync : ∀ tag, decode w ≠ .ok (.sync tag)) : step s = .next u := by
  have hu : u.phase = .error := (executes_phase hx).trans hs
  rw [step_executes hx]
  cases hd : decode w with
  | ok i =>
    have hdiscard : exec i u = .next (discard u) :=
      exec_discards hu (fun hi => hclr (hi ▸ hd)) fun tag hi => hsync tag (hi ▸ hd)
    exact hdiscard.trans (by rw [executes_discard hx])
  | error e => exact congrArg _ ((illegalCommand_discards w hu).trans (executes_discard hx))

/-- Settles O17: the CLR word and the SYNC words by what they decode to, the others by `step_executes_discards`. -/
theorem errorPhaseActsOnlyOnClrAndSync : Obligations.ErrorPhaseActsOnlyOnClrAndSync := by
  intro s u w hx hs
  refine ⟨fun hw => ?_, fun hop hres => ?_, fun hclr hsync => ?_⟩
  · rw [stepRunsTheDecodedCommand s u w .clr hx (decode_clr_iff.mpr hw), exec_clr]
    obtain ⟨q, rest, -, -, hpend, -, rfl⟩ := hx
    simp [clearAll, hpend]
  · rw [stepRunsTheDecodedCommand s u w _ hx (decode_sync_iff.mpr ⟨hop, hres, rfl⟩),
      exec_sync_of_error ((executes_phase hx).trans hs)]
  · refine step_executes_discards hx hs (mt decode_clr_iff.mp hclr) fun tag hd => hsync ?_
    obtain ⟨hop, hres, -⟩ := decode_sync_iff.mp hd
    exact ⟨hop, hres⟩

/-! ### The steps of phase ERROR -/

theorem SameData.trans (h : SameData s u) (h' : SameData u t) : SameData s t := by
  rw [SameData, h', h]

theorem SameData.clearAll (h : SameData s u) : SameData (clearAll s) (clearAll u) := by
  rw [SameData, h]
  rfl

/-- In phase ERROR a legal word clears, if it is CLR, or leaves all data (R137). -/
theorem exec_inError (h : exec i s = .next t) (hs : s.phase = .error) :
    (i = .clr ∧ SameData (clearAll s) t) ∨ SameData s t := by
  rcases exec_outcome h with ⟨hi, rfl⟩ | ⟨-, ht⟩ | ⟨-, hp, -⟩ | ⟨-, ha, -⟩
  · exact .inl ⟨hi, rfl⟩
  · exact .inr (by rw [ht]; rfl)
  · exact absurd hs hp
  · exact absurd (hs ▸ ha) (error_not_allowed i)

/-- A write in phase ERROR leaves all data, sets OVF on a full CMDQ, or resets (R31, R39). -/
theorem writeReg_inError {off : Nat} {v : Word} (hw : Writes s off v u) (hs : s.phase = .error) :
    SameData s (writeReg off v u) ∨
    (off = 0x00 ∧ ¬ s.cmdq.length < s.par.cmdqDepth ∧ SameData { s with ovf := true } (writeReg off v u)) ∨
    (Resets s u ∧ SameData (clearAll s) (writeReg off v u)) := by
  have hreset : off = 0x20 → v.getLsbD 0 = true → Resets s u := fun ho hv => .inr ⟨v, hv, ho ▸ hw⟩
  obtain ⟨rest, -, rfl⟩ := hw
  rcases writeReg_cases off v { s with env := rest } with ⟨ho, h⟩ | ⟨ho, hv, h⟩ | h <;> rw [h]
  · rcases writeCmd_cases v { s with env := rest } with ⟨-, h⟩ | ⟨hfull, -, h⟩ | ⟨-, hp, -⟩
    · exact .inl (by rw [h]; rfl)
    · exact .inr (.inl ⟨ho, hfull, by rw [h]; rfl⟩)
    · exact absurd hs hp
  · exact .inr (.inr ⟨hreset ho hv, rfl⟩)
  · exact .inl rfl

/-- Everything a step can do to the data in phase ERROR: nothing; OVF, by a write of CMD to a full CMDQ; or the
clearing of all of it, by CLR or a reset (R137 to R139). -/
theorem step_inError (h : step s = .next t) (hs : s.phase = .error) :
    SameData s t ∨
    ((∃ v u, Writes s 0x00 v u ∧ ¬ s.cmdq.length < s.par.cmdqDepth) ∧ SameData { s with ovf := true } t) ∨
    (((∃ u, Executes s 0x01000000#32 u) ∨ ∃ u, Resets s u) ∧ SameData (clearAll s) t) := by
  rcases step_cases h with ⟨w, u, i, hx, hd, he⟩ | ⟨w, u, e, hx, -, rfl⟩ |
    ⟨v, q, rest, -, -, -, rfl⟩ | ⟨rest, -, -, rfl⟩ | ⟨off, u, hr, -, -, rfl⟩ |
    ⟨off, v, u, hw, -, -, rfl⟩ | ⟨u, hr, rfl⟩
  · have hu := executes_sameData hx
    rcases exec_inError he ((executes_phase hx).trans hs) with ⟨rfl, ht⟩ | ht
    · rw [decode_clr_iff.mp hd] at hx
      exact .inr (.inr ⟨.inl ⟨u, hx⟩, hu.clearAll.trans ht⟩)
    · exact .inl (hu.trans ht)
  · rw [illegalCommand_discards w ((executes_phase hx).trans hs), executes_discard hx]
    exact .inl (executes_sameData hx)
  · exact .inl rfl
  · exact .inl rfl
  · have hread : SameData u (readReg off u) := rfl
    exact .inl ((reads_sameData hr).trans hread)
  · rcases writeReg_inError hw hs with h | ⟨rfl, hfull, h⟩ | ⟨hr, h⟩
    · exact .inl h
    · exact .inr (.inl ⟨⟨v, u, hw, hfull⟩, h⟩)
    · exact .inr (.inr ⟨.inr ⟨u, hr⟩, h⟩)
  · have hclear : SameData (clearAll u) (resetBlock u) := rfl
    exact .inr (.inr ⟨.inr ⟨u, hr⟩, (resets_sameData hr).clearAll.trans hclear⟩)

/-- Settles O26: of the steps of `step_inError`, only the clearing leaves phase ERROR. -/
theorem errorPhaseIsLeftOnlyByClrOrReset : Obligations.ErrorPhaseIsLeftOnlyByClrOrReset := by
  intro s t h hs hne
  rcases step_inError h hs with ht | ⟨-, ht⟩ | ⟨hcause, ht⟩
  · exact absurd ((sameData_phase ht).trans hs) hne
  · exact absurd ((sameData_phase ht).trans hs) hne
  · rw [ht]
    exact ⟨hcause, rfl, rfl, rfl, rfl, rfl, rfl, rfl, rfl, rfl, rfl⟩

/-- Settles O27: of the steps of `step_inError`, the clearing ends in IDLE and the others keep the first error. -/
theorem errorPhaseKeepsTheFirstError : Obligations.ErrorPhaseKeepsTheFirstError := by
  intro s t h hs herr
  rcases step_inError h hs with ht | ⟨⟨v, u, hw, hfull⟩, ht⟩ | ⟨-, ht⟩
  · rw [ht]
    exact ⟨rfl, rfl, rfl, rfl, rfl, rfl, rfl, rfl, .inl rfl⟩
  · rw [ht]
    exact ⟨rfl, rfl, rfl, rfl, rfl, rfl, rfl, rfl, .inr ⟨v, u, hw, hfull, rfl⟩⟩
  · have hidle : t.phase = .idle := sameData_phase ht
    rw [hidle] at herr
    cases herr

end Sys2Proof.Proofs
